-- ==== Sys2Proof/Word.lean ====
section
/-! DEFINITION. The words of the block and the small fixed sets of names its interface uses: widths, stores, the
address rows and FDC commands of the opcode table, verdicts, and one access of the BUS. -/

namespace Sys2Proof

/-- A byte: the FDC's data path, and the unit of every store (20 R82). -/
abbrev Byte := BitVec 8

/-- A logical address, 24 bits (20 R80). -/
abbrev Addr := BitVec 24

/-- The bytes of one store that something has written, by address; canonical when the addresses rise strictly
(`Machine.Memory.wf`). An address that is not listed has never been written. -/
abbrev Memory := List Host.Cell

/-- The three widths of a transaction (20 R85): 8, 16 and 32 bits. -/
inductive Width where
  | w8 | w16 | w32
deriving DecidableEq, Repr

/-- The direction of an access; a write carries its data right-aligned (30 R121). -/
inductive Dir where
  | read
  | write (v : BitVec 32)
deriving DecidableEq, Repr

/-- One access as the BUS dispatches it: direction, width, and the address of its first byte (20 R97). -/
structure Access where
  dir : Dir
  width : Width
  addr : Addr
deriving DecidableEq, Repr

/-- The value a read returns has exactly the width of the access (41 R206). -/
inductive ReadValue where
  | v8 (v : BitVec 8)
  | v16 (v : BitVec 16)
  | v32 (v : BitVec 32)
deriving DecidableEq, Repr

/-- The byte stores behind the logical space (20 R82). -/
inductive Store where
  | base | exp | rom | vram | map
deriving DecidableEq, Repr

/-- The thirty address rows of the opcode table (format ADDR, 30 R146). -/
inductive AddrRow where
  | ram | rom | mapram | vram | gsr | bsr0 | bsr1 | stubPhoneStatus | dmacnt | stubLpStatus
  | stubRtc | stubPhone | mcr | stubDialer | clrstat | dmaadr | dcr | stubLpData
  | stubExpC | stubExpD | stubExpF | stubHdc | fdcwin | stubMcr2 | stubRtcData | gcr
  | stubSerial | stubModem | stubKeyboard | unmappedE
deriving DecidableEq, Repr

/-- The sixteen FDC commands (format FDCCMD, 30 R137). -/
inductive FdcCmd where
  | restore | seek | step | stepU | stepin | stepinU | stepout | stepoutU
  | rdsec | rdsecM | wrsec | wrsecM | rdaddr | forceint | rdtrk | fmttrk
deriving DecidableEq, Repr

/-- Where a stimulus is presented: the outer boundary (format STIM), or one of the block's inner decoders, the
formats ADDR, FDCREG and FDCCMD of the opcode table (30 R146; log 2). -/
inductive Port where
  | stim | addr | fdcReg | fdcCmd
deriving DecidableEq, Repr

/-- The four causes of a bus error (60 R345). -/
inductive FaultClass where
  | pageFault | userAddressOutOfRange | kernelAccessViolation | writeNotEnabled
deriving DecidableEq, Repr

/-- The verdict of the permission check (40 R175). -/
inductive Verdict where
  | allowed
  | denied (c : FaultClass)
deriving DecidableEq, Repr

/-- The remembered step direction (10 R53): `inward` is +1, toward higher track numbers, `outward` is -1. -/
inductive StepDir where
  | inward | outward
deriving DecidableEq, Repr

/-- The direction as the integer the step adds to the track. -/
def StepDir.toInt : StepDir → Int
  | .inward => 1
  | .outward => -1

end Sys2Proof
end

