-- ==== Sys2Proof/Config.lean ====
section
/-! DEFINITION. What an implementation fixes and what the spec leaves free. The record `Config` holds every parameter of
00 R12, as plain data; the values the spec decides are `Params.decided` (Machine/Parameters.lean), which the block has
at reset (log 11). The opaque constants are free values: nothing can be proved of what they are. -/

namespace Sys2Proof

/-! ### Functions of a finite set, as plain data -/

/-- One value for each Boolean. -/
structure ByBool (α : Type) where
  no : α
  yes : α
deriving DecidableEq, Repr

/-- One value for each width. -/
structure ByWidth (α : Type) where
  w8 : α
  w16 : α
  w32 : α
deriving DecidableEq, Repr

/-- One value for each fault class. -/
structure ByClass (α : Type) where
  pageFault : α
  userAddressOutOfRange : α
  kernelAccessViolation : α
  writeNotEnabled : α
deriving DecidableEq, Repr

/-- `GSR_ON_FAULT` as a function of class, width, parity of the address and `PIE` (30 R130), as plain data. -/
abbrev GsrOnFault := ByClass (ByWidth (ByBool (ByBool (BitVec 16))))

/-! ### The parameters the spec decides (00 R12) -/

/-- The register map of zones A and B (42 R221, R236): `VRAM_SEL`, the row of each selector of zone A, and the row of
each sub-selector of the 0xE page. -/
structure AddressMap where
  vramSel : BitVec 4
  zoneA : Vector AddrRow 16
  pageE : Vector AddrRow 16
deriving DecidableEq, Repr

/-- The bit positions of a page-table entry (30 R125): `WE`, `PS1`, `PS0`, and the lowest bit of the ten of `PPN`. -/
structure PteLayout where
  we : Fin 16
  ps1 : Fin 16
  ps0 : Fin 16
  ppn : Fin 7
deriving DecidableEq, Repr

/-- The Bus Fault Status constants of `BSR0` (30 R128). -/
structure BusFaultCodes where
  w16Bit : BitVec 16
  laneEven : BitVec 16
  laneOdd : BitVec 16
  classCode : ByClass (BitVec 16)
  pieBit : BitVec 16
deriving DecidableEq, Repr

/-- The FDC status bits whose value the source does not fix (30 R140): not 0x80, not ready, and 0x04, track zero. -/
structure StatusBits where
  wrProt : Byte
  headLoaded : Byte
  seekErr : Byte
  rnf : Byte
  lostData : Byte
  drq : Byte
  busy : Byte
deriving DecidableEq, Repr

/-- The parameters of the floppy controller: the command of each top nibble (30 R137), the head-select bit and the
IRQ bit of the low nibble (30 R138), the status bits, and `LAST_STEP_DIR_RESET` (D37). -/
structure FdcParams where
  commands : Vector FdcCmd 16
  headBit : Fin 4
  irqBit : Fin 4
  status : StatusBits
  lastStepDirReset : StepDir
deriving DecidableEq, Repr

/-- The parameters for which 00 R12 has a decided value, `SEEK_FALLTHROUGH` apart, and the dummy cycle (42 R229): what
it adds to `DMA_COUNT`, by the value of `DMA_DIR`. -/
structure Params where
  ramSplit : Nat
  vramSize : Nat
  map : AddressMap
  pte : PteLayout
  faultCodes : BusFaultCodes
  gsrOnFault : GsrOnFault
  dummyCycle : ByBool (BitVec 14)
  ovlReset : Bool
  fdc : FdcParams
deriving DecidableEq, Repr

/-- The configuration of one block (00 R12, 10 R32, 20 R95): installed RAM sizes, the ROM image, the format stream
length, the Seek fall-through switch, and the parameters the spec decides. It is carried in State and no step writes
it (log 10, log 11, log 13). -/
structure Config where
  baseRamSize : Nat
  expRamSize : Nat
  romSize : Nat
  rom : Memory
  formatStreamLen : Nat
  seekFallthrough : Bool
  params : Params
deriving DecidableEq, Repr

/-! ### Free values -/

/-- FREE VALUE (U1, U15; log 7, log 10). What byte `i` of a store holds while nothing has written it: one arbitrary
value per launch (10 R33, R44, R45). -/
opaque Config.powerOnByte : Store → Nat → Byte

/-- FREE VALUE (U2; log 8). The value of the `n`-th stub read (42 R243), of which a read takes its low bits. -/
opaque Config.stubValue : Nat → BitVec 32

/-- FREE VALUE (U8; log 9). What a position of the transfer buffer holds while no transfer has written it, for the
`g`-th buffer allocated (45 R333: contents unspecified). -/
opaque Config.bufferByte : Nat → Nat → Byte

/-- FREE VALUE (U9; log 9). The byte of the `n`-th data-register read beyond the capacity of the buffer. -/
opaque Config.beyondBuffer : Nat → Byte

/-- FREE VALUE (D11, U15; log 10). Installed base RAM in pages, less one: 1 to 512 pages. -/
opaque Config.basePagesLessOne : Fin 512

/-- FREE VALUE (D11, U15; log 10). Installed expansion RAM in pages: 0 to 512. -/
opaque Config.expPages : Fin 513

/-- FREE VALUE (D12, U15; log 10). The base-two logarithm of the ROM size: 0 to 22. -/
opaque Config.romLog : Fin 23

/-- FREE VALUE (D35, U14; log 10). One less than the format stream length, which is positive. -/
opaque Config.formatStreamLenLessOne : Nat

end Sys2Proof
end

