-- ==== Sys2Proof/Machine/Parameters.lean ====
section
/-! DEFINITION. Reading the parameters of 00 R12, the values the spec decides for them (`Params.decided`), and the
configuration at reset. -/

namespace Sys2Proof

/-! ### Functions held as plain data -/

def ByBool.of {α : Type} (f : Bool → α) : ByBool α := ⟨f false, f true⟩

def ByBool.get {α : Type} (t : ByBool α) (b : Bool) : α := if b then t.yes else t.no

def ByWidth.of {α : Type} (f : Width → α) : ByWidth α := ⟨f .w8, f .w16, f .w32⟩

def ByWidth.get {α : Type} (t : ByWidth α) : Width → α
  | .w8 => t.w8
  | .w16 => t.w16
  | .w32 => t.w32

def ByClass.of {α : Type} (f : FaultClass → α) : ByClass α :=
  ⟨f .pageFault, f .userAddressOutOfRange, f .kernelAccessViolation, f .writeNotEnabled⟩

def ByClass.get {α : Type} (t : ByClass α) : FaultClass → α
  | .pageFault => t.pageFault
  | .userAddressOutOfRange => t.userAddressOutOfRange
  | .kernelAccessViolation => t.kernelAccessViolation
  | .writeNotEnabled => t.writeNotEnabled

/-! ### The high byte of a recorded fault -/

/-- `W16_BIT` for a wide access, else `LANE_EVEN` or `LANE_ODD` by the parity of the address (30 R128). -/
def BusFaultCodes.widthCode (k : BusFaultCodes) (w : Width) (odd : Bool) : BitVec 16 :=
  match w with
  | .w8 => if odd then k.laneOdd else k.laneEven
  | .w16 => k.w16Bit
  | .w32 => k.w16Bit

/-- The high-byte bits of a recorded fault (60 R347). -/
def BusFaultCodes.high (k : BusFaultCodes) (c : FaultClass) (w : Width) (odd pie : Bool) : BitVec 16 :=
  k.widthCode w odd ||| k.classCode.get c ||| (if pie then k.pieBit else 0#16)

/-! ### The values the spec decides -/

/-- The tables of 42 R221 and R236, with video RAM at selector 2 (D14, D15, D16). -/
def AddressMap.decided : AddressMap where
  vramSel := 2#4
  zoneA := #v[.mapram, .gsr, .vram, .bsr0, .bsr1, .stubPhoneStatus, .dmacnt, .stubLpStatus,
    .stubRtc, .stubPhone, .mcr, .stubDialer, .clrstat, .dmaadr, .dcr, .stubLpData]
  pageE := #v[.stubHdc, .fdcwin, .stubMcr2, .stubRtcData, .gcr, .stubSerial, .stubModem, .stubKeyboard,
    .unmappedE, .unmappedE, .unmappedE, .unmappedE, .unmappedE, .unmappedE, .unmappedE, .unmappedE]

/-- The layout of 30 R125 (D4). -/
def PteLayout.decided : PteLayout where
  we := 15
  ps1 := 14
  ps0 := 13
  ppn := 0

/-- The constants of 30 R128 (D8). -/
def BusFaultCodes.decided : BusFaultCodes where
  w16Bit := 0x8000#16
  laneEven := 0x0100#16
  laneOdd := 0x0200#16
  classCode := ⟨0x0000#16, 0x1000#16, 0x2000#16, 0x3000#16⟩
  pieBit := 0x0400#16

/-- `GSR_ON_FAULT` of 30 R130 (D9): the high byte of `BSR0` above 0xFF. -/
def decidedGsrOnFault : GsrOnFault :=
  ByClass.of fun c => ByWidth.of fun w => ByBool.of fun odd => ByBool.of fun pie =>
    (BusFaultCodes.decided.high c w odd pie &&& 0xFF00#16) ||| 0x00FF#16

/-- The status bits of 30 R140 (D26). -/
def StatusBits.decided : StatusBits where
  wrProt := 0x40#8
  headLoaded := 0x20#8
  seekErr := 0x10#8
  rnf := 0x10#8
  lostData := 0x04#8
  drq := 0x02#8
  busy := 0x01#8

/-- The command codes of 30 R137 and the bits of R138 (D24, D25), and the step direction after a reset (D37). -/
def FdcParams.decided : FdcParams where
  commands := #v[.restore, .seek, .step, .stepU, .stepin, .stepinU, .stepout, .stepoutU,
    .rdsec, .rdsecM, .wrsec, .wrsecM, .rdaddr, .forceint, .rdtrk, .fmttrk]
  headBit := 1
  irqBit := 3
  status := .decided
  lastStepDirReset := .outward

/-- The decided values of 00 R12 (log 11, log 12). -/
def Params.decided : Params where
  ramSplit := 0x200000
  vramSize := 0x8000
  map := .decided
  pte := .decided
  faultCodes := .decided
  gsrOnFault := decidedGsrOnFault
  dummyCycle := ⟨1#14, 0#14⟩
  ovlReset := true
  fdc := .decided

/-- The configuration at reset: every OPEN parameter a free value within the bounds of 00 R12, an unread ROM image
(every byte free), Seek without the fall-through (D29; log 13), and the decided values. -/
def Config.installed : Config where
  baseRamSize := (Config.basePagesLessOne.val + 1) * 4096
  expRamSize := Config.expPages.val * 4096
  romSize := 2 ^ Config.romLog.val
  rom := []
  formatStreamLen := Config.formatStreamLenLessOne + 1
  seekFallthrough := false
  params := .decided

end Sys2Proof
end

