-- ==== Sys2Proof/Syntax.lean ====
section
/-! DEFINITION. The operations of the block: one constructor for each of the 64 rows of the opcode table, in the
table's order within each of its four formats (30 R146). -/

namespace Sys2Proof

/-- One operation of the block. Format STIM carries the supervisor input `sup`, the logical address and the write
data; format ADDR an access that reaches the row; format FDCREG the byte written, if any; format FDCCMD the low
nibble of the command byte. -/
inductive Instr where
  -- STIM (30 R121 to R123)
  | rdB (sup : Bool) (addr : Addr)
  | rdW (sup : Bool) (addr : Addr)
  | rdL (sup : Bool) (addr : Addr)
  | wrB (sup : Bool) (addr : Addr) (data : BitVec 8)
  | wrW (sup : Bool) (addr : Addr) (data : BitVec 16)
  | wrL (sup : Bool) (addr : Addr) (data : BitVec 32)
  | reset
  | dmaMiss
  | imgLoad
  | imgUnload
  -- ADDR (30 R124, 42 R221, R235, R236)
  | ram (acc : Access)
  | rom (acc : Access)
  | mapram (acc : Access)
  | vram (acc : Access)
  | gsr (acc : Access)
  | bsr0 (acc : Access)
  | bsr1 (acc : Access)
  | stubPhoneStatus (acc : Access)
  | dmacnt (acc : Access)
  | stubLpStatus (acc : Access)
  | stubRtc (acc : Access)
  | stubPhone (acc : Access)
  | mcr (acc : Access)
  | stubDialer (acc : Access)
  | clrstat (acc : Access)
  | dmaadr (acc : Access)
  | dcr (acc : Access)
  | stubLpData (acc : Access)
  | stubExpC (acc : Access)
  | stubExpD (acc : Access)
  | stubExpF (acc : Access)
  | stubHdc (acc : Access)
  | fdcwin (acc : Access)
  | stubMcr2 (acc : Access)
  | stubRtcData (acc : Access)
  | gcr (acc : Access)
  | stubSerial (acc : Access)
  | stubModem (acc : Access)
  | stubKeyboard (acc : Access)
  | unmappedE (acc : Access)
  -- FDCREG (30 R139)
  | fdcRdStatus
  | fdcRdTrack
  | fdcRdSector
  | fdcRdData
  | fdcWrCommand (b : Byte)
  | fdcWrTrack (b : Byte)
  | fdcWrSector (b : Byte)
  | fdcWrData (b : Byte)
  -- FDCCMD (30 R137, R138)
  | fdcRestore (lo : BitVec 4)
  | fdcSeek (lo : BitVec 4)
  | fdcStep (lo : BitVec 4)
  | fdcStepU (lo : BitVec 4)
  | fdcStepin (lo : BitVec 4)
  | fdcStepinU (lo : BitVec 4)
  | fdcStepout (lo : BitVec 4)
  | fdcStepoutU (lo : BitVec 4)
  | fdcRdsec (lo : BitVec 4)
  | fdcRdsecM (lo : BitVec 4)
  | fdcWrsec (lo : BitVec 4)
  | fdcWrsecM (lo : BitVec 4)
  | fdcRdaddr (lo : BitVec 4)
  | fdcForceint (lo : BitVec 4)
  | fdcRdtrk (lo : BitVec 4)
  | fdcFmttrk (lo : BitVec 4)
deriving DecidableEq, Repr

end Sys2Proof
end

