-- ==== Sys2Proof/WellFormed.lean ====
section
/-! DEFINITION. Which operations are well formed: a wide access has an even address (20 R90), an address row is
reached by an address that matches its row of the opcode table, and write data fits the width of the access. -/

namespace Sys2Proof

/-- The mask of an address row, as the opcode table has it. -/
def AddrRow.mask : AddrRow → Addr
  | .ram | .rom => 0xC00000#24
  | .mapram | .vram | .gsr | .bsr0 | .bsr1 | .stubPhoneStatus | .dmacnt | .stubLpStatus | .stubRtc
  | .stubPhone | .mcr | .stubDialer | .clrstat | .dmaadr | .dcr | .stubLpData => 0xCF0000#24
  | .stubExpC | .stubExpD | .stubExpF => 0xF00000#24
  | .stubHdc | .fdcwin | .stubMcr2 | .stubRtcData | .gcr | .stubSerial | .stubModem
  | .stubKeyboard => 0xFF0000#24
  | .unmappedE => 0xF80000#24

/-- The match value of an address row, as the opcode table has it. -/
def AddrRow.pattern : AddrRow → Addr
  | .ram => 0x000000#24
  | .rom => 0x800000#24
  | .mapram => 0x400000#24
  | .vram => 0x420000#24
  | .gsr => 0x410000#24
  | .bsr0 => 0x430000#24
  | .bsr1 => 0x440000#24
  | .stubPhoneStatus => 0x450000#24
  | .dmacnt => 0x460000#24
  | .stubLpStatus => 0x470000#24
  | .stubRtc => 0x480000#24
  | .stubPhone => 0x490000#24
  | .mcr => 0x4A0000#24
  | .stubDialer => 0x4B0000#24
  | .clrstat => 0x4C0000#24
  | .dmaadr => 0x4D0000#24
  | .dcr => 0x4E0000#24
  | .stubLpData => 0x4F0000#24
  | .stubExpC => 0xC00000#24
  | .stubExpD => 0xD00000#24
  | .stubExpF => 0xF00000#24
  | .stubHdc => 0xE00000#24
  | .fdcwin => 0xE10000#24
  | .stubMcr2 => 0xE20000#24
  | .stubRtcData => 0xE30000#24
  | .gcr => 0xE40000#24
  | .stubSerial => 0xE50000#24
  | .stubModem => 0xE60000#24
  | .stubKeyboard => 0xE70000#24
  | .unmappedE => 0xE80000#24

/-- The address matches the row of the opcode table (30 R146). -/
def AddrRow.hits (r : AddrRow) (a : Addr) : Bool := a &&& r.mask = r.pattern

/-- The interface contract of a transaction: 8 bits anywhere, 16 and 32 bits at an even address (20 R90). -/
def alignedAt : Width → Addr → Bool
  | .w8, _ => true
  | .w16, a => !a.getLsbD 0
  | .w32, a => !a.getLsbD 0

/-- Write data fits the width: the bits above it are 0 (30 R121). -/
def dataFits : Width → Dir → Bool
  | _, .read => true
  | .w8, .write v => v.toNat < 2 ^ 8
  | .w16, .write v => v.toNat < 2 ^ 16
  | .w32, .write _ => true

/-- An access of the row `r` is well formed: it reaches the row, keeps the contract, and its data fits. -/
def Access.wellFormed (acc : Access) (r : AddrRow) : Bool :=
  r.hits acc.addr && alignedAt acc.width acc.addr && dataFits acc.width acc.dir

/-- The operation keeps the interface contract and is one its format can write. -/
def wellFormed : Instr → Bool
  | .rdB _ a => alignedAt .w8 a
  | .rdW _ a => alignedAt .w16 a
  | .rdL _ a => alignedAt .w32 a
  | .wrB _ a _ => alignedAt .w8 a
  | .wrW _ a _ => alignedAt .w16 a
  | .wrL _ a _ => alignedAt .w32 a
  | .reset | .dmaMiss | .imgLoad | .imgUnload => true
  | .ram acc => acc.wellFormed .ram
  | .rom acc => acc.wellFormed .rom
  | .mapram acc => acc.wellFormed .mapram
  | .vram acc => acc.wellFormed .vram
  | .gsr acc => acc.wellFormed .gsr
  | .bsr0 acc => acc.wellFormed .bsr0
  | .bsr1 acc => acc.wellFormed .bsr1
  | .stubPhoneStatus acc => acc.wellFormed .stubPhoneStatus
  | .dmacnt acc => acc.wellFormed .dmacnt
  | .stubLpStatus acc => acc.wellFormed .stubLpStatus
  | .stubRtc acc => acc.wellFormed .stubRtc
  | .stubPhone acc => acc.wellFormed .stubPhone
  | .mcr acc => acc.wellFormed .mcr
  | .stubDialer acc => acc.wellFormed .stubDialer
  | .clrstat acc => acc.wellFormed .clrstat
  | .dmaadr acc => acc.wellFormed .dmaadr
  | .dcr acc => acc.wellFormed .dcr
  | .stubLpData acc => acc.wellFormed .stubLpData
  | .stubExpC acc => acc.wellFormed .stubExpC
  | .stubExpD acc => acc.wellFormed .stubExpD
  | .stubExpF acc => acc.wellFormed .stubExpF
  | .stubHdc acc => acc.wellFormed .stubHdc
  | .fdcwin acc => acc.wellFormed .fdcwin
  | .stubMcr2 acc => acc.wellFormed .stubMcr2
  | .stubRtcData acc => acc.wellFormed .stubRtcData
  | .gcr acc => acc.wellFormed .gcr
  | .stubSerial acc => acc.wellFormed .stubSerial
  | .stubModem acc => acc.wellFormed .stubModem
  | .stubKeyboard acc => acc.wellFormed .stubKeyboard
  | .unmappedE acc => acc.wellFormed .unmappedE
  | .fdcRdStatus | .fdcRdTrack | .fdcRdSector | .fdcRdData => true
  | .fdcWrCommand _ | .fdcWrTrack _ | .fdcWrSector _ | .fdcWrData _ => true
  | .fdcRestore _ | .fdcSeek _ | .fdcStep _ | .fdcStepU _ | .fdcStepin _ | .fdcStepinU _
  | .fdcStepout _ | .fdcStepoutU _ | .fdcRdsec _ | .fdcRdsecM _ | .fdcWrsec _ | .fdcWrsecM _
  | .fdcRdaddr _ | .fdcForceint _ | .fdcRdtrk _ | .fdcFmttrk _ => true

end Sys2Proof
end

