-- ==== Sys2Proof/Decode.lean ====
section
/-! DEFINITION. The decoder of the four formats (30 R120 to R124, R137 to R139, R146), total on every port and
64-bit word, rejecting by name; then the encoder, written from the same tables. The word of a stimulus is 30 R121.
The words of the inner ports are the opcode table's address, register value or command byte in the low bits, with
the model's own operand bits above them (log 5); those ports take the opcode table's numbers, which are the decided
ones, while a bus transaction and a write of the command register use the maps of the block's configuration (log 11). -/

namespace Sys2Proof

/-- Why a word is refused (30 R121, R123; U5). -/
inductive DecodeError where
  /-- `kind` = 3. -/
  | kindReserved
  /-- `siz` = 3. -/
  | sizReserved
  /-- A bit that must be 0 is 1. -/
  | reservedBitSet
  /-- A signal id of 4 to 255. -/
  | signalIdReserved
deriving DecidableEq, Repr

/-- What the decoder answers. -/
inductive Decoded where
  | ok (i : Instr)
  | bad (e : DecodeError)
deriving DecidableEq, Repr

/-! ### Address rows -/

/-- Zone A, by `selA` (42 R220, R221): Map RAM first, video RAM at its selector, else the row of the table. -/
def decodeZoneA (m : AddressMap) (selA : BitVec 4) : AddrRow :=
  if selA = 0#4 then .mapram
  else if selA = m.vramSel then .vram
  else m.zoneA[selA.toNat]'selA.isLt

/-- Zone B, by the low two bits of `selB` = a[23:20], which is 0xC to 0xF there, and `subB` (42 R235, R236, R244). -/
def decodeZoneB (m : AddressMap) (selBLow : BitVec 2) (subB : BitVec 4) : AddrRow :=
  match selBLow.toNat with
  | 0 => .stubExpC
  | 1 => .stubExpD
  | 2 => m.pageE[subB.toNat]'subB.isLt
  | _ => .stubExpF

/-- The row a post-overlay address reaches (41 R195, 20 R81): every address reaches exactly one. -/
def decodeRow (m : AddressMap) (a : Addr) : AddrRow :=
  match (a.extractLsb' 22 2).toNat with
  | 0 => .ram
  | 1 => decodeZoneA m (a.extractLsb' 16 4)
  | 2 => .rom
  | _ => decodeZoneB m (a.extractLsb' 20 2) (a.extractLsb' 16 4)

/-- The operation of an access that reaches the row. -/
def AddrRow.instr : AddrRow → Access → Instr
  | .ram, acc => .ram acc
  | .rom, acc => .rom acc
  | .mapram, acc => .mapram acc
  | .vram, acc => .vram acc
  | .gsr, acc => .gsr acc
  | .bsr0, acc => .bsr0 acc
  | .bsr1, acc => .bsr1 acc
  | .stubPhoneStatus, acc => .stubPhoneStatus acc
  | .dmacnt, acc => .dmacnt acc
  | .stubLpStatus, acc => .stubLpStatus acc
  | .stubRtc, acc => .stubRtc acc
  | .stubPhone, acc => .stubPhone acc
  | .mcr, acc => .mcr acc
  | .stubDialer, acc => .stubDialer acc
  | .clrstat, acc => .clrstat acc
  | .dmaadr, acc => .dmaadr acc
  | .dcr, acc => .dcr acc
  | .stubLpData, acc => .stubLpData acc
  | .stubExpC, acc => .stubExpC acc
  | .stubExpD, acc => .stubExpD acc
  | .stubExpF, acc => .stubExpF acc
  | .stubHdc, acc => .stubHdc acc
  | .fdcwin, acc => .fdcwin acc
  | .stubMcr2, acc => .stubMcr2 acc
  | .stubRtcData, acc => .stubRtcData acc
  | .gcr, acc => .gcr acc
  | .stubSerial, acc => .stubSerial acc
  | .stubModem, acc => .stubModem acc
  | .stubKeyboard, acc => .stubKeyboard acc
  | .unmappedE, acc => .unmappedE acc

/-! ### FDC registers and commands -/

/-- The command of a command byte, by its top nibble (30 R137). -/
def decodeCmd (p : FdcParams) (b : Byte) : FdcCmd :=
  p.commands[(b.extractLsb' 4 4).toNat]'(b.extractLsb' 4 4).isLt

/-- The operation of a command with the low nibble `lo` of its byte (30 R138). -/
def FdcCmd.instr : FdcCmd → BitVec 4 → Instr
  | .restore, lo => .fdcRestore lo
  | .seek, lo => .fdcSeek lo
  | .step, lo => .fdcStep lo
  | .stepU, lo => .fdcStepU lo
  | .stepin, lo => .fdcStepin lo
  | .stepinU, lo => .fdcStepinU lo
  | .stepout, lo => .fdcStepout lo
  | .stepoutU, lo => .fdcStepoutU lo
  | .rdsec, lo => .fdcRdsec lo
  | .rdsecM, lo => .fdcRdsecM lo
  | .wrsec, lo => .fdcWrsec lo
  | .wrsecM, lo => .fdcWrsecM lo
  | .rdaddr, lo => .fdcRdaddr lo
  | .forceint, lo => .fdcForceint lo
  | .rdtrk, lo => .fdcRdtrk lo
  | .fmttrk, lo => .fdcFmttrk lo

/-- The FDC register access of the 3-bit value rw ++ `freg` (30 R139, R146), with the byte a write carries. -/
def decodeFdcReg (v : BitVec 3) (b : Byte) : Instr :=
  match v.toNat with
  | 0 => .fdcRdStatus
  | 1 => .fdcRdTrack
  | 2 => .fdcRdSector
  | 3 => .fdcRdData
  | 4 => .fdcWrCommand b
  | 5 => .fdcWrTrack b
  | 6 => .fdcWrSector b
  | _ => .fdcWrData b

/-! ### Words -/

/-- The width a `siz` field names (30 R121); 3 is reserved. -/
def decodeSiz (siz : BitVec 2) : Option Width :=
  match siz.toNat with
  | 0 => some .w8
  | 1 => some .w16
  | 2 => some .w32
  | _ => none

/-- A signal word (30 R121, R123): only the id in bits 39:32 may be other than 0 below `kind`. -/
def decodeSignal (word : BitVec 64) : Decoded :=
  if word.extractLsb' 40 22 = 0#22 ∧ word.extractLsb' 0 32 = 0#32 then
    match (word.extractLsb' 32 8).toNat with
    | 0 => .ok .reset
    | 1 => .ok .dmaMiss
    | 2 => .ok .imgLoad
    | 3 => .ok .imgUnload
    | _ => .bad .signalIdReserved
  else .bad .reservedBitSet

/-- A bus read word; its data field takes no part (log 6). -/
def decodeRead (word : BitVec 64) (sup : Bool) (addr : Addr) : Decoded :=
  match decodeSiz (word.extractLsb' 60 2) with
  | some .w8 => .ok (.rdB sup addr)
  | some .w16 => .ok (.rdW sup addr)
  | some .w32 => .ok (.rdL sup addr)
  | none => .bad .sizReserved

/-- A bus write word; data bits above the width take no part (20 R87; log 6). -/
def decodeWrite (word : BitVec 64) (sup : Bool) (addr : Addr) : Decoded :=
  match decodeSiz (word.extractLsb' 60 2) with
  | some .w8 => .ok (.wrB sup addr (word.extractLsb' 0 8))
  | some .w16 => .ok (.wrW sup addr (word.extractLsb' 0 16))
  | some .w32 => .ok (.wrL sup addr (word.extractLsb' 0 32))
  | none => .bad .sizReserved

/-- The stimulus word (30 R121 to R123). -/
def decodeStim (word : BitVec 64) : Decoded :=
  match (word.extractLsb' 62 2).toNat with
  | 0 =>
    if word.extractLsb' 56 3 = 0#3 then
      decodeRead word (word.getLsbD 59) (word.extractLsb' 32 24)
    else .bad .reservedBitSet
  | 1 =>
    if word.extractLsb' 56 3 = 0#3 then
      decodeWrite word (word.getLsbD 59) (word.extractLsb' 32 24)
    else .bad .reservedBitSet
  | 2 => decodeSignal word
  | _ => .bad .kindReserved

/-- The data of the write operand of an address word: the low bits of the data field, as many as the width. -/
def writeOperand : Width → BitVec 32 → BitVec 32
  | .w8, v => v &&& 0xFF#32
  | .w16, v => v &&& 0xFFFF#32
  | .w32, v => v

/-- An address word: bits 23:0 the post-overlay address, which chooses the row; bits 55:24 write data, bit 56 write,
bits 58:57 `siz`, bits 63:59 zero (log 5). A table word of 24 bits is an 8-bit read. -/
def decodeAccess (word : BitVec 64) : Decoded :=
  if word.extractLsb' 59 5 = 0#5 then
    match decodeSiz (word.extractLsb' 57 2) with
    | some width =>
      let dir := if word.getLsbD 56 then Dir.write (writeOperand width (word.extractLsb' 24 32)) else Dir.read
      let a := word.extractLsb' 0 24
      .ok ((decodeRow .decided a).instr ⟨dir, width, a⟩)
    | none => .bad .sizReserved
  else .bad .reservedBitSet

/-- A register word: bits 2:0 rw ++ `freg`, bits 15:8 the byte written, all others zero (log 5). -/
def decodeRegWord (word : BitVec 64) : Decoded :=
  if word.extractLsb' 3 5 = 0#5 ∧ word.extractLsb' 16 48 = 0#48 then
    .ok (decodeFdcReg (word.extractLsb' 0 3) (word.extractLsb' 8 8))
  else .bad .reservedBitSet

/-- A command word: bits 7:0 the command byte (30 R137, R138), all others zero. -/
def decodeCmdWord (word : BitVec 64) : Decoded :=
  if word.extractLsb' 8 56 = 0#56 then
    .ok ((decodeCmd .decided (word.extractLsb' 0 8)).instr (word.extractLsb' 0 4))
  else .bad .reservedBitSet

/-- The decoder: the operation a word presented at a port stands for, or why there is none. -/
def decode : Port → BitVec 64 → Decoded
  | .stim, word => decodeStim word
  | .addr, word => decodeAccess word
  | .fdcReg, word => decodeRegWord word
  | .fdcCmd, word => decodeCmdWord word

/-- The port an opcode-table word of `nbits` bits belongs to: 24-bit words are addresses, longer ones stimuli; a word of
one byte is a register value when it is below 8, else a command byte (log 4). -/
def tablePort (nbits w : Nat) : Port :=
  if nbits ≤ 8 then (if w < 8 then .fdcReg else .fdcCmd)
  else if nbits ≤ 32 then .addr
  else .stim

/-- What the decoder reads from an opcode-table word; every bit above `nbits` is 0. -/
def decodeTableWord (nbits w : Nat) : Option Instr :=
  match decode (tablePort nbits (w % 2 ^ nbits)) (BitVec.ofNat 64 (w % 2 ^ nbits)) with
  | .ok i => some i
  | .bad _ => none

/-! ### The encoder -/

/-- A stimulus word from its fields (30 R121). -/
def stimWord (kind siz : BitVec 2) (sup : Bool) (addr : Addr) (data : BitVec 32) : BitVec 64 :=
  kind ++ siz ++ BitVec.ofBool sup ++ 0#3 ++ addr ++ data

/-- A signal word from its id (30 R123). -/
def signalWord (id : BitVec 8) : BitVec 64 :=
  2#2 ++ 0#22 ++ id ++ 0#32

/-- The `siz` field of a width (30 R121). -/
def encodeSiz : Width → BitVec 2
  | .w8 => 0#2
  | .w16 => 1#2
  | .w32 => 2#2

/-- An address word (log 5). -/
def accessWord (acc : Access) : BitVec 64 :=
  match acc.dir with
  | .read => 0#5 ++ encodeSiz acc.width ++ 0#1 ++ 0#32 ++ acc.addr
  | .write v => 0#5 ++ encodeSiz acc.width ++ 1#1 ++ v ++ acc.addr

/-- A register word (log 5). -/
def regWord (v : BitVec 3) (b : Byte) : BitVec 64 :=
  0#48 ++ b ++ 0#5 ++ v

/-- A command word: the command code above the low nibble (30 R137). -/
def cmdWord (code lo : BitVec 4) : BitVec 64 :=
  0#56 ++ code ++ lo

/-- The port and the word of an operation. -/
def encode : Instr → Port × BitVec 64
  | .rdB s a => (.stim, stimWord 0#2 0#2 s a 0#32)
  | .rdW s a => (.stim, stimWord 0#2 1#2 s a 0#32)
  | .rdL s a => (.stim, stimWord 0#2 2#2 s a 0#32)
  | .wrB s a d => (.stim, stimWord 1#2 0#2 s a (0#24 ++ d))
  | .wrW s a d => (.stim, stimWord 1#2 1#2 s a (0#16 ++ d))
  | .wrL s a d => (.stim, stimWord 1#2 2#2 s a d)
  | .reset => (.stim, signalWord 0#8)
  | .dmaMiss => (.stim, signalWord 1#8)
  | .imgLoad => (.stim, signalWord 2#8)
  | .imgUnload => (.stim, signalWord 3#8)
  | .ram acc => (.addr, accessWord acc)
  | .rom acc => (.addr, accessWord acc)
  | .mapram acc => (.addr, accessWord acc)
  | .vram acc => (.addr, accessWord acc)
  | .gsr acc => (.addr, accessWord acc)
  | .bsr0 acc => (.addr, accessWord acc)
  | .bsr1 acc => (.addr, accessWord acc)
  | .stubPhoneStatus acc => (.addr, accessWord acc)
  | .dmacnt acc => (.addr, accessWord acc)
  | .stubLpStatus acc => (.addr, accessWord acc)
  | .stubRtc acc => (.addr, accessWord acc)
  | .stubPhone acc => (.addr, accessWord acc)
  | .mcr acc => (.addr, accessWord acc)
  | .stubDialer acc => (.addr, accessWord acc)
  | .clrstat acc => (.addr, accessWord acc)
  | .dmaadr acc => (.addr, accessWord acc)
  | .dcr acc => (.addr, accessWord acc)
  | .stubLpData acc => (.addr, accessWord acc)
  | .stubExpC acc => (.addr, accessWord acc)
  | .stubExpD acc => (.addr, accessWord acc)
  | .stubExpF acc => (.addr, accessWord acc)
  | .stubHdc acc => (.addr, accessWord acc)
  | .fdcwin acc => (.addr, accessWord acc)
  | .stubMcr2 acc => (.addr, accessWord acc)
  | .stubRtcData acc => (.addr, accessWord acc)
  | .gcr acc => (.addr, accessWord acc)
  | .stubSerial acc => (.addr, accessWord acc)
  | .stubModem acc => (.addr, accessWord acc)
  | .stubKeyboard acc => (.addr, accessWord acc)
  | .unmappedE acc => (.addr, accessWord acc)
  | .fdcRdStatus => (.fdcReg, regWord 0#3 0#8)
  | .fdcRdTrack => (.fdcReg, regWord 1#3 0#8)
  | .fdcRdSector => (.fdcReg, regWord 2#3 0#8)
  | .fdcRdData => (.fdcReg, regWord 3#3 0#8)
  | .fdcWrCommand b => (.fdcReg, regWord 4#3 b)
  | .fdcWrTrack b => (.fdcReg, regWord 5#3 b)
  | .fdcWrSector b => (.fdcReg, regWord 6#3 b)
  | .fdcWrData b => (.fdcReg, regWord 7#3 b)
  | .fdcRestore lo => (.fdcCmd, cmdWord 0#4 lo)
  | .fdcSeek lo => (.fdcCmd, cmdWord 1#4 lo)
  | .fdcStep lo => (.fdcCmd, cmdWord 2#4 lo)
  | .fdcStepU lo => (.fdcCmd, cmdWord 3#4 lo)
  | .fdcStepin lo => (.fdcCmd, cmdWord 4#4 lo)
  | .fdcStepinU lo => (.fdcCmd, cmdWord 5#4 lo)
  | .fdcStepout lo => (.fdcCmd, cmdWord 6#4 lo)
  | .fdcStepoutU lo => (.fdcCmd, cmdWord 7#4 lo)
  | .fdcRdsec lo => (.fdcCmd, cmdWord 8#4 lo)
  | .fdcRdsecM lo => (.fdcCmd, cmdWord 9#4 lo)
  | .fdcWrsec lo => (.fdcCmd, cmdWord 10#4 lo)
  | .fdcWrsecM lo => (.fdcCmd, cmdWord 11#4 lo)
  | .fdcRdaddr lo => (.fdcCmd, cmdWord 12#4 lo)
  | .fdcForceint lo => (.fdcCmd, cmdWord 13#4 lo)
  | .fdcRdtrk lo => (.fdcCmd, cmdWord 14#4 lo)
  | .fdcFmttrk lo => (.fdcCmd, cmdWord 15#4 lo)

end Sys2Proof
end

