-- ==== Sys2Proof/Machine/State.lean ====
section
/-! DEFINITION. The state of the block (10 R30 to R58), its outputs (60 R370), the stimuli still to come (30 R121),
the reasons a step can stop, and the state after the first power-on. -/

namespace Sys2Proof.Machine

/-- The disc geometry (10 R46): sector size in bytes, sectors per track, heads, tracks. -/
structure Geometry where
  secsz : Nat
  spt : Nat
  heads : Nat
  tracks : Nat
deriving DecidableEq, Repr

/-- What travels beside the word of an image load (30 R123, 45 R333). -/
structure LoadArgs where
  secsz : Nat
  spt : Nat
  heads : Nat
  writable : Bool
  bytes : List Byte
deriving DecidableEq, Repr

/-- One call across a boundary of the block: a word, the port it is presented at, and what travels beside it. -/
structure Stimulus where
  port : Port
  word : BitVec 64
  args : LoadArgs
deriving DecidableEq, Repr

/-- What an image load returns to the host (45 R333, R334). `outOfMemory` belongs to the source's taxonomy; the
model has no allocation and never returns it (D38; log 20). -/
inductive LoadResult where
  | ok | badGeometry | outOfMemory
deriving DecidableEq, Repr

/-- The outputs of one transition (60 R370): the value of a read, the bus-error and reschedule pulses, and what an
image load returns. The levels `fdc_irq` and DRQ are read from the state. -/
structure Outputs where
  value : Option ReadValue
  buserr : Bool
  resched : Bool
  load : Option LoadResult
deriving DecidableEq, Repr

/-- The state of the floppy controller (10 R46 to R53). `bufGen` and `draws` are the model's own counters of free
values (log 9). -/
structure Fdc where
  image : Option (List Byte)
  writable : Bool
  geom : Geometry
  track : Nat
  head : BitVec 1
  trackReg : Byte
  sectorReg : Byte
  dataReg : Byte
  status : Byte
  irq : Bool
  buf : Memory
  bufCap : Nat
  cur : Nat
  len : Nat
  wpos : Option Nat
  drqCapable : Bool
  formatting : Bool
  lastStepDir : StepDir
  bufGen : Nat
  draws : Nat
deriving DecidableEq, Repr

/-- The state of the block, and the model's own fields `cfg`, `stubDraws`, `args`, `inputs` and `out`
(INVENTORY.md, State). -/
structure State where
  cfg : Config
  mapRam : Memory
  bram : Memory
  xram : Memory
  vram : Memory
  gsr : BitVec 16
  bsr0 : BitVec 16
  bsr1 : BitVec 16
  gcr : BitVec 8
  led : BitVec 4
  dmaDir : Bool
  dmaCount : BitVec 14
  dmaEn : Bool
  dmaIdmarw : Bool
  dmaAddr : BitVec 22
  dcr : BitVec 8
  fdc : Fdc
  stubDraws : Nat
  args : LoadArgs
  inputs : List Stimulus
  out : Outputs
deriving DecidableEq, Repr

/-- The block has no fault that stops it: a bus error is a next state with the fault registers filled and the
bus-error output set (60 R347, R352; log 15), and FDC conditions are status bits (60 R346). No constructor. -/
inductive Fault where
deriving DecidableEq, Repr

/-- Why a step is refused. Every refusal is safe: it ends a run and gives no state (log 1, log 16). -/
inductive Refusal where
  /-- Raised by `exec` for an operation without a meaning yet. Safe. -/
  | notModelled (mnemonic : String)
  /-- Raised by an access of 16 or 32 bits at an odd address, outside the interface contract (20 R90). Safe. -/
  | misaligned
  /-- Raised by `step` for a word the decoder refuses (30 R121, R123; U5). Safe. -/
  | undecodable (e : DecodeError)
  /-- Raised by `step` when no stimulus is left: the block acts only when it is called (00 R8). Safe. -/
  | noStimulus
deriving DecidableEq, Repr

/-- What an operation answers. -/
abbrev Result := Host.Outcome State Fault Refusal

/-- No output. -/
def Outputs.none : Outputs where
  value := Option.none
  buserr := false
  resched := false
  load := Option.none

/-- Nothing travels beside the word. -/
def LoadArgs.none : LoadArgs where
  secsz := 0
  spt := 0
  heads := 0
  writable := false
  bytes := []

/-- The floppy controller after the first power-on: no image, position and registers zero, the step direction the
parameter's (10 R58, D37). -/
def Fdc.reset (p : FdcParams) : Fdc where
  image := Option.none
  writable := false
  geom := ⟨0, 0, 0, 0⟩
  track := 0
  head := 0#1
  trackReg := 0x00#8
  sectorReg := 0x00#8
  dataReg := 0x00#8
  status := 0x00#8
  irq := false
  buf := []
  bufCap := 0
  cur := 0
  len := 0
  wpos := Option.none
  drqCapable := false
  formatting := false
  lastStepDir := p.lastStepDirReset
  bufGen := 0
  draws := 0

/-- The eight toggles of the general control register after a reset: `OVL`, toggle 3, as the parameter `OVL_RESET`
says, the others 0 (70 R390, D7, D23). -/
def gcrAtReset (p : Params) : BitVec 8 := if p.ovlReset then 0x08#8 else 0x00#8

/-- The block after the first power-on (10 R58, 70 R390): nothing written in any store, fault registers all-ones,
the overlay as its parameter says, which is on, all else zero; no stimulus waiting. -/
def State.reset : State where
  cfg := Config.installed
  mapRam := []
  bram := []
  xram := []
  vram := []
  gsr := 0xFFFF#16
  bsr0 := 0xFFFF#16
  bsr1 := 0xFFFF#16
  gcr := gcrAtReset Config.installed.params
  led := 0#4
  dmaDir := false
  dmaCount := 0#14
  dmaEn := false
  dmaIdmarw := false
  dmaAddr := 0#22
  dcr := 0x00#8
  fdc := Fdc.reset Config.installed.params.fdc
  stubDraws := 0
  args := LoadArgs.none
  inputs := []
  out := Outputs.none

end Sys2Proof.Machine
end

