-- ==== Sys2Proof/Machine/Operands.lean ====
section
/-! DEFINITION. The operand forms of the block: fields of an address (30 R124, R127), fields of a page-table entry
(30 R125), the bytes of an access in big-endian order (20 R83, R86, R87), the lanes of a 16-bit register (42 R242),
and the sizes the source fixes. -/

namespace Sys2Proof.Machine

/-! ### Sizes (00 R11) -/

/-- The first address that is not paged RAM (00 R11). -/
def ramBoundary : Nat := 0x400000

/-- The size of the Map RAM window (00 R11). -/
def mapRamSize : Nat := 2048

/-! ### Fields of an address (30 R124) -/

/-- The interface contract: a 16- or 32-bit access has an even address (20 R90). -/
def keepsContract (w : Width) (a : Addr) : Bool := alignedAt w a

/-- The page index a[21:12]. -/
def pageOf (a : Addr) : BitVec 10 := a.extractLsb' 12 10

/-- The offset a[11:0] in the page. -/
def offsetOf (a : Addr) : BitVec 12 := a.extractLsb' 0 12

/-- The kernel-window test a[22:19] = 0 (40 R178). -/
def inKernelWindow (a : Addr) : Bool := a.extractLsb' 19 4 = 0#4

/-- The address lies in the RAM region, below the boundary. -/
def belowBoundary (a : Addr) : Bool := a.toNat < ramBoundary

/-- The overlay (41 R192): while the flag is set, an address below the boundary is forced into the ROM window. -/
def overlay (ovl : Bool) (a : Addr) : Addr :=
  if ovl && belowBoundary a then a ||| 0x800000#24 else a

/-- The FDC sub-address a[2:1] (30 R139). -/
def fregOf (a : Addr) : BitVec 2 := a.extractLsb' 1 2

/-- The toggle select a[14:12] of the general control register (30 R136). -/
def gselOf (a : Addr) : BitVec 3 := a.extractLsb' 12 3

/-! ### Fields of a page-table entry (30 R125) -/

/-- `WE`. -/
def pteWritable (l : PteLayout) (e : BitVec 16) : Bool := e.getLsbD l.we

/-- The page is present: `PS1:PS0` is not 00 (30 R126). -/
def ptePresent (l : PteLayout) (e : BitVec 16) : Bool := e.getLsbD l.ps1 || e.getLsbD l.ps0

/-- `PPN`, ten bits. -/
def ptePpn (l : PteLayout) (e : BitVec 16) : BitVec 10 := e.extractLsb' l.ppn 10

/-- The physical address an entry gives: `PPN` ++ a[11:0] (40 R171). -/
def physical (l : PteLayout) (e : BitVec 16) (a : Addr) : BitVec 22 := ptePpn l e ++ offsetOf a

/-! ### Values of a width -/

/-- `ones(w)`, the all-ones value of the width (00 R14). -/
def onesOf : Width → ReadValue
  | .w8 => .v8 0xFF#8
  | .w16 => .v16 0xFFFF#16
  | .w32 => .v32 0xFFFFFFFF#32

/-- A byte zero-extended to the width (42 R241). -/
def widenByte (v : Byte) : Width → ReadValue
  | .w8 => .v8 v
  | .w16 => .v16 (0#8 ++ v)
  | .w32 => .v32 (0#24 ++ v)

/-- The low bits of a 32-bit value, as many as the width. -/
def truncateTo (v : BitVec 32) : Width → ReadValue
  | .w8 => .v8 (v.extractLsb' 0 8)
  | .w16 => .v16 (v.extractLsb' 0 16)
  | .w32 => .v32 v

/-- The bytes of write data from the lowest address up, most significant first; bits of `v` above the width take no
part (20 R87). -/
def bytesOf (v : BitVec 32) : Width → List Byte
  | .w8 => [v.extractLsb' 0 8]
  | .w16 => [v.extractLsb' 8 8, v.extractLsb' 0 8]
  | .w32 => [v.extractLsb' 24 8, v.extractLsb' 16 8, v.extractLsb' 8 8, v.extractLsb' 0 8]

/-- The value assembled from the bytes at offsets 0 up, the first most significant (20 R86). -/
def assemble (byte : Nat → Byte) : Width → ReadValue
  | .w8 => .v8 (byte 0)
  | .w16 => .v16 (byte 0 ++ byte 1)
  | .w32 => .v32 (byte 0 ++ byte 1 ++ byte 2 ++ byte 3)

/-! ### Lanes of a 16-bit register (42 R242) -/

/-- What a read of the width at the address sees of a 16-bit register. -/
def laneRead (r : BitVec 16) (w : Width) (a : Addr) : ReadValue :=
  match w with
  | .w8 => if a.getLsbD 0 then .v8 (r.extractLsb' 0 8) else .v8 (r.extractLsb' 8 8)
  | .w16 => .v16 r
  | .w32 => .v32 (r ++ r)

/-- A write as a 16-bit register sees it: the 16-bit value, and which of its lanes are valid. -/
structure LaneWrite where
  d : BitVec 16
  high : Bool
  low : Bool
deriving DecidableEq, Repr

/-- The lanes a write of the width at the address drives; the high half of a 32-bit value takes no part. -/
def laneWrite (v : BitVec 32) (w : Width) (a : Addr) : LaneWrite :=
  match w with
  | .w8 =>
    if a.getLsbD 0 then ⟨0#8 ++ v.extractLsb' 0 8, false, true⟩
    else ⟨v.extractLsb' 0 8 ++ 0#8, true, false⟩
  | .w16 => ⟨v.extractLsb' 0 16, true, true⟩
  | .w32 => ⟨v.extractLsb' 0 16, true, true⟩

end Sys2Proof.Machine
end

