-- ==== Sys2Proof/Machine/Flags.lean ====
section
/-! DEFINITION. Every flag computation: the access-history bits (40 R172), the fault registers' contents (60 R347,
30 R128 to R130), and the bits of the FDC status byte (30 R140, 43 R264). -/

namespace Sys2Proof.Machine

/-! ### Access history (40 R172) -/

/-- The bits an access sets in a present entry: `PS1`, and for a write also `PS0`. -/
def historyBits (l : PteLayout) (isWrite : Bool) : BitVec 16 :=
  (1#16 <<< l.ps1.val) ||| (if isWrite then 1#16 <<< l.ps0.val else 0#16)

/-- An entry after an access: a present one gains its history bits, an absent one is left alone. -/
def withHistory (l : PteLayout) (e : BitVec 16) (isWrite : Bool) : BitVec 16 :=
  if ptePresent l e then e ||| historyBits l isWrite else e

/-! ### Fault registers -/

/-- `BSR0` after a fault: the high-byte bits above address bits 23:16 (30 R128). -/
def bsr0OnFault (k : BusFaultCodes) (c : FaultClass) (w : Width) (a : Addr) (pie : Bool) : BitVec 16 :=
  k.high c w (a.getLsbD 0) pie ||| (0#8 ++ a.extractLsb' 16 8)

/-- `BSR1` after a fault: address bits 15:0 (30 R129). -/
def bsr1OnFault (a : Addr) : BitVec 16 := a.extractLsb' 0 16

/-- `GSR` after a fault: the configuration function `GSR_ON_FAULT` of class, width, parity and `PIE` (30 R130). -/
def gsrOnFault (g : GsrOnFault) (c : FaultClass) (w : Width) (a : Addr) (pie : Bool) : BitVec 16 :=
  (((g.get c).get w).get (a.getLsbD 0)).get pie

/-- The idle value of the three fault registers (30 R131). -/
def idleStatus : BitVec 16 := 0xFFFF#16

/-! ### The FDC status byte (30 R140): the two bits the source fixes, and those of the parameter -/

def stNotReady : Byte := 0x80#8
def stTrack0 : Byte := 0x04#8

/-- The bit when the condition holds, else no bit. -/
def flagIf (c : Bool) (bit : Byte) : Byte := if c then bit else 0#8

/-- The status a Class 1 command leaves (44 R302). -/
def class1Status (b : StatusBits) (track : Nat) (seekerr : Bool) : Byte :=
  b.headLoaded ||| flagIf (track = 0) stTrack0 ||| flagIf seekerr b.seekErr

/-- The status Force Interrupt leaves (44 R313, D36). -/
def forceIntStatus (b : StatusBits) (track : Nat) (writable : Bool) : Byte :=
  b.headLoaded ||| flagIf (!writable) b.wrProt ||| flagIf (track = 0) stTrack0

/-- The value a status read composes from the stored byte and the transfer (43 R264): DRQ and busy together after a
DRQ-capable command, busy alone after any other. -/
def statusValue (b : StatusBits) (stored : Byte) (drqCapable live : Bool) : Byte :=
  let bits := if drqCapable then b.drq ||| b.busy else b.busy
  (stored &&& ~~~bits) ||| flagIf live bits

end Sys2Proof.Machine
end

