-- ==== Sys2Proof/Machine/Ops.lean ====
section
/-! DEFINITION. The named operations over the stores and the MMU: reading and writing one byte of a store, the byte
functions of the four windows (20 R86 to R89), translation with its history update (40 R171 to R174), the permission
check (40 R175), taking a bus error and clearing status (60 R347, 42 R227), the outputs of a transition (60 R370),
and taking the next stimulus. -/

namespace Sys2Proof.Machine

/-! ### Memories in canonical form -/

/-- The byte at an address, if something has written it. -/
def memGet : Memory → Nat → Option Byte
  | [], _ => none
  | (k, v) :: m, a => if a = k then some v else memGet m a

/-- Writes the byte at an address, keeping the addresses strictly rising. -/
def memSet : Memory → Nat → Byte → Memory
  | [], a, v => [(a, v)]
  | (k, u) :: m, a, v =>
    if a < k then (a, v) :: (k, u) :: m
    else if a = k then (a, v) :: m
    else (k, u) :: memSet m a v

/-- Every address of the memory lies above `lo`, and the addresses rise strictly. -/
def risesFrom : Nat → Memory → Bool
  | _, [] => true
  | lo, (k, _) :: m => lo ≤ k && risesFrom (k + 1) m

/-- The canonical form: addresses strictly rising. A listed cell is a written one, an unlisted address has no value
of its own, so no listed cell can equal it (log 7). -/
def Memory.wf (m : Memory) : Bool := risesFrom 0 m

/-! ### Bytes of the stores -/

/-- The memory behind a store. -/
def State.store (s : State) : Store → Memory
  | .base => s.bram
  | .exp => s.xram
  | .rom => s.cfg.rom
  | .vram => s.vram
  | .map => s.mapRam

/-- The state with another memory behind a store; ROM is read-only (41 R197). -/
def State.setStore (s : State) (st : Store) (m : Memory) : State :=
  match st with
  | .base => { s with bram := m }
  | .exp => { s with xram := m }
  | .rom => s
  | .vram => { s with vram := m }
  | .map => { s with mapRam := m }

/-- What an unlisted address of a store reads as: the free value of that byte at power-on (U1; log 7, log 10). -/
def unwrittenByte (st : Store) (i : Nat) : Byte := Config.powerOnByte st i

/-- Byte `i` of a store. -/
def State.byteAt (s : State) (st : Store) (i : Nat) : Byte :=
  (memGet (s.store st) i).getD (unwrittenByte st i)

/-- The state after a byte is written to a store. -/
def State.putByte (s : State) (st : Store) (i : Nat) (v : Byte) : State :=
  s.setStore st (memSet (s.store st) i v)

/-! ### The byte functions of the windows -/

/-- `RamByte(p)`: the cell of a physical address, or absent (20 R88, D11). -/
def ramCell (cfg : Config) (p : Nat) : Option (Store × Nat) :=
  if p < cfg.params.ramSplit then
    if p < cfg.baseRamSize then some (.base, p) else none
  else if p < ramBoundary then
    if p - cfg.params.ramSplit < cfg.expRamSize then some (.exp, p - cfg.params.ramSplit) else none
  else none

/-- Byte `k` of an access in the ROM window (20 R89, D12). -/
def romCell (cfg : Config) (a : Addr) (k : Nat) : Option (Store × Nat) :=
  some (.rom, (a.toNat + k) &&& (cfg.romSize - 1))

/-- Byte `k` of an access in the video RAM window (20 R89, D14). -/
def vramCell (cfg : Config) (a : Addr) (k : Nat) : Option (Store × Nat) :=
  some (.vram, (a.toNat + k) &&& (cfg.params.vramSize - 1))

/-- Byte `k` of an access in the Map RAM window (20 R89, D13). -/
def mapCell (a : Addr) (k : Nat) : Option (Store × Nat) :=
  some (.map, (a.toNat + k) &&& (mapRamSize - 1))

/-- The byte a cell holds; an absent one reads 0xFF (20 R86). -/
def State.readCell (s : State) : Option (Store × Nat) → Byte
  | none => 0xFF#8
  | some (st, i) => s.byteAt st i

/-- The state after a byte is written to a cell; an absent one drops it (20 R87). -/
def State.writeCell (s : State) (c : Option (Store × Nat)) (v : Byte) : State :=
  match c with
  | none => s
  | some (st, i) => s.putByte st i v

/-- The value of a read whose byte `k` is the cell `cell k` (20 R86). -/
def State.readBytes (s : State) (cell : Nat → Option (Store × Nat)) (w : Width) : ReadValue :=
  assemble (fun k => s.readCell (cell k)) w

/-- Writes the bytes to the cells `cell k`, `cell (k + 1)` and on. -/
def State.writeFrom (s : State) (cell : Nat → Option (Store × Nat)) : Nat → List Byte → State
  | _, [] => s
  | k, v :: vs => (s.writeCell (cell k) v).writeFrom cell (k + 1) vs

/-- The state after a write whose byte `k` goes to the cell `cell k` (20 R87). -/
def State.writeBytes (s : State) (cell : Nat → Option (Store × Nat)) (w : Width) (v : BitVec 32) : State :=
  s.writeFrom cell 0 (bytesOf v w)

/-! ### Outputs of a transition (60 R370) -/

/-- The state with the outputs of this transition. -/
def State.setOut (s : State) (o : Outputs) : State := { s with out := o }

/-- The outputs of a read that completes. -/
def readOut (v : ReadValue) (resched : Bool) : Outputs where
  value := some v
  buserr := false
  resched := resched
  load := none

/-- The outputs of a write that completes. -/
def writeOut (resched : Bool) : Outputs where
  value := none
  buserr := false
  resched := resched
  load := none

/-! ### The MMU -/

/-- The layout of a page-table entry (30 R125). -/
def State.pte (s : State) : PteLayout := s.cfg.params.pte

/-- `OVL`, toggle 3 of the general control register (30 R136). -/
def State.ovl (s : State) : Bool := s.gcr.getLsbD 3

/-- `PIE`, toggle 1 of the general control register (30 R136). -/
def State.pie (s : State) : Bool := s.gcr.getLsbD 1

/-- `MAP[page]`, from its two bytes in Map RAM (10 R33). -/
def State.mapEntry (s : State) (page : BitVec 10) : BitVec 16 :=
  s.byteAt .map (2 * page.toNat) ++ s.byteAt .map (2 * page.toNat + 1)

/-- `MAP[page] <- e`. -/
def State.setMapEntry (s : State) (page : BitVec 10) (e : BitVec 16) : State :=
  (s.putByte .map (2 * page.toNat) (e.extractLsb' 8 8)).putByte .map (2 * page.toNat + 1) (e.extractLsb' 0 8)

/-- `history_update` (40 R172): a present entry gains its history bits, an absent one is left unchanged. -/
def State.historyUpdate (s : State) (page : BitVec 10) (isWrite : Bool) : State :=
  let e := s.mapEntry page
  if ptePresent s.pte e then s.setMapEntry page (withHistory s.pte e isWrite) else s

/-- The physical address of a post-overlay address in the RAM region (40 R171). -/
def State.physicalOf (s : State) (a : Addr) : BitVec 22 := physical s.pte (s.mapEntry (pageOf a)) a

/-- The side effect of a translation (40 R171, R173, R174): the history update of the page below the boundary,
nothing at or above it. -/
def State.touch (s : State) (a : Addr) (isWrite : Bool) : State :=
  if belowBoundary a then s.historyUpdate (pageOf a) isWrite else s

/-- `checkAccess` (40 R175): the first step of the precedence that applies (40 R181). -/
def State.checkAccess (s : State) (a : Addr) (isWrite sup : Bool) : Verdict :=
  if sup then .allowed
  else if !belowBoundary a then .denied .userAddressOutOfRange
  else if !ptePresent s.pte (s.mapEntry (pageOf a)) then .denied .pageFault
  else if inKernelWindow a then .denied .kernelAccessViolation
  else if isWrite && !pteWritable s.pte (s.mapEntry (pageOf a)) then .denied .writeNotEnabled
  else .allowed

/-! ### Taking a bus error, and clearing status -/

/-- The direction is a write. -/
def isWriteDir : Dir → Bool
  | .read => false
  | .write _ => true

/-- The outputs of a denied access: bus error, and for a read `ones(w)` (41 R194). -/
def deniedOut (dir : Dir) (w : Width) : Outputs where
  value := if isWriteDir dir then none else some (onesOf w)
  buserr := true
  resched := false
  load := none

/-- `raise BusError` (60 R347): the three fault registers are filled, whatever they held, and the bus-error output is
set; the transaction then ends with `ones(w)` or no store. This is the block's part of trap entry (60 R352). -/
def State.raiseBusError (s : State) (c : FaultClass) (acc : Access) : State :=
  { s with
    bsr0 := bsr0OnFault s.cfg.params.faultCodes c acc.width acc.addr s.pie
    bsr1 := bsr1OnFault acc.addr
    gsr := gsrOnFault s.cfg.params.gsrOnFault c acc.width acc.addr s.pie
    out := deniedOut acc.dir acc.width }

/-- Clear status (42 R227): the three fault registers become all-ones. The block has no return from a trap (60 R353);
this is what ends the life of a recorded fault. -/
def State.clearStatus (s : State) : State :=
  { s with gsr := idleStatus, bsr0 := idleStatus, bsr1 := idleStatus }

/-! ### An access that reaches a row -/

/-- An allowed access of a row, from the row's read and write: the value read becomes the output; an access outside
the contract is refused (20 R90). `resched` says whether the row belongs to the FDC (43 R262). -/
def accessRow (resched : Bool) (rd : Width → Addr → State → ReadValue × State)
    (wr : BitVec 32 → Width → Addr → State → State) (acc : Access) (s : State) : Result :=
  if keepsContract acc.width acc.addr then
    match acc.dir with
    | .read => .next ((rd acc.width acc.addr s).2.setOut (readOut (rd acc.width acc.addr s).1 resched))
    | .write v => .next ((wr v acc.width acc.addr s).setOut (writeOut resched))
  else .refused .misaligned

/-- The read of a row that returns `ones(w)`: unmapped and write-only rows (42 R245). -/
def readOnes (w : Width) (_ : Addr) (s : State) : ReadValue × State := (onesOf w, s)

/-- The write of a row that discards it (42 R223, R226, R243, R245). -/
def discardWrite (_ : BitVec 32) (_ : Width) (_ : Addr) (s : State) : State := s

/-! ### The next stimulus -/

/-- The next stimulus of the queue and the state it acts on: the queue without it, and what travels beside it in
`args` (log 1, log 19). -/
def State.takeStimulus (s : State) : Option (Stimulus × State) :=
  match s.inputs with
  | [] => none
  | x :: xs => some (x, { s with inputs := xs, args := x.args })

end Sys2Proof.Machine
end

