-- ==== Sys2Proof/Machine/Fdc.lean ====
section
/-! DEFINITION. The shared operations of the floppy controller: the transfer and its buffer (43 R264 to R275), the disc
image (45 R330 to R335), the reset (70 R391), and the pieces the commands are made of: the two prologues, the step,
the block address and the Class 1 completion (44 R290, R296, R301, R302, R306). -/

namespace Sys2Proof.Machine

/-- The state with another floppy controller. -/
def State.setFdc (s : State) (f : Fdc) : State := { s with fdc := f }

/-! ### The transfer -/

/-- DRQ, and "a transfer is open": `cur` < `len` (43 R270). -/
def Fdc.drq (f : Fdc) : Bool := f.cur < f.len

/-- `close()` (43 R275). -/
def Fdc.close (f : Fdc) : Fdc := { f with cur := 0, len := 0, wpos := none, formatting := false }

/-- Position `p` of the transfer buffer; one no transfer has written holds a free value (U8; log 9). -/
def Fdc.bufByte (f : Fdc) (p : Nat) : Byte := (memGet f.buf p).getD (Config.bufferByte f.bufGen p)

/-- Writes bytes to a buffer from a position up. -/
def bufWrite (m : Memory) : Nat → List Byte → Memory
  | _, [] => m
  | p, b :: bs => bufWrite (memSet m p b) (p + 1) bs

/-- The byte at the cursor, as a data-register read sees it: beyond the capacity of the buffer a fresh free value
(43 R266 case b, U9; log 9). -/
def Fdc.readAtCursor (f : Fdc) : Byte × Fdc :=
  if f.cur < f.bufCap then (f.bufByte f.cur, f)
  else (Config.beyondBuffer f.draws, { f with draws := f.draws + 1 })

/-! ### The disc image -/

/-- `ImgRead(off, n)` (45 R331): short at the end of the image. -/
def imgRead (img : List Byte) (off n : Nat) : List Byte := (img.drop off).take n

/-- `ImgWrite(off, bytes)` (45 R332): bytes at or beyond the end are discarded, the image never grows. -/
def imgWrite (img : List Byte) (off : Nat) (bytes : List Byte) : List Byte :=
  img.take off ++ bytes.take (img.length - off) ++ img.drop (off + bytes.length)

/-- The bytes of the image; none while no image is loaded. -/
def Fdc.imageBytes (f : Fdc) : List Byte := f.image.getD []

/-- The flush at the end of a write transfer (43 R268): all `len` bytes at once, at the recorded offset. -/
def Fdc.flush (f : Fdc) : Fdc :=
  match f.wpos with
  | none => f
  | some off =>
    { f with image := f.image.map (fun img => imgWrite img off ((List.range f.len).map f.bufByte)) }

/-- `img_unload` (45 R335); it changes nothing when no image is loaded. -/
def Fdc.unload (f : Fdc) : Fdc :=
  match f.image with
  | none => f
  | some _ => { f.close with image := none, writable := false, geom := ⟨0, 0, 0, 0⟩, buf := [], bufCap := 0 }

/-- The arguments give a geometry the image fits (45 R333). -/
def goodGeometry (a : LoadArgs) : Bool :=
  let cyl := a.secsz * a.spt * a.heads
  cyl ≠ 0 && a.bytes.length ≠ 0 && a.bytes.length % cyl = 0

/-- `img_load` (45 R333, R334): a loaded image is unloaded first; the buffer is new and its contents are free. -/
def Fdc.load (f : Fdc) (a : LoadArgs) : LoadResult × Fdc :=
  let g := f.unload
  if goodGeometry a then
    (.ok,
      { g with
        image := some a.bytes
        writable := a.writable
        geom := ⟨a.secsz, a.spt, a.heads, a.bytes.length / (a.secsz * a.spt * a.heads)⟩
        buf := []
        bufCap := max (a.secsz * a.spt) 6
        bufGen := g.draws
        draws := g.draws + 1 })
  else (.badGeometry, g)

/-! ### Reset -/

/-- `fdc_reset()` (70 R391): position, registers, status, IRQ and transfer; not the image, the buffer or the BUS. -/
def Fdc.resetPosition (p : FdcParams) (f : Fdc) : Fdc :=
  { f.close with
    track := 0
    head := 0#1
    trackReg := 0x00#8
    sectorReg := 0x00#8
    dataReg := 0x00#8
    status := 0x00#8
    irq := false
    drqCapable := false
    lastStepDir := p.lastStepDirReset }

/-! ### Pieces of the commands -/

/-- A status byte together with an IRQ, and nothing else: how a command is turned away (44 R290, R301, R304, R310). -/
def Fdc.report (f : Fdc) (status : Byte) : Fdc := { f with status := status, irq := true }

/-- The pending IRQ is cleared (43 R264, 44 R290). -/
def Fdc.clearIrq (f : Fdc) : Fdc := { f with irq := false }

/-- The command in progress is DRQ-capable (44 R301). -/
def Fdc.markCapable (f : Fdc) : Fdc := { f with drqCapable := true }

/-- The head select, for a command that has one (44 R301). -/
def Fdc.selectHead (head : Option (BitVec 1)) (f : Fdc) : Fdc := { f with head := head.getD f.head }

/-- The command-write prologue (44 R290): the IRQ is cleared first; without an image every command reports not-ready
and stops. -/
def Fdc.command (body : Fdc → Fdc) (f : Fdc) : Fdc :=
  match f.image with
  | none => f.clearIrq.report stNotReady
  | some _ => body f.clearIrq

/-- `class1_complete(seekerr)` (44 R302). -/
def Fdc.class1Complete (p : FdcParams) (f : Fdc) (seekerr : Bool) : Fdc :=
  { f.close with drqCapable := false, status := class1Status p.status f.track seekerr, irq := true }

/-- The track a step reaches and whether it was clamped at the top (44 R296). -/
def stepTarget (track tracks : Nat) (dir : StepDir) : Nat × Bool :=
  let t : Int := (track : Int) + dir.toInt
  let t := if t < 0 then 0 else t
  if t > (tracks : Int) - 1 then (((tracks : Int) - 1).toNat, true) else (t.toNat, false)

/-- `step_common(u)` (44 R296): the head moves one track in the remembered direction; with `u` the new track is copied
into the track register, mod 256 (D47). Also answers whether the step raised seek-error. -/
def Fdc.stepCommon (f : Fdc) (u : Bool) : Fdc × Bool :=
  let r := stepTarget f.track f.geom.tracks f.lastStepDir
  ({ f with track := r.1, trackReg := if u then BitVec.ofNat 8 r.1 else f.trackReg }, r.2)

/-- A step in the remembered direction, with the Class 1 completion (44 R294, R295). -/
def Fdc.stepAndComplete (p : FdcParams) (f : Fdc) (u : Bool) : Fdc :=
  (f.stepCommon u).1.class1Complete p (f.stepCommon u).2

/-- The Class 2/3 prologue (44 R301): DRQ-capable first, then disc presence, then write protection for a write-class
command, then the head select, which Force Interrupt does not have. -/
def Fdc.class23 (p : FdcParams) (writeClass : Bool) (head : Option (BitVec 1)) (body : Fdc → Fdc) (f : Fdc) : Fdc :=
  match f.image with
  | none => f.markCapable.report stNotReady
  | some _ =>
    if writeClass && !f.writable then f.markCapable.report p.status.wrProt
    else body (f.markCapable.selectHead head)

/-- `lba()` (44 R306), an integer: -1 when track, head and sector are all 0. -/
def Fdc.lba (f : Fdc) : Int :=
  (f.track : Int) * f.geom.heads * f.geom.spt + (f.head.toNat : Int) * f.geom.spt + f.sectorReg.toNat - 1

/-- The byte offset of the addressed sector in the image (44 R306). -/
def Fdc.byteOffset (f : Fdc) : Int := f.lba * f.geom.secsz

/-- The position names a sector of the image (44 R304). -/
def Fdc.sectorExists (f : Fdc) : Bool :=
  f.track < f.geom.tracks && f.head.toNat < f.geom.heads && 1 ≤ f.sectorReg.toNat &&
    f.sectorReg.toNat ≤ f.geom.spt

/-- A transfer is opened: cursor 0, length, write offset, format flag, status 0x00 (43 R276). -/
def Fdc.openTransfer (f : Fdc) (len : Nat) (wpos : Option Nat) (formatting : Bool) : Fdc :=
  { f with cur := 0, len := len, wpos := wpos, formatting := formatting, status := 0x00#8 }

/-- A read transfer of these bytes is opened, from position 0 of the buffer. -/
def Fdc.openRead (f : Fdc) (bytes : List Byte) : Fdc :=
  ({ f with buf := bufWrite f.buf 0 bytes } : Fdc).openTransfer bytes.length none false

/-- `read_sector(n)` (44 R304, R305). -/
def Fdc.readSectors (p : FdcParams) (f : Fdc) (n : Nat) : Fdc :=
  if f.sectorExists then
    f.openRead (imgRead f.imageBytes f.byteOffset.toNat (n * f.geom.secsz))
  else f.report p.status.rnf

/-- `write_sector(n)` (44 R307, R308): no validation; a negative offset leaves no write target. -/
def Fdc.writeSectors (f : Fdc) (n : Nat) : Fdc :=
  f.openTransfer (n * f.geom.secsz) (if 0 ≤ f.byteOffset then some f.byteOffset.toNat else none) false

/-- The size code of the Read Address record (30 R141). -/
def sizeCode (secsz : Nat) : Byte :=
  if secsz = 128 then 0x00#8
  else if secsz = 256 then 0x01#8
  else if secsz = 512 then 0x02#8
  else if secsz = 1024 then 0x03#8
  else 0xFF#8

/-- The Read Address record (30 R141): track, head, sector, size code, two placeholder bytes. -/
def Fdc.idRecord (f : Fdc) : List Byte :=
  [BitVec.ofNat 8 f.track, 0#7 ++ f.head, f.sectorReg, sizeCode f.geom.secsz, 0x00#8, 0x00#8]

end Sys2Proof.Machine
end

