-- ==== Sys2Proof/Machine/FdcCommands.lean ====
section
/-! DEFINITION. The sixteen FDC commands (44 R290 to R314): the body of each, run after the command-write prologue;
the write of the command register, which decodes the byte and runs one of them; and the operations of format FDCCMD,
each the write of a command byte of its row (log 3). -/

namespace Sys2Proof.Machine

/-! ### The bodies -/

/-- The head-select bit of a Class 2/3 command (30 R138). -/
def headSelect (p : FdcParams) (lo : BitVec 4) : Option (BitVec 1) := some (BitVec.ofBool (lo.getLsbD p.headBit))

/-- Restore (44 R292). -/
def Fdc.restore (p : FdcParams) (f : Fdc) : Fdc :=
  ({ f with track := 0, trackReg := 0x00#8 } : Fdc).class1Complete p false

/-- The move of Seek: to the track in the data register, if within the geometry (44 R293). -/
def Fdc.seekMove (f : Fdc) : Fdc :=
  if f.dataReg.toNat < f.geom.tracks then { f with track := f.dataReg.toNat, trackReg := f.dataReg } else f

/-- Seek (44 R293), with the fall-through into a step when the parameter asks for it (log 13). -/
def Fdc.seek (cfg : Config) (f : Fdc) : Fdc :=
  let outOfRange : Bool := !(f.dataReg.toNat < f.geom.tracks)
  if cfg.seekFallthrough then
    (f.seekMove.stepCommon true).1.class1Complete cfg.params.fdc (outOfRange || (f.seekMove.stepCommon true).2)
  else f.seekMove.class1Complete cfg.params.fdc outOfRange

/-- Step (44 R294). -/
def Fdc.step (p : FdcParams) (f : Fdc) : Fdc := f.stepAndComplete p false

/-- Step with update (44 R295). -/
def Fdc.stepU (p : FdcParams) (f : Fdc) : Fdc := f.stepAndComplete p true

/-- Step-In (44 R297). -/
def Fdc.stepin (p : FdcParams) (f : Fdc) : Fdc := ({ f with lastStepDir := .inward } : Fdc).stepAndComplete p false

/-- Step-In with update (44 R298). -/
def Fdc.stepinU (p : FdcParams) (f : Fdc) : Fdc := ({ f with lastStepDir := .inward } : Fdc).stepAndComplete p true

/-- Step-Out (44 R299). -/
def Fdc.stepout (p : FdcParams) (f : Fdc) : Fdc := ({ f with lastStepDir := .outward } : Fdc).stepAndComplete p false

/-- Step-Out with update (44 R300). -/
def Fdc.stepoutU (p : FdcParams) (f : Fdc) : Fdc := ({ f with lastStepDir := .outward } : Fdc).stepAndComplete p true

/-- Read Sector (44 R304). -/
def Fdc.rdsec (p : FdcParams) (lo : BitVec 4) (f : Fdc) : Fdc :=
  f.class23 p false (headSelect p lo) (fun g => g.readSectors p 1)

/-- Read Sector Multiple (44 R305). -/
def Fdc.rdsecM (p : FdcParams) (lo : BitVec 4) (f : Fdc) : Fdc :=
  f.class23 p false (headSelect p lo) (fun g => g.readSectors p g.geom.spt)

/-- Write Sector (44 R307). -/
def Fdc.wrsec (p : FdcParams) (lo : BitVec 4) (f : Fdc) : Fdc :=
  f.class23 p true (headSelect p lo) (fun g => g.writeSectors 1)

/-- Write Sector Multiple (44 R308). -/
def Fdc.wrsecM (p : FdcParams) (lo : BitVec 4) (f : Fdc) : Fdc :=
  f.class23 p true (headSelect p lo) (fun g => g.writeSectors g.geom.spt)

/-- Read Address (44 R303). -/
def Fdc.rdaddr (p : FdcParams) (lo : BitVec 4) (f : Fdc) : Fdc :=
  f.class23 p false (headSelect p lo) (fun g => g.openRead g.idRecord)

/-- Force Interrupt (44 R313): the IRQ only when its bit of the command is 1 (30 R138). -/
def Fdc.forceint (p : FdcParams) (lo : BitVec 4) (f : Fdc) : Fdc :=
  f.class23 p false none (fun g =>
    { g.close with status := forceIntStatus p.status g.track g.writable, irq := g.irq || lo.getLsbD p.irqBit })

/-- Read Track (44 R310): always record not found. -/
def Fdc.rdtrk (p : FdcParams) (lo : BitVec 4) (f : Fdc) : Fdc :=
  f.class23 p false (headSelect p lo) (fun g => g.report p.status.rnf)

/-- Format Track (44 R311). -/
def Fdc.fmttrk (cfg : Config) (lo : BitVec 4) (f : Fdc) : Fdc :=
  f.class23 cfg.params.fdc true (headSelect cfg.params.fdc lo) (fun g => g.openTransfer cfg.formatStreamLen none true)

/-! ### The write of the command register -/

/-- The body of a command, with the low nibble of its byte (44 R291). -/
def commandBody (cfg : Config) : FdcCmd → BitVec 4 → Fdc → Fdc
  | .restore, _, f => f.restore cfg.params.fdc
  | .seek, _, f => f.seek cfg
  | .step, _, f => f.step cfg.params.fdc
  | .stepU, _, f => f.stepU cfg.params.fdc
  | .stepin, _, f => f.stepin cfg.params.fdc
  | .stepinU, _, f => f.stepinU cfg.params.fdc
  | .stepout, _, f => f.stepout cfg.params.fdc
  | .stepoutU, _, f => f.stepoutU cfg.params.fdc
  | .rdsec, lo, f => f.rdsec cfg.params.fdc lo
  | .rdsecM, lo, f => f.rdsecM cfg.params.fdc lo
  | .wrsec, lo, f => f.wrsec cfg.params.fdc lo
  | .wrsecM, lo, f => f.wrsecM cfg.params.fdc lo
  | .rdaddr, lo, f => f.rdaddr cfg.params.fdc lo
  | .forceint, lo, f => f.forceint cfg.params.fdc lo
  | .rdtrk, lo, f => f.rdtrk cfg.params.fdc lo
  | .fmttrk, lo, f => f.fmttrk cfg lo

/-- `command_write(b)` (44 R290, R291, 43 R265): the prologue, then the command the top nibble names. -/
def Fdc.commandWrite (cfg : Config) (b : Byte) (f : Fdc) : Fdc :=
  f.command (commandBody cfg (decodeCmd cfg.params.fdc b) (b.extractLsb' 0 4))

/-! ### The operations of format FDCCMD -/

/-- One write of an FDC register: the controller changes and `resched` pulses (43 R261, R262). -/
def fdcWriteOp (wr : Fdc → Fdc) (s : State) : Result :=
  .next ((s.setFdc (wr s.fdc)).setOut (writeOut true))

def execFdcRestore (_ : BitVec 4) (s : State) : Result := fdcWriteOp (Fdc.command (Fdc.restore s.cfg.params.fdc)) s
def execFdcSeek (_ : BitVec 4) (s : State) : Result := fdcWriteOp (Fdc.command (Fdc.seek s.cfg)) s
def execFdcStep (_ : BitVec 4) (s : State) : Result := fdcWriteOp (Fdc.command (Fdc.step s.cfg.params.fdc)) s
def execFdcStepU (_ : BitVec 4) (s : State) : Result := fdcWriteOp (Fdc.command (Fdc.stepU s.cfg.params.fdc)) s
def execFdcStepin (_ : BitVec 4) (s : State) : Result := fdcWriteOp (Fdc.command (Fdc.stepin s.cfg.params.fdc)) s
def execFdcStepinU (_ : BitVec 4) (s : State) : Result := fdcWriteOp (Fdc.command (Fdc.stepinU s.cfg.params.fdc)) s
def execFdcStepout (_ : BitVec 4) (s : State) : Result := fdcWriteOp (Fdc.command (Fdc.stepout s.cfg.params.fdc)) s
def execFdcStepoutU (_ : BitVec 4) (s : State) : Result := fdcWriteOp (Fdc.command (Fdc.stepoutU s.cfg.params.fdc)) s
def execFdcRdsec (lo : BitVec 4) (s : State) : Result := fdcWriteOp (Fdc.command (Fdc.rdsec s.cfg.params.fdc lo)) s
def execFdcRdsecM (lo : BitVec 4) (s : State) : Result := fdcWriteOp (Fdc.command (Fdc.rdsecM s.cfg.params.fdc lo)) s
def execFdcWrsec (lo : BitVec 4) (s : State) : Result := fdcWriteOp (Fdc.command (Fdc.wrsec s.cfg.params.fdc lo)) s
def execFdcWrsecM (lo : BitVec 4) (s : State) : Result := fdcWriteOp (Fdc.command (Fdc.wrsecM s.cfg.params.fdc lo)) s
def execFdcRdaddr (lo : BitVec 4) (s : State) : Result := fdcWriteOp (Fdc.command (Fdc.rdaddr s.cfg.params.fdc lo)) s
def execFdcForceint (lo : BitVec 4) (s : State) : Result := fdcWriteOp (Fdc.command (Fdc.forceint s.cfg.params.fdc lo)) s
def execFdcRdtrk (lo : BitVec 4) (s : State) : Result := fdcWriteOp (Fdc.command (Fdc.rdtrk s.cfg.params.fdc lo)) s
def execFdcFmttrk (lo : BitVec 4) (s : State) : Result := fdcWriteOp (Fdc.command (Fdc.fmttrk s.cfg lo)) s

end Sys2Proof.Machine
end

