-- ==== Sys2Proof/Machine/FdcRegisters.lean ====
section
/-! DEFINITION. The eight accesses of the FDC registers (43 R260 to R272), as functions of the controller, and the
operations of format FDCREG. -/

namespace Sys2Proof.Machine

/-! ### The accesses -/

/-- A status read (43 R263, R264): the composed value; the pending IRQ is cleared, the stored byte is not changed. -/
def Fdc.rdStatus (p : FdcParams) (f : Fdc) : Byte × Fdc :=
  (statusValue p.status f.status f.drqCapable f.drq, f.clearIrq)

/-- A track-register read (43 R267). -/
def Fdc.rdTrack (f : Fdc) : Byte × Fdc := (f.trackReg, f)

/-- A sector-register read (43 R271). -/
def Fdc.rdSector (f : Fdc) : Byte × Fdc := (f.sectorReg, f)

/-- A data-register read (43 R266): while a transfer is open, whatever its direction, the byte at the cursor, with
the IRQ at the last one; otherwise the latched data register. -/
def Fdc.rdData (f : Fdc) : Byte × Fdc :=
  if f.cur < f.len then
    let r := f.readAtCursor
    (r.1, { r.2 with cur := f.cur + 1, irq := f.irq || f.cur + 1 = f.len })
  else (f.dataReg, f)

/-- A track-register write (43 R269). -/
def Fdc.wrTrack (b : Byte) (f : Fdc) : Fdc := { f with trackReg := b }

/-- A sector-register write (43 R272). -/
def Fdc.wrSector (b : Byte) (f : Fdc) : Fdc := { f with sectorReg := b }

/-- The byte is stored at the cursor, unless formatting, and the cursor advances (43 R268). -/
def Fdc.acceptByte (b : Byte) (f : Fdc) : Fdc :=
  { f with buf := if f.formatting then f.buf else memSet f.buf f.cur b, cur := f.cur + 1 }

/-- The end of a write or format transfer (43 R268): the flush, skipped when formatting, the IRQ, and the close. -/
def Fdc.finishWrite (f : Fdc) : Fdc :=
  ({ (if f.formatting then f else f.flush) with irq := true } : Fdc).close

/-- A data-register write (43 R268): the byte is always latched; a write or format transfer accepts it. -/
def Fdc.wrData (b : Byte) (f : Fdc) : Fdc :=
  let g : Fdc := { f with dataReg := b }
  if f.cur < f.len ∧ (f.wpos.isSome ∨ f.formatting) then
    if f.cur + 1 = f.len then (g.acceptByte b).finishWrite else g.acceptByte b
  else g

/-- `FdcRead(freg)` (43 R260). -/
def Fdc.readReg (p : FdcParams) (freg : BitVec 2) (f : Fdc) : Byte × Fdc :=
  match freg.toNat with
  | 0 => f.rdStatus p
  | 1 => f.rdTrack
  | 2 => f.rdSector
  | _ => f.rdData

/-- `FdcWrite(freg, b)` (43 R261). -/
def Fdc.writeReg (cfg : Config) (freg : BitVec 2) (b : Byte) (f : Fdc) : Fdc :=
  match freg.toNat with
  | 0 => f.commandWrite cfg b
  | 1 => f.wrTrack b
  | 2 => f.wrSector b
  | _ => f.wrData b

/-! ### The operations of format FDCREG -/

/-- One read of an FDC register: the byte is the output and `resched` pulses (43 R260, R262). -/
def fdcReadOp (rd : Fdc → Byte × Fdc) (s : State) : Result :=
  .next ((s.setFdc (rd s.fdc).2).setOut (readOut (.v8 (rd s.fdc).1) true))

def execFdcRdStatus (s : State) : Result := fdcReadOp (Fdc.rdStatus s.cfg.params.fdc) s
def execFdcRdTrack (s : State) : Result := fdcReadOp Fdc.rdTrack s
def execFdcRdSector (s : State) : Result := fdcReadOp Fdc.rdSector s
def execFdcRdData (s : State) : Result := fdcReadOp Fdc.rdData s
def execFdcWrCommand (b : Byte) (s : State) : Result := fdcWriteOp (Fdc.commandWrite s.cfg b) s
def execFdcWrTrack (b : Byte) (s : State) : Result := fdcWriteOp (Fdc.wrTrack b) s
def execFdcWrSector (b : Byte) (s : State) : Result := fdcWriteOp (Fdc.wrSector b) s
def execFdcWrData (b : Byte) (s : State) : Result := fdcWriteOp (Fdc.wrData b) s

end Sys2Proof.Machine
end

