-- ==== Sys2Proof/Machine/Registers.lean ====
section
/-! DEFINITION. The registers of zones A and B (42 R220 to R247): reads and writes through the lanes of a 16-bit
register, the FDC window, the stubs and the unmapped row, and the operations of their address rows. -/

namespace Sys2Proof.Machine

/-! ### Fault status registers (42 R222 to R227) -/

def readGsr (w : Width) (a : Addr) (s : State) : ReadValue × State := (laneRead s.gsr w a, s)
def readBsr0 (w : Width) (a : Addr) (s : State) : ReadValue × State := (laneRead s.bsr0 w a, s)
def readBsr1 (w : Width) (a : Addr) (s : State) : ReadValue × State := (laneRead s.bsr1 w a, s)

/-- Any write of the row clears status (42 R227, D49). -/
def writeClrstat (_ : BitVec 32) (_ : Width) (_ : Addr) (s : State) : State := s.clearStatus

def execGsr (acc : Access) (s : State) : Result := accessRow false readGsr discardWrite acc s
def execBsr0 (acc : Access) (s : State) : Result := accessRow false readBsr0 discardWrite acc s
def execBsr1 (acc : Access) (s : State) : Result := accessRow false readBsr1 discardWrite acc s
def execClrstat (acc : Access) (s : State) : Result := accessRow false readOnes writeClrstat acc s

/-! ### DMA registers (42 R228 to R232) -/

/-- `DMACNT` as a 16-bit register: `DMA_EN` ++ `DMA_IDMARW` ++ `DMA_COUNT` (42 R230). -/
def State.dmacnt (s : State) : BitVec 16 := BitVec.ofBool s.dmaEn ++ BitVec.ofBool s.dmaIdmarw ++ s.dmaCount

def readDmacnt (w : Width) (a : Addr) (s : State) : ReadValue × State := (laneRead s.dmacnt w a, s)

/-- The fields of `DMACNT` a write loads, lane by lane (42 R228). -/
def State.loadDmacnt (s : State) (x : LaneWrite) : State :=
  { s with
    dmaEn := if x.high then x.d.getLsbD 15 else s.dmaEn
    dmaIdmarw := if x.high then x.d.getLsbD 14 else s.dmaIdmarw
    dmaCount :=
      (if x.high then x.d.extractLsb' 8 6 else s.dmaCount.extractLsb' 8 6) ++
        (if x.low then x.d.extractLsb' 0 8 else s.dmaCount.extractLsb' 0 8) }

/-- The dummy cycle (42 R229, D19; log 12): the count moves by the configured step for the DMA direction, mod 2^14. -/
def State.dummyCycle (s : State) : State :=
  { s with dmaCount := s.dmaCount + s.cfg.params.dummyCycle.get s.dmaDir }

def writeDmacnt (v : BitVec 32) (w : Width) (a : Addr) (s : State) : State :=
  (s.loadDmacnt (laneWrite v w a)).dummyCycle

/-- `MCR` write (42 R232): both fields lie in the high lane. -/
def writeMcr (v : BitVec 32) (w : Width) (a : Addr) (s : State) : State :=
  let x := laneWrite v w a
  if x.high then { s with dmaDir := x.d.getLsbD 14, led := x.d.extractLsb' 8 4 } else s

/-- `DMAADR` write (42 R231): the value comes from the address, the data is ignored, bit 0 stays 0. -/
def writeDmaadr (_ : BitVec 32) (_ : Width) (a : Addr) (s : State) : State :=
  if a.getLsbD 14 then { s with dmaAddr := a.extractLsb' 1 13 ++ s.dmaAddr.extractLsb' 1 8 ++ 0#1 }
  else { s with dmaAddr := s.dmaAddr.extractLsb' 9 13 ++ a.extractLsb' 1 8 ++ 0#1 }

def execDmacnt (acc : Access) (s : State) : Result := accessRow false readDmacnt writeDmacnt acc s
def execMcr (acc : Access) (s : State) : Result := accessRow false readOnes writeMcr acc s
def execDmaadr (acc : Access) (s : State) : Result := accessRow false readOnes writeDmaadr acc s

/-! ### Disc control and general control (42 R233, R234, R237 to R239) -/

/-- `DCR` write (42 R233): the register lies in the low lane; a write with bit 7 clear resets the FDC, once. -/
def writeDcr (v : BitVec 32) (w : Width) (a : Addr) (s : State) : State :=
  let x := laneWrite v w a
  if x.low then
    let s' : State := { s with dcr := x.d.extractLsb' 0 8 }
    if x.d.getLsbD 7 then s' else s'.setFdc (s'.fdc.resetPosition s'.cfg.params.fdc)
  else s

/-- The eight toggles with toggle `k` at the value `b`. -/
def setToggle (g : BitVec 8) (k : BitVec 3) (b : Bool) : BitVec 8 :=
  if b then g ||| (1#8 <<< k.toNat) else g &&& ~~~(1#8 <<< k.toNat)

/-- `GCR` write (42 R238): the toggle that a[14:12] selects takes data bit 15, if the high lane is driven. -/
def writeGcr (v : BitVec 32) (w : Width) (a : Addr) (s : State) : State :=
  let x := laneWrite v w a
  if x.high then { s with gcr := setToggle s.gcr (gselOf a) (x.d.getLsbD 15) } else s

def execDcr (acc : Access) (s : State) : Result := accessRow false readOnes writeDcr acc s
def execGcr (acc : Access) (s : State) : Result := accessRow false readOnes writeGcr acc s

/-! ### The FDC window (42 R240, R241) -/

/-- One access of the window is one access of the register a[2:1], whatever its width; the byte is widened. -/
def readFdcwin (w : Width) (a : Addr) (s : State) : ReadValue × State :=
  let r := s.fdc.readReg s.cfg.params.fdc (fregOf a)
  (widenByte r.1 w, s.setFdc r.2)

/-- The byte written is v[7:0]. -/
def writeFdcwin (v : BitVec 32) (_ : Width) (a : Addr) (s : State) : State :=
  s.setFdc (s.fdc.writeReg s.cfg (fregOf a) (v.extractLsb' 0 8))

def execFdcwin (acc : Access) (s : State) : Result := accessRow true readFdcwin writeFdcwin acc s

/-! ### Stubs and unmapped addresses (42 R243 to R245) -/

/-- A stub read returns a free value and has no side effect in the block; the model's draw counter advances
(U2; log 8). -/
def readStub (w : Width) (_ : Addr) (s : State) : ReadValue × State :=
  (truncateTo (Config.stubValue s.stubDraws) w, { s with stubDraws := s.stubDraws + 1 })

def execStubPhoneStatus (acc : Access) (s : State) : Result := accessRow false readStub discardWrite acc s
def execStubLpStatus (acc : Access) (s : State) : Result := accessRow false readStub discardWrite acc s
def execStubRtc (acc : Access) (s : State) : Result := accessRow false readStub discardWrite acc s
def execStubPhone (acc : Access) (s : State) : Result := accessRow false readStub discardWrite acc s
def execStubDialer (acc : Access) (s : State) : Result := accessRow false readStub discardWrite acc s
def execStubLpData (acc : Access) (s : State) : Result := accessRow false readStub discardWrite acc s
def execStubExpC (acc : Access) (s : State) : Result := accessRow false readStub discardWrite acc s
def execStubExpD (acc : Access) (s : State) : Result := accessRow false readStub discardWrite acc s
def execStubExpF (acc : Access) (s : State) : Result := accessRow false readStub discardWrite acc s
def execStubHdc (acc : Access) (s : State) : Result := accessRow false readStub discardWrite acc s
def execStubMcr2 (acc : Access) (s : State) : Result := accessRow false readStub discardWrite acc s
def execStubRtcData (acc : Access) (s : State) : Result := accessRow false readStub discardWrite acc s
def execStubSerial (acc : Access) (s : State) : Result := accessRow false readStub discardWrite acc s
def execStubModem (acc : Access) (s : State) : Result := accessRow false readStub discardWrite acc s
def execStubKeyboard (acc : Access) (s : State) : Result := accessRow false readStub discardWrite acc s
def execUnmappedE (acc : Access) (s : State) : Result := accessRow false readOnes discardWrite acc s

end Sys2Proof.Machine
end

