-- ==== Sys2Proof/Machine/Windows.lean ====
section
/-! DEFINITION. The four memory windows (41 R196 to R204): reads and writes of paged RAM, ROM, Map RAM and video RAM,
and the operations of their address rows. -/

namespace Sys2Proof.Machine

/-! ### RAM, through translation (41 R198, R199) -/

/-- Byte `k` of an access to the RAM window at the post-overlay address: the cell of the physical address that many
bytes up (20 R86, R97). -/
def State.ramWindow (s : State) (a : Addr) (k : Nat) : Option (Store × Nat) :=
  ramCell s.cfg ((s.physicalOf a).toNat + k)

/-- A RAM read: the bytes at the physical address; the translation sets the history of the page (40 R171; log 18). -/
def readRam (w : Width) (a : Addr) (s : State) : ReadValue × State :=
  (s.readBytes (s.ramWindow a) w, s.touch a false)

/-- A RAM write: history first, then the installed bytes are stored and absent ones dropped. -/
def writeRam (v : BitVec 32) (w : Width) (a : Addr) (s : State) : State :=
  (s.touch a true).writeBytes (s.ramWindow a) w v

def execRam (acc : Access) (s : State) : Result := accessRow false readRam writeRam acc s

/-! ### ROM (41 R196, R197) -/

/-- A ROM read: the image repeats through the window (D12). -/
def readRom (w : Width) (a : Addr) (s : State) : ReadValue × State :=
  (s.readBytes (romCell s.cfg a) w, s)

def execRom (acc : Access) (s : State) : Result := accessRow false readRom discardWrite acc s

/-! ### Map RAM (41 R202, R203) -/

/-- A Map RAM read: the raw bytes of the page table; no history bit is set (41 R203). -/
def readMapRam (w : Width) (a : Addr) (s : State) : ReadValue × State :=
  (s.readBytes (mapCell a) w, s)

/-- A Map RAM write: all sixteen bits of an entry are plain storage. -/
def writeMapRam (v : BitVec 32) (w : Width) (a : Addr) (s : State) : State :=
  s.writeBytes (mapCell a) w v

def execMapram (acc : Access) (s : State) : Result := accessRow false readMapRam writeMapRam acc s

/-! ### Video RAM (41 R204) -/

def readVram (w : Width) (a : Addr) (s : State) : ReadValue × State :=
  (s.readBytes (vramCell s.cfg a) w, s)

def writeVram (v : BitVec 32) (w : Width) (a : Addr) (s : State) : State :=
  s.writeBytes (vramCell s.cfg a) w v

def execVram (acc : Access) (s : State) : Result := accessRow false readVram writeVram acc s

end Sys2Proof.Machine
end

