-- ==== Sys2Proof/Machine/Bus.lean ====
section
/-! DEFINITION. The six bus transactions (41 R190, R191): overlay, permission check, then the bus error or the row
that the post-overlay address reaches. -/

namespace Sys2Proof.Machine

/-- Dispatch of an allowed access (41 R195, R205): the meaning of the row it reaches. -/
def runRow : AddrRow → Access → State → Result
  | .ram, acc, s => execRam acc s
  | .rom, acc, s => execRom acc s
  | .mapram, acc, s => execMapram acc s
  | .vram, acc, s => execVram acc s
  | .gsr, acc, s => execGsr acc s
  | .bsr0, acc, s => execBsr0 acc s
  | .bsr1, acc, s => execBsr1 acc s
  | .stubPhoneStatus, acc, s => execStubPhoneStatus acc s
  | .dmacnt, acc, s => execDmacnt acc s
  | .stubLpStatus, acc, s => execStubLpStatus acc s
  | .stubRtc, acc, s => execStubRtc acc s
  | .stubPhone, acc, s => execStubPhone acc s
  | .mcr, acc, s => execMcr acc s
  | .stubDialer, acc, s => execStubDialer acc s
  | .clrstat, acc, s => execClrstat acc s
  | .dmaadr, acc, s => execDmaadr acc s
  | .dcr, acc, s => execDcr acc s
  | .stubLpData, acc, s => execStubLpData acc s
  | .stubExpC, acc, s => execStubExpC acc s
  | .stubExpD, acc, s => execStubExpD acc s
  | .stubExpF, acc, s => execStubExpF acc s
  | .stubHdc, acc, s => execStubHdc acc s
  | .fdcwin, acc, s => execFdcwin acc s
  | .stubMcr2, acc, s => execStubMcr2 acc s
  | .stubRtcData, acc, s => execStubRtcData acc s
  | .gcr, acc, s => execGcr acc s
  | .stubSerial, acc, s => execStubSerial acc s
  | .stubModem, acc, s => execStubModem acc s
  | .stubKeyboard, acc, s => execStubKeyboard acc s
  | .unmappedE, acc, s => execUnmappedE acc s

/-- The access as every step after the overlay sees it (41 R192). -/
def State.overlaid (s : State) (acc : Access) : Access := { acc with addr := overlay s.ovl acc.addr }

/-- A denied access (41 R194, 60 R347): the translation's history update, then the bus error (41 R193, C2). -/
def State.deny (s : State) (c : FaultClass) (acc : Access) : State :=
  (s.touch acc.addr (isWriteDir acc.dir)).raiseBusError c acc

/-- `BusRead` and `BusWrite` (41 R190, R191), one indivisible transition (20 R93). On the allowed path the RAM row
makes the translation's history update (log 18). -/
def transact (sup : Bool) (acc : Access) (s : State) : Result :=
  if keepsContract acc.width acc.addr then
    let acc' := s.overlaid acc
    match s.checkAccess acc'.addr (isWriteDir acc'.dir) sup with
    | .denied c => .next (s.deny c acc')
    | .allowed => runRow (decodeRow s.cfg.params.map acc'.addr) acc' s
  else .refused .misaligned

def execRdB (sup : Bool) (addr : Addr) (s : State) : Result := transact sup ⟨.read, .w8, addr⟩ s
def execRdW (sup : Bool) (addr : Addr) (s : State) : Result := transact sup ⟨.read, .w16, addr⟩ s
def execRdL (sup : Bool) (addr : Addr) (s : State) : Result := transact sup ⟨.read, .w32, addr⟩ s
def execWrB (sup : Bool) (addr : Addr) (data : BitVec 8) (s : State) : Result :=
  transact sup ⟨.write (0#24 ++ data), .w8, addr⟩ s
def execWrW (sup : Bool) (addr : Addr) (data : BitVec 16) (s : State) : Result :=
  transact sup ⟨.write (0#16 ++ data), .w16, addr⟩ s
def execWrL (sup : Bool) (addr : Addr) (data : BitVec 32) (s : State) : Result :=
  transact sup ⟨.write data, .w32, addr⟩ s

end Sys2Proof.Machine
end

