-- ==== Sys2Proof/Machine/Signals.lean ====
section
/-! DEFINITION. The four signals (30 R123): power-on reset (70 R390), DMA miss (43 R273), image load and unload
(45 R333, R335). -/

namespace Sys2Proof.Machine

/-- A signal completes with no output. -/
def signalDone (s : State) : Result := .next (s.setOut (writeOut false))

/-- `RESET` (70 R390): fault registers all-ones, the overlay as its parameter says and the other toggles off, the control registers zero,
the FDC reset; the stores, the ROM and a loaded image are unchanged (C12). -/
def State.powerOnReset (s : State) : State :=
  { s with
    gsr := idleStatus
    bsr0 := idleStatus
    bsr1 := idleStatus
    gcr := gcrAtReset s.cfg.params
    led := 0#4
    dmaDir := false
    dmaCount := 0#14
    dmaEn := false
    dmaIdmarw := false
    dmaAddr := 0#22
    dcr := 0x00#8
    fdc := s.fdc.resetPosition s.cfg.params.fdc }

def execReset (s : State) : Result := signalDone s.powerOnReset

/-- `dma_miss()` (43 R273): the transfer is closed, the status is lost-data, the IRQ is raised. -/
def Fdc.dmaMiss (p : FdcParams) (f : Fdc) : Fdc := f.close.report p.status.lostData

def execDmaMiss (s : State) : Result := signalDone (s.setFdc (s.fdc.dmaMiss s.cfg.params.fdc))

/-- An image load with the arguments beside the word; its result is an output (45 R333, R334; log 19). -/
def execImgLoad (s : State) : Result :=
  .next ((s.setFdc (s.fdc.load s.args).2).setOut
    { value := none, buserr := false, resched := false, load := some (s.fdc.load s.args).1 })

def execImgUnload (s : State) : Result := signalDone (s.setFdc s.fdc.unload)

end Sys2Proof.Machine
end

