-- ==== Sys2Proof/Machine/Dispatch.lean ====
section
/-! DEFINITION. The dispatch of every operation to its meaning, one arm per constructor of Instr. -/

namespace Sys2Proof.Machine

def exec (i : Instr) (s : State) : Host.Outcome State Fault Refusal :=
  match i with
  | .rdB sup addr => Sys2Proof.Machine.execRdB sup addr s
  | .rdW sup addr => Sys2Proof.Machine.execRdW sup addr s
  | .rdL sup addr => Sys2Proof.Machine.execRdL sup addr s
  | .wrB sup addr data => Sys2Proof.Machine.execWrB sup addr data s
  | .wrW sup addr data => Sys2Proof.Machine.execWrW sup addr data s
  | .wrL sup addr data => Sys2Proof.Machine.execWrL sup addr data s
  | .reset => Sys2Proof.Machine.execReset s
  | .dmaMiss => Sys2Proof.Machine.execDmaMiss s
  | .imgLoad => Sys2Proof.Machine.execImgLoad s
  | .imgUnload => Sys2Proof.Machine.execImgUnload s
  | .ram acc => Sys2Proof.Machine.execRam acc s
  | .rom acc => Sys2Proof.Machine.execRom acc s
  | .mapram acc => Sys2Proof.Machine.execMapram acc s
  | .vram acc => Sys2Proof.Machine.execVram acc s
  | .gsr acc => Sys2Proof.Machine.execGsr acc s
  | .bsr0 acc => Sys2Proof.Machine.execBsr0 acc s
  | .bsr1 acc => Sys2Proof.Machine.execBsr1 acc s
  | .stubPhoneStatus acc => Sys2Proof.Machine.execStubPhoneStatus acc s
  | .dmacnt acc => Sys2Proof.Machine.execDmacnt acc s
  | .stubLpStatus acc => Sys2Proof.Machine.execStubLpStatus acc s
  | .stubRtc acc => Sys2Proof.Machine.execStubRtc acc s
  | .stubPhone acc => Sys2Proof.Machine.execStubPhone acc s
  | .mcr acc => Sys2Proof.Machine.execMcr acc s
  | .stubDialer acc => Sys2Proof.Machine.execStubDialer acc s
  | .clrstat acc => Sys2Proof.Machine.execClrstat acc s
  | .dmaadr acc => Sys2Proof.Machine.execDmaadr acc s
  | .dcr acc => Sys2Proof.Machine.execDcr acc s
  | .stubLpData acc => Sys2Proof.Machine.execStubLpData acc s
  | .stubExpC acc => Sys2Proof.Machine.execStubExpC acc s
  | .stubExpD acc => Sys2Proof.Machine.execStubExpD acc s
  | .stubExpF acc => Sys2Proof.Machine.execStubExpF acc s
  | .stubHdc acc => Sys2Proof.Machine.execStubHdc acc s
  | .fdcwin acc => Sys2Proof.Machine.execFdcwin acc s
  | .stubMcr2 acc => Sys2Proof.Machine.execStubMcr2 acc s
  | .stubRtcData acc => Sys2Proof.Machine.execStubRtcData acc s
  | .gcr acc => Sys2Proof.Machine.execGcr acc s
  | .stubSerial acc => Sys2Proof.Machine.execStubSerial acc s
  | .stubModem acc => Sys2Proof.Machine.execStubModem acc s
  | .stubKeyboard acc => Sys2Proof.Machine.execStubKeyboard acc s
  | .unmappedE acc => Sys2Proof.Machine.execUnmappedE acc s
  | .fdcRdStatus => Sys2Proof.Machine.execFdcRdStatus s
  | .fdcRdTrack => Sys2Proof.Machine.execFdcRdTrack s
  | .fdcRdSector => Sys2Proof.Machine.execFdcRdSector s
  | .fdcRdData => Sys2Proof.Machine.execFdcRdData s
  | .fdcWrCommand b => Sys2Proof.Machine.execFdcWrCommand b s
  | .fdcWrTrack b => Sys2Proof.Machine.execFdcWrTrack b s
  | .fdcWrSector b => Sys2Proof.Machine.execFdcWrSector b s
  | .fdcWrData b => Sys2Proof.Machine.execFdcWrData b s
  | .fdcRestore lo => Sys2Proof.Machine.execFdcRestore lo s
  | .fdcSeek lo => Sys2Proof.Machine.execFdcSeek lo s
  | .fdcStep lo => Sys2Proof.Machine.execFdcStep lo s
  | .fdcStepU lo => Sys2Proof.Machine.execFdcStepU lo s
  | .fdcStepin lo => Sys2Proof.Machine.execFdcStepin lo s
  | .fdcStepinU lo => Sys2Proof.Machine.execFdcStepinU lo s
  | .fdcStepout lo => Sys2Proof.Machine.execFdcStepout lo s
  | .fdcStepoutU lo => Sys2Proof.Machine.execFdcStepoutU lo s
  | .fdcRdsec lo => Sys2Proof.Machine.execFdcRdsec lo s
  | .fdcRdsecM lo => Sys2Proof.Machine.execFdcRdsecM lo s
  | .fdcWrsec lo => Sys2Proof.Machine.execFdcWrsec lo s
  | .fdcWrsecM lo => Sys2Proof.Machine.execFdcWrsecM lo s
  | .fdcRdaddr lo => Sys2Proof.Machine.execFdcRdaddr lo s
  | .fdcForceint lo => Sys2Proof.Machine.execFdcForceint lo s
  | .fdcRdtrk lo => Sys2Proof.Machine.execFdcRdtrk lo s
  | .fdcFmttrk lo => Sys2Proof.Machine.execFdcFmttrk lo s

end Sys2Proof.Machine
end

