-- ==== Sys2Proof/Machine/Step.lean ====
section
/-! DEFINITION. One step of the block: the next stimulus is taken from the queue, decoded, and run (00 R8; log 1). -/

namespace Sys2Proof.Machine

/-- One transition. With no stimulus waiting there is none to make; a word the decoder refuses is refused by name. -/
def step (s : State) : Host.Outcome State Fault Refusal :=
  match s.takeStimulus with
  | none => .refused .noStimulus
  | some (x, s') =>
    match decode x.port x.word with
    | .ok i => exec i s'
    | .bad e => .refused (.undecodable e)

/-- The state with an opcode-table word of `nbits` bits as its next stimulus, at the port of the word's format (log 4). -/
def State.withFetchWord (s : State) (nbits w : Nat) : State :=
  { s with inputs := ⟨tablePort nbits (w % 2 ^ nbits), BitVec.ofNat 64 (w % 2 ^ nbits), LoadArgs.none⟩ :: s.inputs }

end Sys2Proof.Machine
end

