-- ==== Sys2Proof/Safety.lean ====
section
/-! DEFINITION. The terms the statements use: big-endian bytes of a value as arithmetic, what a 16-bit register's lanes
show and load, which parts of the state two states share, the invariants, and repeated data-register accesses. -/

namespace Sys2Proof.Machine

/-! ### Values as arithmetic -/

/-- Bytes of an access (20 R85). -/
def widthBytes : Width → Nat
  | .w8 => 1
  | .w16 => 2
  | .w32 => 4

/-- The number a read value stands for. -/
def valueNat : ReadValue → Nat
  | .v8 v => v.toNat
  | .v16 v => v.toNat
  | .v32 v => v.toNat

/-- The read value has exactly the width (41 R206). -/
def hasWidth : ReadValue → Width → Bool
  | .v8 _, .w8 => true
  | .v16 _, .w16 => true
  | .v32 _, .w32 => true
  | _, _ => false

/-- Byte `k` of the `n` bytes of a number, the most significant first (20 R83). -/
def beByte (x n k : Nat) : Byte := BitVec.ofNat 8 (x / 256 ^ (n - 1 - k))

/-- The all-ones value of a width, as a number (00 R14). -/
def onesNat (w : Width) : Nat := 256 ^ widthBytes w - 1

/-- What a read sees of a 16-bit register (42 R242). -/
def laneSeen (r : Nat) (w : Width) (a : Addr) : Nat :=
  match w with
  | .w8 => if a.toNat % 2 = 0 then r / 256 else r % 256
  | .w16 => r
  | .w32 => r * 65536 + r

/-- The access drives the high lane of a 16-bit register (42 R242). -/
def drivesHigh (w : Width) (a : Addr) : Bool := w ≠ .w8 || a.toNat % 2 = 0

/-- The access drives the low lane of a 16-bit register (42 R242). -/
def drivesLow (w : Width) (a : Addr) : Bool := w ≠ .w8 || a.toNat % 2 = 1

/-- The byte an access drives on the high lane. -/
def highByte (v : BitVec 32) : Width → Nat
  | .w8 => v.toNat % 256
  | _ => v.toNat / 256 % 256

/-- The byte an access drives on the low lane. -/
def lowByte (v : BitVec 32) : Nat := v.toNat % 256

/-- A 16-bit register after a write through its lanes (42 R242). -/
def laneLoaded (r : Nat) (v : BitVec 32) (w : Width) (a : Addr) : Nat :=
  (if drivesHigh w a then highByte v w else r / 256) * 256 + (if drivesLow w a then lowByte v else r % 256)

/-- `CLASS` as a number (60 R345). -/
def classNumber : FaultClass → Nat
  | .pageFault => 0
  | .userAddressOutOfRange => 1
  | .kernelAccessViolation => 2
  | .writeNotEnabled => 3

/-- The byte a physical RAM address shows: base RAM, expansion RAM, or 0xFF where none is installed (20 R86, R88). -/
def ramByteShown (s : State) (p : Nat) : Byte :=
  if p < s.cfg.params.ramSplit ∧ p < s.cfg.baseRamSize then s.byteAt .base p
  else if s.cfg.params.ramSplit ≤ p ∧ p < 0x400000 ∧ p - s.cfg.params.ramSplit < s.cfg.expRamSize then
    s.byteAt .exp (p - s.cfg.params.ramSplit)
  else 0xFF#8

/-- The bus transaction of an operation of format STIM: the supervisor input and the access. -/
def transactionOf : Instr → Option (Bool × Access)
  | .rdB sup a => some (sup, ⟨.read, .w8, a⟩)
  | .rdW sup a => some (sup, ⟨.read, .w16, a⟩)
  | .rdL sup a => some (sup, ⟨.read, .w32, a⟩)
  | .wrB sup a d => some (sup, ⟨.write (d.setWidth 32), .w8, a⟩)
  | .wrW sup a d => some (sup, ⟨.write (d.setWidth 32), .w16, a⟩)
  | .wrL sup a d => some (sup, ⟨.write d, .w32, a⟩)
  | _ => none

/-- The stub rows (42 R243, R244). -/
def stubRows : List AddrRow :=
  [.stubPhoneStatus, .stubLpStatus, .stubRtc, .stubPhone, .stubDialer, .stubLpData, .stubExpC, .stubExpD,
    .stubExpF, .stubHdc, .stubMcr2, .stubRtcData, .stubSerial, .stubModem, .stubKeyboard]

/-- The rows whose read is unmapped (42 R245). -/
def onesRows : List AddrRow := [.mcr, .clrstat, .dmaadr, .dcr, .gcr, .unmappedE]

/-- The rows whose write is discarded without a stub behind it (42 R197, R223, R226, R245). -/
def discardRows : List AddrRow := [.rom, .gsr, .bsr0, .bsr1, .unmappedE]

/-- The six step commands: does it update the track register, and which direction does it set (44 R294 to R300)? -/
def stepForm : FdcCmd → Option (Bool × Option StepDir)
  | .step => some (false, none)
  | .stepU => some (true, none)
  | .stepin => some (false, some .inward)
  | .stepinU => some (true, some .inward)
  | .stepout => some (false, some .outward)
  | .stepoutU => some (true, some .outward)
  | _ => none

/-! ### What two states share -/

/-- Every byte of every store reads the same. -/
def SameMemory (s t : State) : Prop := ∀ st i, t.byteAt st i = s.byteAt st i

/-- The fault status registers agree. -/
structure SameFaultRegs (s t : State) : Prop where
  gsr : t.gsr = s.gsr
  bsr0 : t.bsr0 = s.bsr0
  bsr1 : t.bsr1 = s.bsr1

/-- The control registers agree. -/
structure SameControl (s t : State) : Prop where
  gcr : t.gcr = s.gcr
  led : t.led = s.led
  dmaDir : t.dmaDir = s.dmaDir
  dmaCount : t.dmaCount = s.dmaCount
  dmaEn : t.dmaEn = s.dmaEn
  dmaIdmarw : t.dmaIdmarw = s.dmaIdmarw
  dmaAddr : t.dmaAddr = s.dmaAddr
  dcr : t.dcr = s.dcr

/-- The model's own fields agree, the outputs apart. -/
structure SameModel (s t : State) : Prop where
  cfg : t.cfg = s.cfg
  args : t.args = s.args
  inputs : t.inputs = s.inputs
  stubDraws : t.stubDraws = s.stubDraws

/-- A page-table entry after an access (40 R172, at the bit positions of D4): a present one gains `PS1`, and `PS0` for a write. -/
def historyAfter (e : BitVec 16) (isWrite : Bool) : BitVec 16 :=
  if e.getLsbD 14 || e.getLsbD 13 then e ||| (if isWrite then 0x6000#16 else 0x4000#16) else e

/-- Of Map RAM, only the entry of the page differs, by its access history. -/
structure HistoryOnly (s t : State) (page : BitVec 10) (isWrite : Bool) : Prop where
  entry : t.mapEntry page = historyAfter (s.mapEntry page) isWrite
  others : ∀ i, i / 2 ≠ page.toNat → t.byteAt .map i = s.byteAt .map i

/-- No byte of any store but Map RAM differs. -/
def SameMemoryButMap (s t : State) : Prop := ∀ st i, st ≠ .map → t.byteAt st i = s.byteAt st i

/-- Nothing but memory and the outputs may differ. -/
structure OnlyMemoryDiffers (s t : State) : Prop where
  faultRegs : SameFaultRegs s t
  control : SameControl s t
  model : SameModel s t
  fdc : t.fdc = s.fdc

/-- Nothing but the floppy controller and the outputs may differ. -/
structure OnlyFdcDiffers (s t : State) : Prop where
  memory : SameMemory s t
  faultRegs : SameFaultRegs s t
  control : SameControl s t
  model : SameModel s t

/-- Nothing but the outputs may differ. -/
structure Unchanged (s t : State) : Prop where
  rest : OnlyFdcDiffers s t
  fdc : t.fdc = s.fdc

/-- The medium and its buffer's capacity agree. -/
structure SameDisc (f g : Fdc) : Prop where
  image : g.image = f.image
  writable : g.writable = f.writable
  geom : g.geom = f.geom
  bufCap : g.bufCap = f.bufCap

/-- The transfer agrees, its buffer apart. -/
structure SameTransfer (f g : Fdc) : Prop where
  cur : g.cur = f.cur
  len : g.len = f.len
  wpos : g.wpos = f.wpos
  formatting : g.formatting = f.formatting

/-- The transfer buffer agrees, and the model's counters of free values. -/
structure SameBuffer (f g : Fdc) : Prop where
  buf : g.buf = f.buf
  bufGen : g.bufGen = f.bufGen
  draws : g.draws = f.draws

/-- The head position, the three registers and the step direction agree. -/
structure SamePosition (f g : Fdc) : Prop where
  track : g.track = f.track
  head : g.head = f.head
  trackReg : g.trackReg = f.trackReg
  sectorReg : g.sectorReg = f.sectorReg
  dataReg : g.dataReg = f.dataReg
  lastStepDir : g.lastStepDir = f.lastStepDir

/-- No transfer: what `close()` leaves (43 R275). -/
structure TransferClosed (f : Fdc) : Prop where
  cur : f.cur = 0
  len : f.len = 0
  wpos : f.wpos = none
  formatting : f.formatting = false

/-! ### Invariants -/

/-- The configuration keeps the bounds of 00 R12, for the RAM split and sizes, the ROM size and the format stream length.
That `VRAM_SIZE` is a power of two, and not below the four bytes of an access, is the model's bound (log 11). -/
structure Config.Ok (c : Config) : Prop where
  basePos : 0 < c.baseRamSize
  splitLe : c.params.ramSplit ≤ 0x400000
  baseLe : c.baseRamSize ≤ c.params.ramSplit
  basePages : c.baseRamSize % 4096 = 0
  expLe : c.expRamSize ≤ 0x400000 - c.params.ramSplit
  expPages : c.expRamSize % 4096 = 0
  romPow : ∃ k, k ≤ 22 ∧ c.romSize = 2 ^ k
  romWf : Memory.wf c.rom = true
  vramPow : ∃ k, 2 ≤ k ∧ k ≤ 22 ∧ c.params.vramSize = 2 ^ k
  formatPos : 0 < c.formatStreamLen

/-- The invariants of the floppy controller (10 R52, 43 R277, 45 R333). -/
structure Fdc.Inv (f : Fdc) : Prop where
  bufWf : Memory.wf f.buf = true
  curLe : f.cur ≤ f.len
  wposFormat : f.wpos.isSome = true → f.formatting = false
  notCapable : f.drqCapable = false → f.cur = f.len
  lenFits : f.formatting = false → f.len ≤ f.bufCap
  noImage : f.image = none →
    TransferClosed f ∧ f.geom = ⟨0, 0, 0, 0⟩ ∧ f.writable = false ∧ f.bufCap = 0
  someImage : ∀ img, f.image = some img →
    0 < f.geom.secsz ∧ 0 < f.geom.spt ∧ 0 < f.geom.heads ∧ 0 < f.geom.tracks ∧
      img.length = f.geom.secsz * f.geom.spt * f.geom.heads * f.geom.tracks ∧
      f.bufCap = max (f.geom.secsz * f.geom.spt) 6

/-- Every written byte of the memory has an address below the bound. -/
def keysBelow (n : Nat) (m : Memory) : Bool := m.all (fun c => c.1 < n)

/-- The invariant of the block. -/
structure State.Inv (s : State) : Prop where
  cfg : Config.Ok s.cfg
  mapWf : Memory.wf s.mapRam = true
  baseWf : Memory.wf s.bram = true
  expWf : Memory.wf s.xram = true
  vramWf : Memory.wf s.vram = true
  mapIn : keysBelow 2048 s.mapRam = true
  baseIn : keysBelow s.cfg.baseRamSize s.bram = true
  expIn : keysBelow s.cfg.expRamSize s.xram = true
  vramIn : keysBelow s.cfg.params.vramSize s.vram = true
  dmaAddr : s.dmaAddr.getLsbD 0 = false
  fdc : Fdc.Inv s.fdc

/-- A value of `BSR0` that some fault records (30 R128, D8): bits 14 and 11 are 0, and `LANE` is 00 when `W16` is 1, else
01 or 10. -/
def RecordedBsr0 (b : BitVec 16) : Prop :=
  b.getLsbD 14 = false ∧ b.getLsbD 11 = false ∧
    (b.getLsbD 15 = true → b.extractLsb' 8 2 = 0#2) ∧
    (b.getLsbD 15 = false → b.extractLsb' 8 2 = 1#2 ∨ b.extractLsb' 8 2 = 2#2)

/-- The fault status registers are idle, or hold a recorded fault: `BSR0` a value some fault records, and `GSR` its high
byte above 0xFF (30 R128 to R131, D8, D9). -/
def State.FaultSnapshot (s : State) : Prop :=
  (s.gsr = 0xFFFF#16 ∧ s.bsr0 = 0xFFFF#16 ∧ s.bsr1 = 0xFFFF#16) ∨
    (RecordedBsr0 s.bsr0 ∧ s.gsr = s.bsr0.extractLsb' 8 8 ++ 0xFF#8)

/-! ### Repeated data-register accesses -/

/-- The next state of an outcome, if it is one. -/
def nextOf : Result → Option State
  | .next t => some t
  | _ => none

/-- `n` reads of the FDC data register in a row: the values returned, and the last state. -/
def dataReads : Nat → State → Option (List ReadValue × State)
  | 0, s => some ([], s)
  | n + 1, s =>
    match nextOf (exec .fdcRdData s) with
    | none => none
    | some t =>
      match t.out.value, dataReads n t with
      | some v, some (vs, u) => some (v :: vs, u)
      | _, _ => none

/-- Writes of the FDC data register in a row, one for each byte, and the last state. -/
def dataWrites : List Byte → State → Option State
  | [], s => some s
  | b :: bs, s =>
    match nextOf (exec (.fdcWrData b) s) with
    | none => none
    | some t => dataWrites bs t

end Sys2Proof.Machine
end

