-- ==== Sys2Proof/Certificates/Slice0/Obligations.lean ====
section
/-! DEFINITION. The statements for the provers, in the order of OBLIGATIONS.json. -/

open Sys2Proof Sys2Proof.Machine

/-! ### Encoding and stepping -/

/-- Decoding the encoding of any well-formed operation gives it back, with every operand (30 §1 to §3, §7; 30 R146). -/
def Obligations.DecodeOfEncodeIsIdentity : Prop :=
  ∀ i : Instr, wellFormed i = true → decode (encode i).1 (encode i).2 = .ok i

/-- Whatever a word decodes to, the word its encoding writes decodes to it again, at the same port. -/
def Obligations.DecodedOperationReencodes : Prop :=
  ∀ (p : Port) (w : BitVec 64) (i : Instr), decode p w = .ok i →
    (encode i).1 = p ∧ decode p (encode i).2 = .ok i

/-- The row an address reaches, in the decided register map, is exactly the row of the opcode table whose mask and match
value it meets: the thirty rows partition the address space (20 §1, 42 §1 and §2; 30 R146, 42 R247; log 11). -/
def Obligations.AddressReachesTheRowOfTheTable : Prop :=
  ∀ (a : Addr) (r : AddrRow), decodeRow .decided a = r ↔ a &&& r.mask = r.pattern

/-- Some words written out from the encodings of 30 R121, R123, R137, R139 and the zone A table of 42 R221 (D15) decode to
what they stand for. That the word 0x4E0000 of an address row is an 8-bit READ, and the word 0x6 of a register row a write of
the byte 0x00, is the model's own operand layout (log 5), and so is the port each word is presented at (log 2). -/
def Obligations.SpecWordsDecodeAsWritten : Prop :=
  decode .stim 0x1800000400000000#64 = .ok (.rdW true 0x000004#24) ∧
  decode .stim 0x50085ABC00001234#64 = .ok (.wrW false 0x085ABC#24 0x1234#16) ∧
  decode .stim 0x8000000100000000#64 = .ok .dmaMiss ∧
  decode .addr 0x4E0000#64 = .ok (.dcr ⟨.read, .w8, 0x4E0000#24⟩) ∧
  decode .fdcReg 0x6#64 = .ok (.fdcWrSector 0x00#8) ∧
  decode .fdcCmd 0x92#64 = .ok (.fdcRdsecM 0x2#4)

/-- One step takes the first stimulus of the queue and runs what it decodes to, well formed or not, on the state without
it, with what travels beside the word in `args` (the model's front end, log 1 and log 19). -/
def Obligations.StepRunsTheDecodedOperation : Prop :=
  ∀ (s : State) (x : Stimulus) (xs : List Stimulus) (i : Instr),
    s.inputs = x :: xs → decode x.port x.word = .ok i →
      step s = exec i { s with inputs := xs, args := x.args }

/-- A stimulus word with `kind` = 3, or of a read or write with `siz` = 3 or a bit of 58:56 set, or of a signal with an
id of 4 or more or any other bit below `kind` set, is refused by the step (30 R121, R123; decision D41). -/
def Obligations.ReservedStimulusWordsAreRefused : Prop :=
  ∀ (s : State) (w : BitVec 64) (a : LoadArgs) (xs : List Stimulus),
    s.inputs = ⟨.stim, w, a⟩ :: xs →
    (w.toNat / 2 ^ 62 = 3 ∨
      (w.toNat / 2 ^ 62 ≤ 1 ∧ w.toNat / 2 ^ 60 % 4 = 3) ∨
      (w.toNat / 2 ^ 62 ≤ 1 ∧ w.toNat / 2 ^ 56 % 8 ≠ 0) ∨
      (w.toNat / 2 ^ 62 = 2 ∧
        (w.toNat / 2 ^ 40 % 2 ^ 22 ≠ 0 ∨ w.toNat % 2 ^ 32 ≠ 0 ∨ 4 ≤ w.toNat / 2 ^ 32 % 2 ^ 8))) →
      ∃ e, step s = .refused (.undecodable e)

/-- A 16- or 32-bit access at an odd address is refused, as a transaction and as an access of a row, whatever the mode
and the state (20 R90, decision D2; log 16). -/
def Obligations.OddWideAccessIsRefused : Prop :=
  ∀ (s : State) (acc : Access), acc.width ≠ .w8 → acc.addr.toNat % 2 = 1 →
    (∀ i sup, transactionOf i = some (sup, acc) → exec i s = .refused .misaligned) ∧
    (∀ r : AddrRow, exec (r.instr acc) s = .refused .misaligned)

/-! ### Invariants over every step -/

/-- Every step keeps the invariant of the block: canonical memories within their stores, the transfer invariants of
43 R277 and 10 R52, the image of the size its geometry says, and `DMA_ADDR[0]` = 0. -/
def Obligations.StepKeepsTheInvariant : Prop :=
  ∀ s t : State, s.Inv → step s = .next t → t.Inv

/-- The state after the first power-on meets the invariant (10 R58; its configuration is the model's, log 10, and so
are `writable` and the buffer capacity of the empty drive, log 24), and its parameters are the decided values of
00 R12 (log 11). -/
def Obligations.ResetMeetsTheInvariant : Prop := State.reset.Inv ∧ State.reset.cfg.params = .decided

/-- With the decided parameters, every step keeps the shape of the fault snapshot: idle, or a recorded fault that no idle
value can be. Recorded means: bits 14 and 11 of `BSR0` 0, `LANE` 00 for a wide access and 01 or 10 for a byte, `GSR` the
high byte of `BSR0` above 0xFF (30 R128 to R131; the layout is decision D8, `GSR` decision D9, the model's at log 11 and
log 12). -/
def Obligations.StepKeepsTheFaultSnapshotShape : Prop :=
  (∀ s t : State, s.cfg.params = .decided → s.FaultSnapshot → step s = .next t → t.FaultSnapshot) ∧ State.reset.FaultSnapshot

/-- No step changes the configuration, the parameters included, or a byte of ROM (10 R32, R43; 41 R197). -/
def Obligations.NoStepChangesConfigurationOrRom : Prop :=
  ∀ s t : State, step s = .next t → t.cfg = s.cfg ∧ ∀ i, t.byteAt .rom i = s.byteAt .rom i

/-- A user-mode transaction reaches nothing but paged RAM: without a bus error the overlay is off, the address lies from
0x080000 to 0x3FFFFF, its page is present, and for a write `WE` is 1. It changes no control register, no FDC state, no ROM
or video RAM, and pulses no `resched`; Map RAM changes only by access history, the fault registers only with a bus error,
and a RAM byte only by a write without one (60 R363, 40 R177; the bits `WE`, `PS1`, `PS0` are decision D4, the model's at
log 11). -/
def Obligations.UserTransactionReachesOnlyPagedRam : Prop :=
  ∀ (s t : State) (i : Instr) (acc : Access), s.cfg.params = .decided →
    transactionOf i = some (false, acc) → exec i s = .next t →
      (t.out.buserr = false →
        s.ovl = false ∧ 0x080000 ≤ acc.addr.toNat ∧ acc.addr.toNat < 0x400000 ∧
        ((s.mapEntry (pageOf acc.addr)).getLsbD 14 = true ∨ (s.mapEntry (pageOf acc.addr)).getLsbD 13 = true) ∧
        (isWriteDir acc.dir = true → (s.mapEntry (pageOf acc.addr)).getLsbD 15 = true)) ∧
      SameControl s t ∧ SameModel s t ∧ t.fdc = s.fdc ∧ t.out.resched = false ∧
      (∀ j, t.byteAt .rom j = s.byteAt .rom j ∧ t.byteAt .vram j = s.byteAt .vram j) ∧
      (SameMemory s t ∨ HistoryOnly s t (pageOf acc.addr) (isWriteDir acc.dir)) ∧
      (t.out.buserr = false → SameFaultRegs s t) ∧
      (∀ st j, st ≠ .map → t.byteAt st j ≠ s.byteAt st j → isWriteDir acc.dir = true ∧ t.out.buserr = false)

/-- A supervisor transaction that keeps the contract is never denied: it completes without a bus error and leaves the
fault registers to the row it reaches (40 R176, 41 R207). -/
def Obligations.SupervisorTransactionIsNeverDenied : Prop :=
  ∀ (s : State) (i : Instr) (acc : Access),
    transactionOf i = some (true, acc) → (acc.width = .w8 ∨ acc.addr.toNat % 2 = 0) →
      ∃ t, exec i s = .next t ∧ t.out.buserr = false ∧
        (decodeRow s.cfg.params.map (overlay s.ovl acc.addr) ≠ .clrstat → SameFaultRegs s t)

/-- No operation signals bus error and pulses `resched` in one transition (60 R370). -/
def Obligations.BusErrorAndReschedNeverTogether : Prop :=
  ∀ (s t : State) (i : Instr), exec i s = .next t → ¬(t.out.buserr = true ∧ t.out.resched = true)

/-! ### The MMU -/

/-- With the decided parameters, the permission check follows the precedence: supervisor bypass, range, presence, kernel
window, write enable (40 §3; that `WE`, `PS1`, `PS0` are bits 15, 14, 13 is decision D4, the model's at log 11). -/
def Obligations.CheckFollowsThePrecedence : Prop :=
  ∀ (s : State) (a : Addr) (isWrite : Bool), s.cfg.params = .decided →
    s.checkAccess a isWrite true = .allowed ∧
    (0x400000 ≤ a.toNat → s.checkAccess a isWrite false = .denied .userAddressOutOfRange) ∧
    (a.toNat < 0x400000 →
      let e := s.mapEntry (a.extractLsb' 12 10)
      let present := e.getLsbD 14 = true ∨ e.getLsbD 13 = true
      (¬present → s.checkAccess a isWrite false = .denied .pageFault) ∧
      (present → a.toNat < 0x080000 → s.checkAccess a isWrite false = .denied .kernelAccessViolation) ∧
      (present → 0x080000 ≤ a.toNat → isWrite = true → e.getLsbD 15 = false →
        s.checkAccess a isWrite false = .denied .writeNotEnabled) ∧
      (present → 0x080000 ≤ a.toNat → (isWrite = false ∨ e.getLsbD 15 = true) →
        s.checkAccess a isWrite false = .allowed))

/-- Translation below the boundary: the physical address is the page number above the offset; the entry of the page
gains its history and no other byte of any store changes; translating again gives the same address, and a second
access of the same kind changes nothing more (40 §2; the bit positions are decision D4). At or above the boundary
nothing is touched (40 R173). -/
def Obligations.TranslationSetsHistoryAndRepeats : Prop :=
  ∀ (s : State) (a : Addr) (isWrite : Bool), s.cfg.params = .decided →
    (a.toNat < 0x400000 →
      (s.physicalOf a).toNat = (s.mapEntry (pageOf a)).toNat % 1024 * 4096 + a.toNat % 4096 ∧
      HistoryOnly s (s.touch a isWrite) (pageOf a) isWrite ∧
      SameMemoryButMap s (s.touch a isWrite) ∧
      (s.touch a isWrite).physicalOf a = s.physicalOf a ∧
      ((s.touch a isWrite).touch a isWrite).mapEntry (pageOf a) = (s.touch a isWrite).mapEntry (pageOf a)) ∧
    (0x400000 ≤ a.toNat → s.touch a isWrite = s)

/-! ### The bus transactions (RD.B, RD.W, RD.L, WR.B, WR.W, WR.L) -/

/-- A denied transaction takes the bus error: the three fault registers record class, width, parity, `PIE` and the
post-overlay address, a read returns all-ones, `buserr` is set; the only other change is the access history of the
page below the boundary (60 §1 and §3, 41 §2; constants of decisions D8 and D9, the model's at log 11 and log 12). -/
def Obligations.DeniedTransactionTakesTheBusError : Prop :=
  ∀ (s : State) (i : Instr) (sup : Bool) (acc : Access) (c : FaultClass),
    s.cfg.params = .decided →
    transactionOf i = some (sup, acc) → (acc.width = .w8 ∨ acc.addr.toNat % 2 = 0) →
    s.checkAccess (overlay s.ovl acc.addr) (isWriteDir acc.dir) sup = .denied c →
      let a := overlay s.ovl acc.addr
      ∃ t, exec i s = .next t ∧
        t.bsr0.toNat =
          (if acc.width = .w8 then (if a.toNat % 2 = 0 then 0x0100 else 0x0200) else 0x8000) +
            0x1000 * classNumber c + (if s.pie then 0x0400 else 0) + a.toNat / 0x10000 ∧
        t.bsr1.toNat = a.toNat % 0x10000 ∧
        t.gsr.toNat = t.bsr0.toNat / 256 * 256 + 0xFF ∧
        t.out.buserr = true ∧ t.out.resched = false ∧ t.out.load = none ∧
        (isWriteDir acc.dir = true → t.out.value = none) ∧
        (isWriteDir acc.dir = false → ∃ v, t.out.value = some v ∧ hasWidth v acc.width = true ∧
          valueNat v = onesNat acc.width) ∧
        (a.toNat < 0x400000 → HistoryOnly s t (pageOf a) (isWriteDir acc.dir)) ∧
        (0x400000 ≤ a.toNat → SameMemory s t) ∧
        SameMemoryButMap s t ∧ SameControl s t ∧ SameModel s t ∧ t.fdc = s.fdc

/-- An allowed transaction completes as the access of the row its post-overlay address reaches (41 §1 and §2). -/
def Obligations.AllowedTransactionRunsTheRowItReaches : Prop :=
  ∀ (s : State) (i : Instr) (sup : Bool) (acc : Access),
    transactionOf i = some (sup, acc) → (acc.width = .w8 ∨ acc.addr.toNat % 2 = 0) →
    s.checkAccess (overlay s.ovl acc.addr) (isWriteDir acc.dir) sup = .allowed →
      ∃ t, exec i s = .next t ∧
        exec ((decodeRow s.cfg.params.map (overlay s.ovl acc.addr)).instr ⟨acc.dir, acc.width, overlay s.ovl acc.addr⟩) s =
          .next t

/-- While the overlay is active, a supervisor access below the boundary is served by the ROM at the same offset: a read
returns ROM bytes, a write changes nothing, and no page-table entry is touched (41 §2, 20 §6; overlay forcing is
decision D6, the ROM mask D12). -/
def Obligations.OverlayServesLowMemoryFromRom : Prop :=
  ∀ (s : State) (i : Instr) (acc : Access),
    transactionOf i = some (true, acc) → (acc.width = .w8 ∨ acc.addr.toNat % 2 = 0) →
    Config.Ok s.cfg → s.ovl = true → acc.addr.toNat < 0x400000 →
      ∃ t, exec i s = .next t ∧ Unchanged s t ∧ t.out.buserr = false ∧ t.out.resched = false ∧
        (isWriteDir acc.dir = true → t.out.value = none) ∧
        (isWriteDir acc.dir = false → ∃ v, t.out.value = some v ∧ hasWidth v acc.width = true ∧
          ∀ k, k < widthBytes acc.width →
            beByte (valueNat v) (widthBytes acc.width) k =
              s.byteAt .rom ((acc.addr.toNat + k) % s.cfg.romSize))

/-- Read after write: an allowed write of 1, 2 or 4 bytes to installed base RAM, then the same-width read of the
address in the same mode, returns the written value (41 §3). An access across the end of a page counts as installed by its
consecutive physical bytes, which is decision D5 (log 17); the split of RAM at 0x200000 is decision D11, the bits of an
entry decision D4 (log 11). -/
def Obligations.BaseRamReadAfterWriteRoundTrip : Prop :=
  ∀ (s : State) (sup : Bool) (a : Addr), s.cfg.params = .decided → s.ovl = false → a.toNat < 0x400000 →
    s.checkAccess a true sup = .allowed →
    (∀ d : BitVec 8, (s.physicalOf a).toNat < 0x200000 → (s.physicalOf a).toNat < s.cfg.baseRamSize →
      ∃ t u, exec (.wrB sup a d) s = .next t ∧ exec (.rdB sup a) t = .next u ∧
        u.out = readOut (.v8 d) false) ∧
    (∀ d : BitVec 16, a.toNat % 2 = 0 → (s.physicalOf a).toNat + 1 < 0x200000 →
      (s.physicalOf a).toNat + 1 < s.cfg.baseRamSize →
      ∃ t u, exec (.wrW sup a d) s = .next t ∧ exec (.rdW sup a) t = .next u ∧
        u.out = readOut (.v16 d) false) ∧
    (∀ d : BitVec 32, a.toNat % 2 = 0 → (s.physicalOf a).toNat + 3 < 0x200000 →
      (s.physicalOf a).toNat + 3 < s.cfg.baseRamSize →
      ∃ t u, exec (.wrL sup a d) s = .next t ∧ exec (.rdL sup a) t = .next u ∧
        u.out = readOut (.v32 d) false)

/-! ### The memory windows (RAM, ROM, MAPRAM, VRAM) -/

/-- A read of the RAM row returns the bytes at consecutive physical addresses, most significant first, each from base
RAM, expansion RAM or 0xFF; only the access history of the page changes (41 §3, 20 §3; decisions D1, D5, D11). -/
def Obligations.RamRowReadsPhysicalBytes : Prop :=
  ∀ (s : State) (w : Width) (a : Addr), s.cfg.params = .decided →
    wellFormed (.ram ⟨.read, w, a⟩) = true →
    ∃ t v, exec (.ram ⟨.read, w, a⟩) s = .next t ∧ t.out = readOut v false ∧ hasWidth v w = true ∧
      (∀ k, k < widthBytes w →
        beByte (valueNat v) (widthBytes w) k = ramByteShown s ((s.physicalOf a).toNat + k)) ∧
      HistoryOnly s t (pageOf a) false ∧ SameMemoryButMap s t ∧ OnlyMemoryDiffers s t

/-- A write of the RAM row stores the bytes of the data, most significant first, at consecutive physical addresses:
every installed byte of the access takes its byte, an absent one is dropped, and every other byte of every store is
as before but for the access history of the page (41 §3, 20 §3; decisions D1, D5, D11). -/
def Obligations.RamRowStoresPhysicalBytes : Prop :=
  ∀ (s : State) (v : BitVec 32) (w : Width) (a : Addr), s.cfg.params = .decided →
    wellFormed (.ram ⟨.write v, w, a⟩) = true →
    ∃ t, exec (.ram ⟨.write v, w, a⟩) s = .next t ∧ t.out = writeOut false ∧
      (∀ k, k < widthBytes w → ∀ st j, ramCell s.cfg ((s.physicalOf a).toNat + k) = some (st, j) →
        t.byteAt st j = beByte v.toNat (widthBytes w) k) ∧
      (∀ st j, st ≠ .map →
        (∀ k, k < widthBytes w → ramCell s.cfg ((s.physicalOf a).toNat + k) ≠ some (st, j)) →
        t.byteAt st j = s.byteAt st j) ∧
      (∀ p, ramByteShown s p = s.readCell (ramCell s.cfg p)) ∧
      HistoryOnly s t (pageOf a) true ∧ OnlyMemoryDiffers s t

/-- The ROM row: a read returns the bytes of the image, repeated through the window; a write changes nothing (41 §3;
decision D12). -/
def Obligations.RomRowReadsImageAndIgnoresWrites : Prop :=
  ∀ (s : State) (w : Width) (a : Addr), Config.Ok s.cfg →
    (wellFormed (.rom ⟨.read, w, a⟩) = true →
      ∃ t v, exec (.rom ⟨.read, w, a⟩) s = .next t ∧ t.out = readOut v false ∧ hasWidth v w = true ∧
        (∀ k, k < widthBytes w →
          beByte (valueNat v) (widthBytes w) k = s.byteAt .rom ((a.toNat + k) % s.cfg.romSize)) ∧
        Unchanged s t) ∧
    (∀ d, wellFormed (.rom ⟨.write d, w, a⟩) = true →
      ∃ t, exec (.rom ⟨.write d, w, a⟩) s = .next t ∧ t.out = writeOut false ∧ Unchanged s t)

/-- The Map RAM row reads and writes the raw bytes of the page table, wrapping every 2 KB; it sets no history bit
(41 §3; decisions D1, D13). -/
def Obligations.MapRamRowMovesRawBytes : Prop :=
  ∀ (s : State) (w : Width) (a : Addr),
    (wellFormed (.mapram ⟨.read, w, a⟩) = true →
      ∃ t v, exec (.mapram ⟨.read, w, a⟩) s = .next t ∧ t.out = readOut v false ∧ hasWidth v w = true ∧
        (∀ k, k < widthBytes w →
          beByte (valueNat v) (widthBytes w) k = s.byteAt .map ((a.toNat + k) % 2048)) ∧
        Unchanged s t) ∧
    (∀ d, wellFormed (.mapram ⟨.write d, w, a⟩) = true →
      ∃ t, exec (.mapram ⟨.write d, w, a⟩) s = .next t ∧ t.out = writeOut false ∧
        (∀ k, k < widthBytes w →
          t.byteAt .map ((a.toNat + k) % 2048) = beByte d.toNat (widthBytes w) k) ∧
        (∀ j, (∀ k, k < widthBytes w → j ≠ (a.toNat + k) % 2048) → t.byteAt .map j = s.byteAt .map j) ∧
        SameMemoryButMap s t ∧ OnlyMemoryDiffers s t)

/-- A 16-bit access of the Map RAM row reads or writes one whole entry, a 32-bit access two consecutive ones, from entry
1023 on to entry 0 (41 §3; decisions D1, D13). -/
def Obligations.WideMapRamAccessMovesWholeEntries : Prop :=
  ∀ (s : State) (a : Addr),
    let e := a.extractLsb' 1 10
    (wellFormed (.mapram ⟨.read, .w16, a⟩) = true →
      ∃ t, exec (.mapram ⟨.read, .w16, a⟩) s = .next t ∧ t.out.value = some (.v16 (s.mapEntry e))) ∧
    (wellFormed (.mapram ⟨.read, .w32, a⟩) = true →
      ∃ t, exec (.mapram ⟨.read, .w32, a⟩) s = .next t ∧
        t.out.value = some (.v32 (s.mapEntry e ++ s.mapEntry (e + 1#10)))) ∧
    (∀ d, wellFormed (.mapram ⟨.write d, .w16, a⟩) = true →
      ∃ t, exec (.mapram ⟨.write d, .w16, a⟩) s = .next t ∧ t.mapEntry e = d.extractLsb' 0 16 ∧
        ∀ p, p ≠ e → t.mapEntry p = s.mapEntry p) ∧
    (∀ d, wellFormed (.mapram ⟨.write d, .w32, a⟩) = true →
      ∃ t, exec (.mapram ⟨.write d, .w32, a⟩) s = .next t ∧ t.mapEntry e = d.extractLsb' 16 16 ∧
        t.mapEntry (e + 1#10) = d.extractLsb' 0 16 ∧
        ∀ p, p ≠ e → p ≠ e + 1#10 → t.mapEntry p = s.mapEntry p)

/-- The video RAM row reads and writes the bytes of a fixed-size buffer, wrapping at its size, the parameter `VRAM_SIZE`,
a power of two (41 §3, 20 §3; decisions D1, D14; log 11). -/
def Obligations.VramRowMovesBufferBytes : Prop :=
  ∀ (s : State) (w : Width) (a : Addr), Config.Ok s.cfg →
    let size := s.cfg.params.vramSize
    (wellFormed (.vram ⟨.read, w, a⟩) = true →
      ∃ t v, exec (.vram ⟨.read, w, a⟩) s = .next t ∧ t.out = readOut v false ∧ hasWidth v w = true ∧
        (∀ k, k < widthBytes w →
          beByte (valueNat v) (widthBytes w) k = s.byteAt .vram ((a.toNat + k) % size)) ∧
        Unchanged s t) ∧
    (∀ d, wellFormed (.vram ⟨.write d, w, a⟩) = true →
      ∃ t, exec (.vram ⟨.write d, w, a⟩) s = .next t ∧ t.out = writeOut false ∧
        (∀ k, k < widthBytes w →
          t.byteAt .vram ((a.toNat + k) % size) = beByte d.toNat (widthBytes w) k) ∧
        (∀ st j, (∀ k, k < widthBytes w → ¬(st = .vram ∧ j = (a.toNat + k) % size)) →
          t.byteAt st j = s.byteAt st j) ∧
        OnlyMemoryDiffers s t)

/-! ### Registers -/

/-- Reads of the GSR, BSR0 and BSR1 rows return the register through its lanes and change nothing (42 §1; lanes are
decision D17). -/
def Obligations.FaultRegisterReadsShowTheSnapshot : Prop :=
  ∀ (s : State) (r : AddrRow) (x : BitVec 16) (w : Width) (a : Addr),
    ((r = .gsr ∧ x = s.gsr) ∨ (r = .bsr0 ∧ x = s.bsr0) ∨ (r = .bsr1 ∧ x = s.bsr1)) →
    wellFormed (r.instr ⟨.read, w, a⟩) = true →
      ∃ t v, exec (r.instr ⟨.read, w, a⟩) s = .next t ∧ t.out = readOut v false ∧ hasWidth v w = true ∧
        valueNat v = laneSeen x.toNat w a ∧ Unchanged s t

/-- Writes of the ROM, GSR, BSR0, BSR1 and UNMAPPED_E rows complete and change nothing (41 §3, 42 §1 and §3; for the
registers decision D48). -/
def Obligations.ReadOnlyRowsDiscardWrites : Prop :=
  ∀ (s : State) (r : AddrRow) (d : BitVec 32) (w : Width) (a : Addr), r ∈ discardRows →
    wellFormed (r.instr ⟨.write d, w, a⟩) = true →
      ∃ t, exec (r.instr ⟨.write d, w, a⟩) s = .next t ∧ t.out = writeOut false ∧ Unchanged s t

/-- Reads of the MCR, CLRSTAT, DMAADR, DCR, GCR and UNMAPPED_E rows return all-ones and change nothing (42 §3; for the
write-only registers decision D48). -/
def Obligations.UnmappedReadsReturnAllOnes : Prop :=
  ∀ (s : State) (r : AddrRow) (w : Width) (a : Addr), r ∈ onesRows →
    wellFormed (r.instr ⟨.read, w, a⟩) = true →
      ∃ t v, exec (r.instr ⟨.read, w, a⟩) s = .next t ∧ t.out = readOut v false ∧ hasWidth v w = true ∧
        valueNat v = onesNat w ∧ Unchanged s t

/-- Every stub row completes, in every direction and width: a read returns some value of its width, of which nothing
else is said (the free value of log 8), a write is discarded; neither has a side effect in the block, raises bus
error or pulses `resched` (42 §3; the draw counter is the model's). -/
def Obligations.StubRowsCompleteWithoutSideEffect : Prop :=
  ∀ (s : State) (r : AddrRow) (w : Width) (a : Addr), r ∈ stubRows →
    (wellFormed (r.instr ⟨.read, w, a⟩) = true →
      ∃ t v, exec (r.instr ⟨.read, w, a⟩) s = .next t ∧ t.out = readOut v false ∧ hasWidth v w = true ∧
        t.stubDraws = s.stubDraws + 1 ∧ Unchanged { s with stubDraws := t.stubDraws } t) ∧
    (∀ d, wellFormed (r.instr ⟨.write d, w, a⟩) = true →
      ∃ t, exec (r.instr ⟨.write d, w, a⟩) s = .next t ∧ t.out = writeOut false ∧ Unchanged s t)

/-- Any write of the CLRSTAT row, of any width and data, puts the three fault registers at 0xFFFF and changes nothing
else (42 §1; that any write counts is decision D49). -/
def Obligations.ClearStatusResetsAllThree : Prop :=
  ∀ (s : State) (d : BitVec 32) (w : Width) (a : Addr), wellFormed (.clrstat ⟨.write d, w, a⟩) = true →
    ∃ t, exec (.clrstat ⟨.write d, w, a⟩) s = .next t ∧ t.out = writeOut false ∧
      t.gsr = 0xFFFF#16 ∧ t.bsr0 = 0xFFFF#16 ∧ t.bsr1 = 0xFFFF#16 ∧
      SameMemory s t ∧ SameControl s t ∧ SameModel s t ∧ t.fdc = s.fdc

/-- The DMACNT row: a read shows enable, idle flag and count through the lanes and changes nothing; a write loads the
fields of the lanes it drives and, in write-mode, the count then goes up by one mod 2^14 (42 §1; layout and dummy
cycle are decision D19, the model's at log 12). -/
def Obligations.DmaCountRowLoadsAndRunsTheDummyCycle : Prop :=
  ∀ (s : State) (w : Width) (a : Addr), s.cfg.params = .decided →
    let r := (if s.dmaEn then 32768 else 0) + (if s.dmaIdmarw then 16384 else 0) + s.dmaCount.toNat
    (wellFormed (.dmacnt ⟨.read, w, a⟩) = true →
      ∃ t v, exec (.dmacnt ⟨.read, w, a⟩) s = .next t ∧ t.out = readOut v false ∧ hasWidth v w = true ∧
        valueNat v = laneSeen r w a ∧ Unchanged s t) ∧
    (∀ d, wellFormed (.dmacnt ⟨.write d, w, a⟩) = true →
      ∃ t, exec (.dmacnt ⟨.write d, w, a⟩) s = .next t ∧ t.out = writeOut false ∧
        t.dmaEn = decide (laneLoaded r d w a / 32768 % 2 = 1) ∧
        t.dmaIdmarw = decide (laneLoaded r d w a / 16384 % 2 = 1) ∧
        t.dmaCount.toNat = (laneLoaded r d w a + (if s.dmaDir then 0 else 1)) % 16384 ∧
        t.dmaDir = s.dmaDir ∧ t.led = s.led ∧ t.gcr = s.gcr ∧ t.dcr = s.dcr ∧ t.dmaAddr = s.dmaAddr ∧
        SameMemory s t ∧ SameFaultRegs s t ∧ SameModel s t ∧ t.fdc = s.fdc)

/-- A write of the MCR row loads the DMA direction and the LEDs when it drives the high lane, else nothing (42 §1;
layout is decision D20). -/
def Obligations.MiscControlWriteLoadsDirectionAndLeds : Prop :=
  ∀ (s : State) (d : BitVec 32) (w : Width) (a : Addr), wellFormed (.mcr ⟨.write d, w, a⟩) = true →
    ∃ t, exec (.mcr ⟨.write d, w, a⟩) s = .next t ∧ t.out = writeOut false ∧
      t.dmaDir = (if drivesHigh w a then decide (highByte d w / 64 % 2 = 1) else s.dmaDir) ∧
      t.led.toNat = (if drivesHigh w a then highByte d w % 16 else s.led.toNat) ∧
      t.gcr = s.gcr ∧ t.dmaCount = s.dmaCount ∧ t.dmaEn = s.dmaEn ∧ t.dmaIdmarw = s.dmaIdmarw ∧
      t.dmaAddr = s.dmaAddr ∧ t.dcr = s.dcr ∧
      SameMemory s t ∧ SameFaultRegs s t ∧ SameModel s t ∧ t.fdc = s.fdc

/-- A write of the DMAADR row loads one half of the DMA address from the address of the write, whatever its data and
width; bit 0 is 0 (42 §1; decision D21). -/
def Obligations.DmaAddressWriteLoadsAHalfFromTheAddress : Prop :=
  ∀ (s : State) (d : BitVec 32) (w : Width) (a : Addr), wellFormed (.dmaadr ⟨.write d, w, a⟩) = true →
    ∃ t, exec (.dmaadr ⟨.write d, w, a⟩) s = .next t ∧ t.out = writeOut false ∧
      t.dmaAddr.toNat =
        (if a.toNat / 16384 % 2 = 1 then a.toNat / 2 % 8192 * 512 + s.dmaAddr.toNat % 512 / 2 * 2
        else s.dmaAddr.toNat / 512 * 512 + a.toNat / 2 % 256 * 2) ∧
      t.gcr = s.gcr ∧ t.led = s.led ∧ t.dmaDir = s.dmaDir ∧ t.dmaCount = s.dmaCount ∧ t.dmaEn = s.dmaEn ∧
      t.dmaIdmarw = s.dmaIdmarw ∧ t.dcr = s.dcr ∧
      SameMemory s t ∧ SameFaultRegs s t ∧ SameModel s t ∧ t.fdc = s.fdc

/-- A write of the DCR row that drives the low lane stores the byte and, when its bit 7 is 0, resets the FDC: position,
registers, status, IRQ and transfer, not the disc or the buffer. Driving only the high lane it changes nothing
(42 §1, 70 §1; decisions D22, D37). -/
def Obligations.DiscControlWriteResetsTheFdc : Prop :=
  ∀ (s : State) (d : BitVec 32) (w : Width) (a : Addr), s.cfg.params = .decided →
    wellFormed (.dcr ⟨.write d, w, a⟩) = true →
    ∃ t, exec (.dcr ⟨.write d, w, a⟩) s = .next t ∧ t.out = writeOut false ∧
      SameMemory s t ∧ SameFaultRegs s t ∧ SameModel s t ∧
      t.gcr = s.gcr ∧ t.led = s.led ∧ t.dmaDir = s.dmaDir ∧ t.dmaCount = s.dmaCount ∧ t.dmaEn = s.dmaEn ∧
      t.dmaIdmarw = s.dmaIdmarw ∧ t.dmaAddr = s.dmaAddr ∧
      t.dcr.toNat = (if drivesLow w a then lowByte d else s.dcr.toNat) ∧
      (drivesLow w a = false ∨ 128 ≤ lowByte d → t.fdc = s.fdc) ∧
      (drivesLow w a = true → lowByte d < 128 →
        t.fdc.track = 0 ∧ t.fdc.head = 0#1 ∧ t.fdc.trackReg = 0x00#8 ∧ t.fdc.sectorReg = 0x00#8 ∧
        t.fdc.dataReg = 0x00#8 ∧ t.fdc.status = 0x00#8 ∧ t.fdc.irq = false ∧ t.fdc.drqCapable = false ∧
        t.fdc.lastStepDir = .outward ∧ TransferClosed t.fdc ∧ SameDisc s.fdc t.fdc ∧ SameBuffer s.fdc t.fdc)

/-- A write of the GCR row that drives the high lane gives the toggle that a[14:12] selects the data bit 15, and leaves
the seven others; toggle 1 is `PIE`, toggle 3 `OVL`. Driving only the low lane it changes nothing (42 §2; decisions D7,
D23). -/
def Obligations.GeneralControlWriteSetsOneToggle : Prop :=
  ∀ (s : State) (d : BitVec 32) (w : Width) (a : Addr), wellFormed (.gcr ⟨.write d, w, a⟩) = true →
    ∃ t, exec (.gcr ⟨.write d, w, a⟩) s = .next t ∧ t.out = writeOut false ∧
      (∀ k, k < 8 → t.gcr.getLsbD k =
        (if drivesHigh w a = true ∧ k = a.toNat / 4096 % 8 then decide (128 ≤ highByte d w) else s.gcr.getLsbD k)) ∧
      t.pie = t.gcr.getLsbD 1 ∧ t.ovl = t.gcr.getLsbD 3 ∧
      t.led = s.led ∧ t.dmaDir = s.dmaDir ∧ t.dmaCount = s.dmaCount ∧ t.dmaEn = s.dmaEn ∧
      t.dmaIdmarw = s.dmaIdmarw ∧ t.dmaAddr = s.dmaAddr ∧ t.dcr = s.dcr ∧
      SameMemory s t ∧ SameFaultRegs s t ∧ SameModel s t ∧ t.fdc = s.fdc

/-- An access of the FDC window, of any width and at any byte lane, is one access of the FDC register a[2:1]: a read
returns the register's byte zero-extended, a write gives the register v[7:0] (42 §2; decisions D16, D39). -/
def Obligations.FdcWindowIsOneRegisterAccess : Prop :=
  ∀ (s : State) (w : Width) (a : Addr),
    (wellFormed (.fdcwin ⟨.read, w, a⟩) = true →
      ∃ t u b v, exec (.fdcwin ⟨.read, w, a⟩) s = .next t ∧
        exec (decodeFdcReg (0#1 ++ a.extractLsb' 1 2) 0#8) s = .next u ∧
        u.out = readOut (.v8 b) true ∧ t.out = readOut v true ∧ hasWidth v w = true ∧ valueNat v = b.toNat ∧
        t.setOut u.out = u) ∧
    (∀ d, wellFormed (.fdcwin ⟨.write d, w, a⟩) = true →
      ∃ t, exec (.fdcwin ⟨.write d, w, a⟩) s = .next t ∧
        exec (decodeFdcReg (1#1 ++ a.extractLsb' 1 2) (d.extractLsb' 0 8)) s = .next t ∧
        t.out = writeOut true)

/-! ### FDC registers -/

/-- A status read returns bits 7:2 of the stored status with DRQ and busy live, after a DRQ-capable command, or bits
7:1 with busy live, after any other; it clears the IRQ and changes nothing else (43 §2; composition is decision
D27). -/
def Obligations.StatusReadComposesAndClearsIrq : Prop :=
  ∀ s : State, s.cfg.params = .decided →
    ∃ t b, exec .fdcRdStatus s = .next t ∧ t.out = readOut (.v8 b) true ∧
      b.toNat =
        (let live := if s.fdc.cur < s.fdc.len then 1 else 0
        if s.fdc.drqCapable then s.fdc.status.toNat / 4 * 4 + 3 * live
        else s.fdc.status.toNat / 2 * 2 + live) ∧
      t.fdc = { s.fdc with irq := false } ∧ OnlyFdcDiffers s t

/-- Reads of the track and sector registers return the register, and change nothing. -/
def Obligations.TrackAndSectorReadsReturnTheRegister : Prop :=
  ∀ s : State,
    (∃ t, exec .fdcRdTrack s = .next t ∧ t.out = readOut (.v8 s.fdc.trackReg) true ∧ Unchanged s t) ∧
    (∃ t, exec .fdcRdSector s = .next t ∧ t.out = readOut (.v8 s.fdc.sectorReg) true ∧ Unchanged s t)

/-- Writes of the track register (43 R269) and of the sector register (43 R272) load the register with any byte, at any
time, and change nothing else: the head does not move. Each pulses `resched` (43 R262). -/
def Obligations.TrackAndSectorWritesLoadTheRegister : Prop :=
  ∀ (s : State) (b : Byte),
    (∃ t, exec (.fdcWrTrack b) s = .next t ∧ t.out = writeOut true ∧
      t.fdc = { s.fdc with trackReg := b } ∧ OnlyFdcDiffers s t) ∧
    (∃ t, exec (.fdcWrSector b) s = .next t ∧ t.out = writeOut true ∧
      t.fdc = { s.fdc with sectorReg := b } ∧ OnlyFdcDiffers s t)

/-- A data-register read: before the transfer length it returns the buffer byte at the cursor, whatever the direction,
and advances, with the IRQ at the last byte; at the length it returns the data register and changes nothing (43 §4;
that a buffer read does not latch is decision D40). Beyond the capacity of the buffer the byte is the free value of
log 9. -/
def Obligations.DataReadTakesTheByteAtTheCursor : Prop :=
  ∀ s : State,
    (s.fdc.cur < s.fdc.len →
      ∃ t b, exec .fdcRdData s = .next t ∧ t.out = readOut (.v8 b) true ∧
        (s.fdc.cur < s.fdc.bufCap → b = s.fdc.bufByte s.fdc.cur ∧ t.fdc.draws = s.fdc.draws) ∧
        t.fdc.cur = s.fdc.cur + 1 ∧ t.fdc.irq = (s.fdc.irq || decide (s.fdc.cur + 1 = s.fdc.len)) ∧
        t.fdc.len = s.fdc.len ∧ t.fdc.wpos = s.fdc.wpos ∧ t.fdc.formatting = s.fdc.formatting ∧
        t.fdc.buf = s.fdc.buf ∧ t.fdc.bufGen = s.fdc.bufGen ∧ t.fdc.status = s.fdc.status ∧
        t.fdc.drqCapable = s.fdc.drqCapable ∧ SamePosition s.fdc t.fdc ∧ SameDisc s.fdc t.fdc ∧
        OnlyFdcDiffers s t) ∧
    (s.fdc.len ≤ s.fdc.cur →
      ∃ t, exec .fdcRdData s = .next t ∧ t.out = readOut (.v8 s.fdc.dataReg) true ∧ Unchanged s t)

/-- A data-register write always latches the byte. With no write or format transfer open that is all; before the last
byte the byte is stored (unless formatting) and the cursor advances; at the last byte the buffer is flushed to the image
at the recorded offset (skipped when formatting), the IRQ is raised and the transfer is closed (43 §4; what the close
clears is decision D34, the fixed image size D31). -/
def Obligations.DataWriteLatchesStoresAndFlushes : Prop :=
  ∀ (s : State) (b : Byte),
    ∃ t, exec (.fdcWrData b) s = .next t ∧ t.out = writeOut true ∧ OnlyFdcDiffers s t ∧
      (¬(s.fdc.cur < s.fdc.len ∧ (s.fdc.wpos ≠ none ∨ s.fdc.formatting = true)) →
        t.fdc = { s.fdc with dataReg := b }) ∧
      (s.fdc.cur < s.fdc.len → (s.fdc.wpos ≠ none ∨ s.fdc.formatting = true) →
        t.fdc.dataReg = b ∧ t.fdc.status = s.fdc.status ∧ t.fdc.drqCapable = s.fdc.drqCapable ∧
        t.fdc.track = s.fdc.track ∧ t.fdc.head = s.fdc.head ∧ t.fdc.trackReg = s.fdc.trackReg ∧
        t.fdc.sectorReg = s.fdc.sectorReg ∧ t.fdc.lastStepDir = s.fdc.lastStepDir ∧
        t.fdc.writable = s.fdc.writable ∧ t.fdc.geom = s.fdc.geom ∧ t.fdc.bufCap = s.fdc.bufCap ∧
        t.fdc.bufGen = s.fdc.bufGen ∧ t.fdc.draws = s.fdc.draws ∧
        (∀ p, t.fdc.bufByte p =
          if s.fdc.formatting = false ∧ p = s.fdc.cur then b else s.fdc.bufByte p) ∧
        (s.fdc.cur + 1 < s.fdc.len →
          t.fdc.cur = s.fdc.cur + 1 ∧ t.fdc.len = s.fdc.len ∧ t.fdc.wpos = s.fdc.wpos ∧
          t.fdc.formatting = s.fdc.formatting ∧ t.fdc.irq = s.fdc.irq ∧ t.fdc.image = s.fdc.image) ∧
        (s.fdc.cur + 1 = s.fdc.len →
          TransferClosed t.fdc ∧ t.fdc.irq = true ∧
          (s.fdc.formatting = true → t.fdc.image = s.fdc.image) ∧
          (∀ off img, s.fdc.formatting = false → s.fdc.wpos = some off → s.fdc.image = some img →
            ∃ img', t.fdc.image = some img' ∧ img'.length = img.length ∧
              ∀ k, k < img.length →
                img'[k]? = if off ≤ k ∧ k < off + s.fdc.len then some (t.fdc.bufByte (k - off)) else img[k]?)))

/-- Read Sector, then data-register reads: the reads return the bytes of the addressed sector of the image in order, and
the IRQ is raised exactly by the last one (44 §3, 43 §4; the block address of decision D47). -/
def Obligations.ReadSectorThenDataReadsReturnTheSector : Prop :=
  ∀ (s : State) (lo : BitVec 4) (img : List Byte),
    s.cfg.params = .decided → Fdc.Inv s.fdc → s.fdc.image = some img → s.fdc.track < s.fdc.geom.tracks →
    lo.toNat / 2 % 2 < s.fdc.geom.heads → 1 ≤ s.fdc.sectorReg.toNat → s.fdc.sectorReg.toNat ≤ s.fdc.geom.spt →
      let off := ((s.fdc.track * s.fdc.geom.heads + lo.toNat / 2 % 2) * s.fdc.geom.spt +
        (s.fdc.sectorReg.toNat - 1)) * s.fdc.geom.secsz
      ∃ t, exec (.fdcRdsec lo) s = .next t ∧ t.fdc.irq = false ∧
        ∀ n, n ≤ s.fdc.geom.secsz →
          ∃ u, dataReads n t = some (((img.drop off).take n).map ReadValue.v8, u) ∧
            u.fdc.irq = decide (n = s.fdc.geom.secsz) ∧ u.fdc.image = some img

/-- Write Sector, then as many data-register writes as the sector has bytes: after the last one, and not before, the
image holds exactly those bytes at the recorded offset and is as before elsewhere, and the IRQ is raised (44 §3, 43 §4;
the block address of decision D47, the close of D34). -/
def Obligations.WriteSectorThenDataWritesFillTheSector : Prop :=
  ∀ (s : State) (lo : BitVec 4) (img bytes : List Byte),
    s.cfg.params = .decided → Fdc.Inv s.fdc → s.fdc.image = some img → s.fdc.writable = true → s.fdc.track < s.fdc.geom.tracks →
    lo.toNat / 2 % 2 < s.fdc.geom.heads → 1 ≤ s.fdc.sectorReg.toNat → s.fdc.sectorReg.toNat ≤ s.fdc.geom.spt →
    bytes.length = s.fdc.geom.secsz →
      let off := ((s.fdc.track * s.fdc.geom.heads + lo.toNat / 2 % 2) * s.fdc.geom.spt +
        (s.fdc.sectorReg.toNat - 1)) * s.fdc.geom.secsz
      ∃ t, exec (.fdcWrsec lo) s = .next t ∧ t.fdc.irq = false ∧
        (∀ n, n < bytes.length →
          ∃ u, dataWrites (bytes.take n) t = some u ∧ u.fdc.image = some img ∧ u.fdc.irq = false) ∧
        ∃ u img', dataWrites bytes t = some u ∧ u.fdc.image = some img' ∧ u.fdc.irq = true ∧
          TransferClosed u.fdc ∧ img'.length = img.length ∧
          ∀ k, k < img.length →
            img'[k]? = if off ≤ k ∧ k < off + bytes.length then bytes[k - off]? else img[k]?

/-- A write of the command register completes as the command that the top nibble of the byte names, with its low
nibble (43 §2, 44 §1; the codes are decision D24, that a command operation is this write is the model's, log 3). -/
def Obligations.CommandWriteRunsTheNamedCommand : Prop :=
  ∀ (s : State) (b : Byte),
    ∃ t, exec (.fdcWrCommand b) s = .next t ∧ t.out = writeOut true ∧ OnlyFdcDiffers s t ∧
      exec ((decodeCmd s.cfg.params.fdc b).instr (b.extractLsb' 0 4)) s = .next t

/-! ### FDC commands -/

/-- Without an image every command sets status 0x80 and the IRQ and changes nothing else; and whether the IRQ was pending
before a command makes no difference to what any command does, with an image or without. -/
def Obligations.CommandClearsIrqAndWithoutImageReportsNotReady : Prop :=
  ∀ (s : State) (c : FdcCmd) (lo : BitVec 4),
    (s.fdc.image = none →
      ∃ t, exec (c.instr lo) s = .next t ∧ t.out = writeOut true ∧
        t.fdc = { s.fdc with status := 0x80#8, irq := true } ∧ OnlyFdcDiffers s t) ∧
    (∀ p : Bool, exec (c.instr lo) { s with fdc := { s.fdc with irq := p } } = exec (c.instr lo) s)

/-- Restore: track and track register 0, status head loaded and track zero, the IRQ, the transfer closed (44 §2; bit
values of decision D26, the close of D34). -/
def Obligations.RestoreGoesToTrackZero : Prop :=
  ∀ (s : State) (lo : BitVec 4), s.cfg.params = .decided → s.fdc.image ≠ none →
    ∃ t, exec (.fdcRestore lo) s = .next t ∧ t.out = writeOut true ∧
      t.fdc.track = 0 ∧ t.fdc.trackReg = 0x00#8 ∧ t.fdc.status = 0x24#8 ∧ t.fdc.irq = true ∧
      t.fdc.drqCapable = false ∧ TransferClosed t.fdc ∧
      t.fdc.head = s.fdc.head ∧ t.fdc.sectorReg = s.fdc.sectorReg ∧ t.fdc.dataReg = s.fdc.dataReg ∧
      t.fdc.lastStepDir = s.fdc.lastStepDir ∧ SameDisc s.fdc t.fdc ∧ SameBuffer s.fdc t.fdc ∧ OnlyFdcDiffers s t

/-- Seek moves to the track in the data register when it is within the geometry, and raises seek-error otherwise; with the
fall-through parameter the head then steps once more, with clamping and the update (44 §2; decisions D26, D29, D30,
D34, D47). -/
def Obligations.SeekMovesWithinTheGeometry : Prop :=
  ∀ (s : State) (lo : BitVec 4), s.cfg.params = .decided → s.fdc.image ≠ none → 0 < s.fdc.geom.tracks →
    let moved : Nat := if s.fdc.dataReg.toNat < s.fdc.geom.tracks then s.fdc.dataReg.toNat else s.fdc.track
    let stepped : Int := (moved : Int) + s.fdc.lastStepDir.toInt
    let seekerr : Bool :=
      !decide (s.fdc.dataReg.toNat < s.fdc.geom.tracks) ||
        (s.cfg.seekFallthrough && decide ((s.fdc.geom.tracks : Int) - 1 < stepped))
    ∃ t, exec (.fdcSeek lo) s = .next t ∧ t.out = writeOut true ∧
      (s.cfg.seekFallthrough = false →
        t.fdc.track = moved ∧
        t.fdc.trackReg = if s.fdc.dataReg.toNat < s.fdc.geom.tracks then s.fdc.dataReg else s.fdc.trackReg) ∧
      (s.cfg.seekFallthrough = true →
        (t.fdc.track : Int) = min (max stepped 0) ((s.fdc.geom.tracks : Int) - 1) ∧
        t.fdc.trackReg = BitVec.ofNat 8 t.fdc.track) ∧
      t.fdc.status.toNat = 0x20 + (if t.fdc.track = 0 then 0x04 else 0) + (if seekerr then 0x10 else 0) ∧
      t.fdc.irq = true ∧ t.fdc.drqCapable = false ∧ TransferClosed t.fdc ∧
      t.fdc.head = s.fdc.head ∧ t.fdc.sectorReg = s.fdc.sectorReg ∧ t.fdc.dataReg = s.fdc.dataReg ∧
      t.fdc.lastStepDir = s.fdc.lastStepDir ∧ SameDisc s.fdc t.fdc ∧ SameBuffer s.fdc t.fdc ∧ OnlyFdcDiffers s t

/-- The six step commands: one track in the direction the command sets, or the remembered one, clamped to the geometry,
seek-error exactly at the top; the update forms copy the new track into the track register (44 §2; decisions D26, D34,
D47, D53). -/
def Obligations.StepCommandsMoveOneTrackWithClamping : Prop :=
  ∀ (s : State) (c : FdcCmd) (u : Bool) (d : Option StepDir) (lo : BitVec 4),
    s.cfg.params = .decided →
    stepForm c = some (u, d) → s.fdc.image ≠ none → 0 < s.fdc.geom.tracks →
      let dir := d.getD s.fdc.lastStepDir
      let target : Int := (s.fdc.track : Int) + dir.toInt
      ∃ t, exec (c.instr lo) s = .next t ∧ t.out = writeOut true ∧
        (t.fdc.track : Int) = min (max target 0) ((s.fdc.geom.tracks : Int) - 1) ∧
        t.fdc.trackReg = (if u then BitVec.ofNat 8 t.fdc.track else s.fdc.trackReg) ∧
        t.fdc.lastStepDir = dir ∧
        t.fdc.status.toNat = 0x20 + (if t.fdc.track = 0 then 0x04 else 0) +
          (if (s.fdc.geom.tracks : Int) - 1 < target then 0x10 else 0) ∧
        t.fdc.irq = true ∧ t.fdc.drqCapable = false ∧ TransferClosed t.fdc ∧
        t.fdc.head = s.fdc.head ∧ t.fdc.sectorReg = s.fdc.sectorReg ∧ t.fdc.dataReg = s.fdc.dataReg ∧
        SameDisc s.fdc t.fdc ∧ SameBuffer s.fdc t.fdc ∧ OnlyFdcDiffers s t

/-- Write Sector, Write Sector Multiple and Format Track on a write-protected image: status 0x40, the IRQ, DRQ-capable;
nothing else changes, the head select and an open transfer included (44 §3; decisions D26, D33). -/
def Obligations.WriteProtectTurnsWriteCommandsAway : Prop :=
  ∀ (s : State) (c : FdcCmd) (lo : BitVec 4), s.cfg.params = .decided →
    (c = .wrsec ∨ c = .wrsecM ∨ c = .fmttrk) → s.fdc.image ≠ none → s.fdc.writable = false →
      ∃ t, exec (c.instr lo) s = .next t ∧ t.out = writeOut true ∧
        t.fdc = { s.fdc with drqCapable := true, status := 0x40#8, irq := true } ∧ OnlyFdcDiffers s t

/-- Read Address opens a read transfer of six bytes: track, head, sector register, size code, two zero bytes (44 §3,
30 §7; the zero bytes are decision D26). -/
def Obligations.ReadAddressOpensTheIdRecord : Prop :=
  ∀ (s : State) (lo : BitVec 4), s.cfg.params = .decided → s.fdc.image ≠ none →
    ∃ t, exec (.fdcRdaddr lo) s = .next t ∧ t.out = writeOut true ∧
      t.fdc.head.toNat = lo.toNat / 2 % 2 ∧
      t.fdc.cur = 0 ∧ t.fdc.len = 6 ∧ t.fdc.wpos = none ∧ t.fdc.formatting = false ∧
      t.fdc.status = 0x00#8 ∧ t.fdc.irq = false ∧ t.fdc.drqCapable = true ∧
      t.fdc.bufByte 0 = BitVec.ofNat 8 s.fdc.track ∧ (t.fdc.bufByte 1).toNat = lo.toNat / 2 % 2 ∧
      t.fdc.bufByte 2 = s.fdc.sectorReg ∧
      t.fdc.bufByte 3 =
        (if s.fdc.geom.secsz = 128 then 0#8 else if s.fdc.geom.secsz = 256 then 1#8
        else if s.fdc.geom.secsz = 512 then 2#8 else if s.fdc.geom.secsz = 1024 then 3#8 else 0xFF#8) ∧
      t.fdc.bufByte 4 = 0#8 ∧ t.fdc.bufByte 5 = 0#8 ∧ (∀ p, 6 ≤ p → t.fdc.bufByte p = s.fdc.bufByte p) ∧
      t.fdc.track = s.fdc.track ∧ t.fdc.trackReg = s.fdc.trackReg ∧ t.fdc.sectorReg = s.fdc.sectorReg ∧
      t.fdc.dataReg = s.fdc.dataReg ∧ t.fdc.lastStepDir = s.fdc.lastStepDir ∧
      t.fdc.bufGen = s.fdc.bufGen ∧ t.fdc.draws = s.fdc.draws ∧ SameDisc s.fdc t.fdc ∧ OnlyFdcDiffers s t

/-- Read Sector and Read Sector Multiple at a position of the geometry open a read transfer of the image's bytes from the
block address, one sector or as many as a track has, short at the end of the image (44 §3; decisions D25, D26, D31,
D47). -/
def Obligations.ReadSectorOpensTheImageBytes : Prop :=
  ∀ (s : State) (c : FdcCmd) (n : Nat) (lo : BitVec 4) (img : List Byte), s.cfg.params = .decided →
    ((c = .rdsec ∧ n = 1) ∨ (c = .rdsecM ∧ n = s.fdc.geom.spt)) → s.fdc.image = some img →
    s.fdc.track < s.fdc.geom.tracks → lo.toNat / 2 % 2 < s.fdc.geom.heads →
    1 ≤ s.fdc.sectorReg.toNat → s.fdc.sectorReg.toNat ≤ s.fdc.geom.spt →
      let off := ((s.fdc.track * s.fdc.geom.heads + lo.toNat / 2 % 2) * s.fdc.geom.spt +
        (s.fdc.sectorReg.toNat - 1)) * s.fdc.geom.secsz
      ∃ t, exec (c.instr lo) s = .next t ∧ t.out = writeOut true ∧
        t.fdc.head.toNat = lo.toNat / 2 % 2 ∧
        t.fdc.cur = 0 ∧ t.fdc.len = min (n * s.fdc.geom.secsz) (img.length - off) ∧
        t.fdc.wpos = none ∧ t.fdc.formatting = false ∧
        t.fdc.status = 0x00#8 ∧ t.fdc.irq = false ∧ t.fdc.drqCapable = true ∧
        (∀ p, p < t.fdc.len → img[off + p]? = some (t.fdc.bufByte p)) ∧
        (∀ p, t.fdc.len ≤ p → t.fdc.bufByte p = s.fdc.bufByte p) ∧
        t.fdc.track = s.fdc.track ∧ t.fdc.trackReg = s.fdc.trackReg ∧ t.fdc.sectorReg = s.fdc.sectorReg ∧
        t.fdc.dataReg = s.fdc.dataReg ∧ t.fdc.lastStepDir = s.fdc.lastStepDir ∧
        t.fdc.bufGen = s.fdc.bufGen ∧ t.fdc.draws = s.fdc.draws ∧ SameDisc s.fdc t.fdc ∧ OnlyFdcDiffers s t

/-- Read Sector and Read Sector Multiple outside the geometry, and Read Track anywhere: status record-not-found, the IRQ,
the head select and DRQ-capable; an open transfer is left as it is (44 §3; decisions D25, D26, D33). -/
def Obligations.RecordNotFoundLeavesTheTransfer : Prop :=
  ∀ (s : State) (c : FdcCmd) (lo : BitVec 4), s.cfg.params = .decided → s.fdc.image ≠ none →
    (c = .rdtrk ∨ ((c = .rdsec ∨ c = .rdsecM) ∧
      ¬(s.fdc.track < s.fdc.geom.tracks ∧ lo.toNat / 2 % 2 < s.fdc.geom.heads ∧
        1 ≤ s.fdc.sectorReg.toNat ∧ s.fdc.sectorReg.toNat ≤ s.fdc.geom.spt))) →
      ∃ t, exec (c.instr lo) s = .next t ∧ t.out = writeOut true ∧
        t.fdc = { s.fdc with
          head := BitVec.ofNat 1 (lo.toNat / 2), drqCapable := true, status := 0x10#8, irq := true } ∧
        OnlyFdcDiffers s t

/-- Write Sector and Write Sector Multiple open a write transfer of one sector's bytes, or a track's, at the block address,
without validation; a negative offset leaves no write target (44 §3; decisions D25, D26, D31, D32, D47). -/
def Obligations.WriteSectorOpensAWriteTransfer : Prop :=
  ∀ (s : State) (c : FdcCmd) (n : Nat) (lo : BitVec 4), s.cfg.params = .decided →
    ((c = .wrsec ∧ n = 1) ∨ (c = .wrsecM ∧ n = s.fdc.geom.spt)) → s.fdc.image ≠ none → s.fdc.writable = true →
      let off : Int := (((s.fdc.track : Int) * s.fdc.geom.heads + (lo.toNat / 2 % 2 : Nat)) * s.fdc.geom.spt +
        s.fdc.sectorReg.toNat - 1) * s.fdc.geom.secsz
      ∃ t, exec (c.instr lo) s = .next t ∧ t.out = writeOut true ∧
        t.fdc.head.toNat = lo.toNat / 2 % 2 ∧
        t.fdc.cur = 0 ∧ t.fdc.len = n * s.fdc.geom.secsz ∧
        (0 ≤ off → ∃ o, t.fdc.wpos = some o ∧ (o : Int) = off) ∧ (off < 0 → t.fdc.wpos = none) ∧
        t.fdc.formatting = false ∧ t.fdc.status = 0x00#8 ∧ t.fdc.irq = false ∧ t.fdc.drqCapable = true ∧
        t.fdc.track = s.fdc.track ∧ t.fdc.trackReg = s.fdc.trackReg ∧ t.fdc.sectorReg = s.fdc.sectorReg ∧
        t.fdc.dataReg = s.fdc.dataReg ∧ t.fdc.lastStepDir = s.fdc.lastStepDir ∧
        SameBuffer s.fdc t.fdc ∧ SameDisc s.fdc t.fdc ∧ OnlyFdcDiffers s t

/-- Format Track opens a format transfer of the configured length, whose bytes are counted and never stored (44 §3; the
length is the OPEN parameter of decision D35, log 10). -/
def Obligations.FormatTrackOpensAFormatTransfer : Prop :=
  ∀ (s : State) (lo : BitVec 4), s.cfg.params = .decided → s.fdc.image ≠ none → s.fdc.writable = true →
    ∃ t, exec (.fdcFmttrk lo) s = .next t ∧ t.out = writeOut true ∧
      t.fdc.head.toNat = lo.toNat / 2 % 2 ∧
      t.fdc.cur = 0 ∧ t.fdc.len = s.cfg.formatStreamLen ∧ t.fdc.wpos = none ∧ t.fdc.formatting = true ∧
      t.fdc.status = 0x00#8 ∧ t.fdc.irq = false ∧ t.fdc.drqCapable = true ∧
      t.fdc.track = s.fdc.track ∧ t.fdc.trackReg = s.fdc.trackReg ∧ t.fdc.sectorReg = s.fdc.sectorReg ∧
      t.fdc.dataReg = s.fdc.dataReg ∧ t.fdc.lastStepDir = s.fdc.lastStepDir ∧
      SameBuffer s.fdc t.fdc ∧ SameDisc s.fdc t.fdc ∧ OnlyFdcDiffers s t

/-- Force Interrupt closes any transfer, rebuilds the status from write-protect and track-zero state, and raises the IRQ
exactly when bit 3 of the command is 1 (44 §3; decisions D25, D34, D36). -/
def Obligations.ForceInterruptClosesTheTransfer : Prop :=
  ∀ (s : State) (lo : BitVec 4), s.cfg.params = .decided → s.fdc.image ≠ none →
    ∃ t, exec (.fdcForceint lo) s = .next t ∧ t.out = writeOut true ∧
      TransferClosed t.fdc ∧ t.fdc.irq = decide (8 ≤ lo.toNat) ∧ t.fdc.drqCapable = true ∧
      t.fdc.status.toNat =
        0x20 + (if s.fdc.writable then 0 else 0x40) + (if s.fdc.track = 0 then 0x04 else 0) ∧
      SamePosition s.fdc t.fdc ∧ SameDisc s.fdc t.fdc ∧ SameBuffer s.fdc t.fdc ∧ OnlyFdcDiffers s t

/-! ### Signals -/

/-- RESET: fault registers all-ones, the overlay on and the other toggles off, the control registers zero, the FDC reset;
every store, the disc and the buffer are unchanged (70 §1; the values are decisions D7, D10, D37, D44). -/
def Obligations.ResetSignalRestoresTheRegisters : Prop :=
  ∀ s : State, s.cfg.params = .decided →
    ∃ t, exec .reset s = .next t ∧ t.out = writeOut false ∧
      t.gsr = 0xFFFF#16 ∧ t.bsr0 = 0xFFFF#16 ∧ t.bsr1 = 0xFFFF#16 ∧
      (∀ k, k < 8 → t.gcr.getLsbD k = decide (k = 3)) ∧ t.ovl = true ∧ t.pie = false ∧
      t.led = 0#4 ∧ t.dmaDir = false ∧ t.dmaCount = 0#14 ∧ t.dmaEn = false ∧ t.dmaIdmarw = false ∧
      t.dmaAddr = 0#22 ∧ t.dcr = 0x00#8 ∧
      t.fdc.track = 0 ∧ t.fdc.head = 0#1 ∧ t.fdc.trackReg = 0x00#8 ∧ t.fdc.sectorReg = 0x00#8 ∧
      t.fdc.dataReg = 0x00#8 ∧ t.fdc.status = 0x00#8 ∧ t.fdc.irq = false ∧ t.fdc.drqCapable = false ∧
      t.fdc.lastStepDir = .outward ∧ TransferClosed t.fdc ∧ SameDisc s.fdc t.fdc ∧ SameBuffer s.fdc t.fdc ∧
      SameMemory s t ∧ SameModel s t

/-- DMA_MISS closes the transfer, sets the status to lost-data and raises the IRQ, at any time (43 §4; decisions D26, D34,
D54). -/
def Obligations.DmaMissClosesWithLostData : Prop :=
  ∀ s : State, s.cfg.params = .decided →
    ∃ t, exec .dmaMiss s = .next t ∧ t.out = writeOut false ∧
      TransferClosed t.fdc ∧ t.fdc.status = 0x04#8 ∧ t.fdc.irq = true ∧
      t.fdc.drqCapable = s.fdc.drqCapable ∧ SamePosition s.fdc t.fdc ∧ SameDisc s.fdc t.fdc ∧
      SameBuffer s.fdc t.fdc ∧ OnlyFdcDiffers s t

/-- IMG_LOAD with the arguments beside the word: with no zero factor and a size that is a positive multiple of a cylinder
the image is loaded, its track count computed, and the buffer is new: every position holds the free value of the next
draw (log 9). Otherwise BadGeometry, and no image is loaded. A loaded image is unloaded first: the transfer is closed, and
if nothing replaces it the geometry is zero, `writable` 0 and the buffer freed; in an empty drive the transfer is kept. The
FDC's position, registers, status and IRQ are kept either way (45; decisions D34, D38). -/
def Obligations.ImageLoadChecksTheGeometry : Prop :=
  ∀ s : State,
    let a := s.args
    let cyl := a.secsz * a.spt * a.heads
    (cyl ≠ 0 → a.bytes ≠ [] → a.bytes.length % cyl = 0 →
      ∃ t, exec .imgLoad s = .next t ∧
        t.out = { value := none, buserr := false, resched := false, load := some .ok } ∧
        t.fdc.image = some a.bytes ∧ t.fdc.writable = a.writable ∧
        t.fdc.geom = ⟨a.secsz, a.spt, a.heads, a.bytes.length / cyl⟩ ∧
        t.fdc.bufCap = max (a.secsz * a.spt) 6 ∧
        (∀ p, t.fdc.bufByte p = Config.bufferByte s.fdc.draws p) ∧ t.fdc.draws = s.fdc.draws + 1 ∧
        SamePosition s.fdc t.fdc ∧ t.fdc.status = s.fdc.status ∧ t.fdc.irq = s.fdc.irq ∧
        t.fdc.drqCapable = s.fdc.drqCapable ∧
        (s.fdc.image ≠ none → TransferClosed t.fdc) ∧ (s.fdc.image = none → SameTransfer s.fdc t.fdc) ∧
        OnlyFdcDiffers s t) ∧
    (cyl = 0 ∨ a.bytes = [] ∨ a.bytes.length % cyl ≠ 0 →
      ∃ t, exec .imgLoad s = .next t ∧
        t.out = { value := none, buserr := false, resched := false, load := some .badGeometry } ∧
        t.fdc.image = none ∧ (s.fdc.image = none → t.fdc = s.fdc) ∧
        (s.fdc.image ≠ none →
          t.fdc.geom = ⟨0, 0, 0, 0⟩ ∧ t.fdc.writable = false ∧ t.fdc.bufCap = 0 ∧ t.fdc.buf = [] ∧
          TransferClosed t.fdc) ∧
        SamePosition s.fdc t.fdc ∧ t.fdc.status = s.fdc.status ∧ t.fdc.irq = s.fdc.irq ∧
        t.fdc.drqCapable = s.fdc.drqCapable ∧ OnlyFdcDiffers s t)

/-- IMG_UNLOAD removes the image, zeroes the geometry and closes the transfer; position, registers, status and IRQ are
kept, and with no image loaded nothing changes (45; decisions D34, D38). -/
def Obligations.ImageUnloadDropsTheDisc : Prop :=
  ∀ s : State,
    ∃ t, exec .imgUnload s = .next t ∧ t.out = writeOut false ∧ t.fdc.image = none ∧
      (s.fdc.image ≠ none →
        t.fdc.geom = ⟨0, 0, 0, 0⟩ ∧ t.fdc.writable = false ∧ t.fdc.bufCap = 0 ∧ t.fdc.buf = [] ∧ TransferClosed t.fdc) ∧
      (s.fdc.image = none → t.fdc = s.fdc) ∧
      SamePosition s.fdc t.fdc ∧ t.fdc.status = s.fdc.status ∧ t.fdc.irq = s.fdc.irq ∧
      t.fdc.drqCapable = s.fdc.drqCapable ∧ OnlyFdcDiffers s t
end

