-- ==== Sys2Proof/Laws/Memory.lean ====
section
/-! SUPPORT. The laws of memories in canonical form: reading after writing, and that writing keeps the form. -/

namespace Sys2Proof.Machine

/-! ### Reading after writing -/

/-- Reading the address just written gives the byte written. -/
@[simp] theorem memGet_memSet_same (m : Memory) (a : Nat) (v : Byte) : memGet (memSet m a v) a = some v := by
  induction m with
  | nil => simp [memSet, memGet]
  | cons c m ih =>
    obtain ⟨k, u⟩ := c
    simp only [memSet]
    split_ifs with h1 h2
    · simp [memGet]
    · simp [memGet]
    · simp [memGet, h2, ih]

/-- Reading another address gives what it gave before the write. -/
theorem memGet_memSet_other (m : Memory) {a b : Nat} (v : Byte) (h : b ≠ a) :
    memGet (memSet m a v) b = memGet m b := by
  induction m with
  | nil => simp [memSet, memGet, h]
  | cons c m ih =>
    obtain ⟨k, u⟩ := c
    simp only [memSet]
    split_ifs with h1 h2
    · simp [memGet, h]
    · subst h2; simp [memGet, h]
    · simp [memGet, ih]

/-- Both cases of a read after a write. -/
theorem memGet_memSet (m : Memory) (a b : Nat) (v : Byte) :
    memGet (memSet m a v) b = if b = a then some v else memGet m b := by
  split_ifs with h
  · subst h; simp
  · exact memGet_memSet_other m v h

/-! ### The canonical form is kept -/

theorem risesFrom_mono {lo lo' : Nat} {m : Memory} (h : lo' ≤ lo) (hm : risesFrom lo m = true) :
    risesFrom lo' m = true := by
  cases m with
  | nil => rfl
  | cons c m =>
    simp only [risesFrom, Bool.and_eq_true, decide_eq_true_eq] at hm ⊢
    exact ⟨h.trans hm.1, hm.2⟩

theorem risesFrom_memSet {lo a : Nat} {m : Memory} (v : Byte) (ha : lo ≤ a) (hm : risesFrom lo m = true) :
    risesFrom lo (memSet m a v) = true := by
  induction m generalizing lo with
  | nil => simp [memSet, risesFrom, ha]
  | cons c m ih =>
    obtain ⟨k, u⟩ := c
    simp only [risesFrom, Bool.and_eq_true, decide_eq_true_eq] at hm
    simp only [memSet]
    split_ifs with h1 h2
    · simp only [risesFrom, Bool.and_eq_true, decide_eq_true_eq]
      exact ⟨ha, h1, hm.2⟩
    · subst h2
      simp only [risesFrom, Bool.and_eq_true, decide_eq_true_eq]
      exact ⟨ha, hm.2⟩
    · simp only [risesFrom, Bool.and_eq_true, decide_eq_true_eq]
      exact ⟨hm.1, ih (by omega) hm.2⟩

/-- Writing a byte keeps the canonical form. -/
theorem memSet_wf {m : Memory} (a : Nat) (v : Byte) (hm : Memory.wf m = true) :
    Memory.wf (memSet m a v) = true :=
  risesFrom_memSet v (Nat.zero_le a) hm

/-- Writing a byte below a bound keeps every listed address below it. -/
theorem memSet_all_below {n a : Nat} {m : Memory} (v : Byte) (ha : a < n)
    (hm : m.all (fun c => decide (c.1 < n)) = true) : (memSet m a v).all (fun c => decide (c.1 < n)) = true := by
  induction m with
  | nil => simp [memSet, ha]
  | cons c m ih =>
    obtain ⟨k, u⟩ := c
    simp only [List.all_cons, Bool.and_eq_true, decide_eq_true_eq] at hm
    simp only [memSet]
    split_ifs with h1 h2
    · simp only [List.all_cons, Bool.and_eq_true, decide_eq_true_eq]; exact ⟨ha, hm⟩
    · simp only [List.all_cons, Bool.and_eq_true, decide_eq_true_eq]; exact ⟨ha, hm.2⟩
    · simp only [List.all_cons, Bool.and_eq_true, decide_eq_true_eq]; exact ⟨hm.1, ih hm.2⟩

/-- Two memories in canonical form that read the same at every address are the same list of cells. -/
theorem memGet_below {lo a : Nat} {m : Memory} (hm : risesFrom lo m = true) (h : a < lo) : memGet m a = none := by
  induction m generalizing lo with
  | nil => rfl
  | cons c m ih =>
    obtain ⟨k, u⟩ := c
    simp only [risesFrom, Bool.and_eq_true, decide_eq_true_eq] at hm
    have hk : a ≠ k := by omega
    simp [memGet, hk, ih hm.2 (by omega)]

theorem memory_ext {lo : Nat} {m m' : Memory} (hm : risesFrom lo m = true) (hm' : risesFrom lo m' = true)
    (h : ∀ a, memGet m a = memGet m' a) : m = m' := by
  induction m generalizing lo m' with
  | nil =>
    cases m' with
    | nil => rfl
    | cons c m' => obtain ⟨k, u⟩ := c; have := h k; simp [memGet] at this
  | cons c m ih =>
    obtain ⟨k, u⟩ := c
    cases m' with
    | nil => have := h k; simp [memGet] at this
    | cons c' m' =>
      obtain ⟨k', u'⟩ := c'
      simp only [risesFrom, Bool.and_eq_true, decide_eq_true_eq] at hm hm'
      have hk : k = k' := by
        have h1 := h k
        have h2 := h k'
        by_contra hne
        rcases Nat.lt_or_gt_of_ne hne with hlt | hgt
        · have : memGet ((k', u') :: m') k = none := by
            simp [memGet, hne, memGet_below hm'.2 (by omega : k < k' + 1)]
          rw [this] at h1; simp [memGet] at h1
        · have : memGet ((k, u) :: m) k' = none := by
            simp [memGet, Ne.symm hne, memGet_below hm.2 (by omega : k' < k + 1)]
          rw [this] at h2; simp [memGet] at h2
      subst hk
      have hu : u = u' := by have := h k; simpa [memGet] using this
      subst hu
      congr 1
      refine ih hm.2 hm'.2 (fun a => ?_)
      by_cases ha : a = k
      · subst ha; rw [memGet_below hm.2 (by omega), memGet_below hm'.2 (by omega)]
      · have := h a; simpa [memGet, ha] using this

/-! ### Bytes of the stores -/

@[simp] theorem store_base (s : State) : s.store .base = s.bram := rfl
@[simp] theorem store_exp (s : State) : s.store .exp = s.xram := rfl
@[simp] theorem store_rom (s : State) : s.store .rom = s.cfg.rom := rfl
@[simp] theorem store_vram (s : State) : s.store .vram = s.vram := rfl
@[simp] theorem store_map (s : State) : s.store .map = s.mapRam := rfl

/-- Replacing one store leaves every other as it was. -/
theorem store_setStore_other (s : State) {st st' : Store} (m : Memory) (h : st' ≠ st) :
    (s.setStore st m).store st' = s.store st' := by
  cases st <;> cases st' <;> first | rfl | exact absurd rfl h

/-- A store other than ROM holds the memory put behind it. -/
theorem store_setStore_same (s : State) {st : Store} (m : Memory) (h : st ≠ .rom) :
    (s.setStore st m).store st = m := by
  cases st <;> first | rfl | exact absurd rfl h

/-- The byte just written, in a store other than ROM. -/
theorem byteAt_putByte_same (s : State) {st : Store} (i : Nat) (v : Byte) (h : st ≠ .rom) :
    (s.putByte st i v).byteAt st i = v := by
  simp [State.byteAt, State.putByte, store_setStore_same _ _ h]

/-- Every other byte of every store reads as before. -/
theorem byteAt_putByte_other (s : State) {st st' : Store} {i j : Nat} (v : Byte) (h : ¬(st' = st ∧ j = i)) :
    (s.putByte st i v).byteAt st' j = s.byteAt st' j := by
  simp only [State.byteAt, State.putByte]
  by_cases hst : st' = st
  · subst hst
    by_cases hr : st' = .rom
    · subst hr; rfl
    · rw [store_setStore_same _ _ hr, memGet_memSet_other _ _ (fun e => h ⟨rfl, e⟩)]
  · rw [store_setStore_other _ _ hst]

/-- What a read of any byte gives after a byte of a store is written. -/
theorem byteAt_putByte (s : State) (st st' : Store) (i j : Nat) (v : Byte) :
    (s.putByte st i v).byteAt st' j = if st' = st ∧ j = i ∧ st ≠ .rom then v else s.byteAt st' j := by
  by_cases h : st' = st ∧ j = i
  · obtain ⟨rfl, rfl⟩ := h
    by_cases hr : st' = .rom
    · subst hr; simp; rfl
    · simp [byteAt_putByte_same _ _ _ hr, hr]
  · rw [byteAt_putByte_other _ _ h, if_neg (fun e => h ⟨e.1, e.2.1⟩)]

end Sys2Proof.Machine
end

