-- ==== Sys2Proof/Laws/State.lean ====
section
/-! SUPPORT. One lemma per field per named update of the state and of the floppy controller, each true by rfl, so that no
later proof unfolds a record update. -/

namespace Sys2Proof.Machine

/-! ### The outputs of a transition -/

@[simp] theorem setOut_cfg (s : State) (o : Outputs) : (s.setOut o).cfg = s.cfg := rfl
@[simp] theorem setOut_mapRam (s : State) (o : Outputs) : (s.setOut o).mapRam = s.mapRam := rfl
@[simp] theorem setOut_bram (s : State) (o : Outputs) : (s.setOut o).bram = s.bram := rfl
@[simp] theorem setOut_xram (s : State) (o : Outputs) : (s.setOut o).xram = s.xram := rfl
@[simp] theorem setOut_vram (s : State) (o : Outputs) : (s.setOut o).vram = s.vram := rfl
@[simp] theorem setOut_gsr (s : State) (o : Outputs) : (s.setOut o).gsr = s.gsr := rfl
@[simp] theorem setOut_bsr0 (s : State) (o : Outputs) : (s.setOut o).bsr0 = s.bsr0 := rfl
@[simp] theorem setOut_bsr1 (s : State) (o : Outputs) : (s.setOut o).bsr1 = s.bsr1 := rfl
@[simp] theorem setOut_gcr (s : State) (o : Outputs) : (s.setOut o).gcr = s.gcr := rfl
@[simp] theorem setOut_led (s : State) (o : Outputs) : (s.setOut o).led = s.led := rfl
@[simp] theorem setOut_dmaDir (s : State) (o : Outputs) : (s.setOut o).dmaDir = s.dmaDir := rfl
@[simp] theorem setOut_dmaCount (s : State) (o : Outputs) : (s.setOut o).dmaCount = s.dmaCount := rfl
@[simp] theorem setOut_dmaEn (s : State) (o : Outputs) : (s.setOut o).dmaEn = s.dmaEn := rfl
@[simp] theorem setOut_dmaIdmarw (s : State) (o : Outputs) : (s.setOut o).dmaIdmarw = s.dmaIdmarw := rfl
@[simp] theorem setOut_dmaAddr (s : State) (o : Outputs) : (s.setOut o).dmaAddr = s.dmaAddr := rfl
@[simp] theorem setOut_dcr (s : State) (o : Outputs) : (s.setOut o).dcr = s.dcr := rfl
@[simp] theorem setOut_fdc (s : State) (o : Outputs) : (s.setOut o).fdc = s.fdc := rfl
@[simp] theorem setOut_stubDraws (s : State) (o : Outputs) : (s.setOut o).stubDraws = s.stubDraws := rfl
@[simp] theorem setOut_args (s : State) (o : Outputs) : (s.setOut o).args = s.args := rfl
@[simp] theorem setOut_inputs (s : State) (o : Outputs) : (s.setOut o).inputs = s.inputs := rfl
@[simp] theorem setOut_out (s : State) (o : Outputs) : (s.setOut o).out = o := rfl

/-! ### The floppy controller -/

@[simp] theorem setFdc_cfg (s : State) (f : Fdc) : (s.setFdc f).cfg = s.cfg := rfl
@[simp] theorem setFdc_mapRam (s : State) (f : Fdc) : (s.setFdc f).mapRam = s.mapRam := rfl
@[simp] theorem setFdc_bram (s : State) (f : Fdc) : (s.setFdc f).bram = s.bram := rfl
@[simp] theorem setFdc_xram (s : State) (f : Fdc) : (s.setFdc f).xram = s.xram := rfl
@[simp] theorem setFdc_vram (s : State) (f : Fdc) : (s.setFdc f).vram = s.vram := rfl
@[simp] theorem setFdc_gsr (s : State) (f : Fdc) : (s.setFdc f).gsr = s.gsr := rfl
@[simp] theorem setFdc_bsr0 (s : State) (f : Fdc) : (s.setFdc f).bsr0 = s.bsr0 := rfl
@[simp] theorem setFdc_bsr1 (s : State) (f : Fdc) : (s.setFdc f).bsr1 = s.bsr1 := rfl
@[simp] theorem setFdc_gcr (s : State) (f : Fdc) : (s.setFdc f).gcr = s.gcr := rfl
@[simp] theorem setFdc_led (s : State) (f : Fdc) : (s.setFdc f).led = s.led := rfl
@[simp] theorem setFdc_dmaDir (s : State) (f : Fdc) : (s.setFdc f).dmaDir = s.dmaDir := rfl
@[simp] theorem setFdc_dmaCount (s : State) (f : Fdc) : (s.setFdc f).dmaCount = s.dmaCount := rfl
@[simp] theorem setFdc_dmaEn (s : State) (f : Fdc) : (s.setFdc f).dmaEn = s.dmaEn := rfl
@[simp] theorem setFdc_dmaIdmarw (s : State) (f : Fdc) : (s.setFdc f).dmaIdmarw = s.dmaIdmarw := rfl
@[simp] theorem setFdc_dmaAddr (s : State) (f : Fdc) : (s.setFdc f).dmaAddr = s.dmaAddr := rfl
@[simp] theorem setFdc_dcr (s : State) (f : Fdc) : (s.setFdc f).dcr = s.dcr := rfl
@[simp] theorem setFdc_fdc (s : State) (f : Fdc) : (s.setFdc f).fdc = f := rfl
@[simp] theorem setFdc_stubDraws (s : State) (f : Fdc) : (s.setFdc f).stubDraws = s.stubDraws := rfl
@[simp] theorem setFdc_args (s : State) (f : Fdc) : (s.setFdc f).args = s.args := rfl
@[simp] theorem setFdc_inputs (s : State) (f : Fdc) : (s.setFdc f).inputs = s.inputs := rfl
@[simp] theorem setFdc_out (s : State) (f : Fdc) : (s.setFdc f).out = s.out := rfl

/-! ### Clear status (42 R227) -/

@[simp] theorem clearStatus_cfg (s : State) : (s.clearStatus).cfg = s.cfg := rfl
@[simp] theorem clearStatus_mapRam (s : State) : (s.clearStatus).mapRam = s.mapRam := rfl
@[simp] theorem clearStatus_bram (s : State) : (s.clearStatus).bram = s.bram := rfl
@[simp] theorem clearStatus_xram (s : State) : (s.clearStatus).xram = s.xram := rfl
@[simp] theorem clearStatus_vram (s : State) : (s.clearStatus).vram = s.vram := rfl
@[simp] theorem clearStatus_gsr (s : State) : (s.clearStatus).gsr = idleStatus := rfl
@[simp] theorem clearStatus_bsr0 (s : State) : (s.clearStatus).bsr0 = idleStatus := rfl
@[simp] theorem clearStatus_bsr1 (s : State) : (s.clearStatus).bsr1 = idleStatus := rfl
@[simp] theorem clearStatus_gcr (s : State) : (s.clearStatus).gcr = s.gcr := rfl
@[simp] theorem clearStatus_led (s : State) : (s.clearStatus).led = s.led := rfl
@[simp] theorem clearStatus_dmaDir (s : State) : (s.clearStatus).dmaDir = s.dmaDir := rfl
@[simp] theorem clearStatus_dmaCount (s : State) : (s.clearStatus).dmaCount = s.dmaCount := rfl
@[simp] theorem clearStatus_dmaEn (s : State) : (s.clearStatus).dmaEn = s.dmaEn := rfl
@[simp] theorem clearStatus_dmaIdmarw (s : State) : (s.clearStatus).dmaIdmarw = s.dmaIdmarw := rfl
@[simp] theorem clearStatus_dmaAddr (s : State) : (s.clearStatus).dmaAddr = s.dmaAddr := rfl
@[simp] theorem clearStatus_dcr (s : State) : (s.clearStatus).dcr = s.dcr := rfl
@[simp] theorem clearStatus_fdc (s : State) : (s.clearStatus).fdc = s.fdc := rfl
@[simp] theorem clearStatus_stubDraws (s : State) : (s.clearStatus).stubDraws = s.stubDraws := rfl
@[simp] theorem clearStatus_args (s : State) : (s.clearStatus).args = s.args := rfl
@[simp] theorem clearStatus_inputs (s : State) : (s.clearStatus).inputs = s.inputs := rfl
@[simp] theorem clearStatus_out (s : State) : (s.clearStatus).out = s.out := rfl

/-! ### Taking a bus error (60 R347) -/

@[simp] theorem raiseBusError_cfg (s : State) (c : FaultClass) (acc : Access) :
    (s.raiseBusError c acc).cfg = s.cfg := rfl
@[simp] theorem raiseBusError_mapRam (s : State) (c : FaultClass) (acc : Access) :
    (s.raiseBusError c acc).mapRam = s.mapRam := rfl
@[simp] theorem raiseBusError_bram (s : State) (c : FaultClass) (acc : Access) :
    (s.raiseBusError c acc).bram = s.bram := rfl
@[simp] theorem raiseBusError_xram (s : State) (c : FaultClass) (acc : Access) :
    (s.raiseBusError c acc).xram = s.xram := rfl
@[simp] theorem raiseBusError_vram (s : State) (c : FaultClass) (acc : Access) :
    (s.raiseBusError c acc).vram = s.vram := rfl
@[simp] theorem raiseBusError_gsr (s : State) (c : FaultClass) (acc : Access) :
    (s.raiseBusError c acc).gsr = gsrOnFault s.cfg.params.gsrOnFault c acc.width acc.addr s.pie := rfl
@[simp] theorem raiseBusError_bsr0 (s : State) (c : FaultClass) (acc : Access) :
    (s.raiseBusError c acc).bsr0 = bsr0OnFault s.cfg.params.faultCodes c acc.width acc.addr s.pie := rfl
@[simp] theorem raiseBusError_bsr1 (s : State) (c : FaultClass) (acc : Access) :
    (s.raiseBusError c acc).bsr1 = bsr1OnFault acc.addr := rfl
@[simp] theorem raiseBusError_gcr (s : State) (c : FaultClass) (acc : Access) :
    (s.raiseBusError c acc).gcr = s.gcr := rfl
@[simp] theorem raiseBusError_led (s : State) (c : FaultClass) (acc : Access) :
    (s.raiseBusError c acc).led = s.led := rfl
@[simp] theorem raiseBusError_dmaDir (s : State) (c : FaultClass) (acc : Access) :
    (s.raiseBusError c acc).dmaDir = s.dmaDir := rfl
@[simp] theorem raiseBusError_dmaCount (s : State) (c : FaultClass) (acc : Access) :
    (s.raiseBusError c acc).dmaCount = s.dmaCount := rfl
@[simp] theorem raiseBusError_dmaEn (s : State) (c : FaultClass) (acc : Access) :
    (s.raiseBusError c acc).dmaEn = s.dmaEn := rfl
@[simp] theorem raiseBusError_dmaIdmarw (s : State) (c : FaultClass) (acc : Access) :
    (s.raiseBusError c acc).dmaIdmarw = s.dmaIdmarw := rfl
@[simp] theorem raiseBusError_dmaAddr (s : State) (c : FaultClass) (acc : Access) :
    (s.raiseBusError c acc).dmaAddr = s.dmaAddr := rfl
@[simp] theorem raiseBusError_dcr (s : State) (c : FaultClass) (acc : Access) :
    (s.raiseBusError c acc).dcr = s.dcr := rfl
@[simp] theorem raiseBusError_fdc (s : State) (c : FaultClass) (acc : Access) :
    (s.raiseBusError c acc).fdc = s.fdc := rfl
@[simp] theorem raiseBusError_stubDraws (s : State) (c : FaultClass) (acc : Access) :
    (s.raiseBusError c acc).stubDraws = s.stubDraws := rfl
@[simp] theorem raiseBusError_args (s : State) (c : FaultClass) (acc : Access) :
    (s.raiseBusError c acc).args = s.args := rfl
@[simp] theorem raiseBusError_inputs (s : State) (c : FaultClass) (acc : Access) :
    (s.raiseBusError c acc).inputs = s.inputs := rfl
@[simp] theorem raiseBusError_out (s : State) (c : FaultClass) (acc : Access) :
    (s.raiseBusError c acc).out = deniedOut acc.dir acc.width := rfl

/-! ### Power-on reset (70 R390) -/

@[simp] theorem powerOnReset_cfg (s : State) : (s.powerOnReset).cfg = s.cfg := rfl
@[simp] theorem powerOnReset_mapRam (s : State) : (s.powerOnReset).mapRam = s.mapRam := rfl
@[simp] theorem powerOnReset_bram (s : State) : (s.powerOnReset).bram = s.bram := rfl
@[simp] theorem powerOnReset_xram (s : State) : (s.powerOnReset).xram = s.xram := rfl
@[simp] theorem powerOnReset_vram (s : State) : (s.powerOnReset).vram = s.vram := rfl
@[simp] theorem powerOnReset_gsr (s : State) : (s.powerOnReset).gsr = idleStatus := rfl
@[simp] theorem powerOnReset_bsr0 (s : State) : (s.powerOnReset).bsr0 = idleStatus := rfl
@[simp] theorem powerOnReset_bsr1 (s : State) : (s.powerOnReset).bsr1 = idleStatus := rfl
@[simp] theorem powerOnReset_gcr (s : State) : (s.powerOnReset).gcr = gcrAtReset s.cfg.params := rfl
@[simp] theorem powerOnReset_led (s : State) : (s.powerOnReset).led = 0#4 := rfl
@[simp] theorem powerOnReset_dmaDir (s : State) : (s.powerOnReset).dmaDir = false := rfl
@[simp] theorem powerOnReset_dmaCount (s : State) : (s.powerOnReset).dmaCount = 0#14 := rfl
@[simp] theorem powerOnReset_dmaEn (s : State) : (s.powerOnReset).dmaEn = false := rfl
@[simp] theorem powerOnReset_dmaIdmarw (s : State) : (s.powerOnReset).dmaIdmarw = false := rfl
@[simp] theorem powerOnReset_dmaAddr (s : State) : (s.powerOnReset).dmaAddr = 0#22 := rfl
@[simp] theorem powerOnReset_dcr (s : State) : (s.powerOnReset).dcr = 0x00#8 := rfl
@[simp] theorem powerOnReset_fdc (s : State) : (s.powerOnReset).fdc = s.fdc.resetPosition s.cfg.params.fdc := rfl
@[simp] theorem powerOnReset_stubDraws (s : State) : (s.powerOnReset).stubDraws = s.stubDraws := rfl
@[simp] theorem powerOnReset_args (s : State) : (s.powerOnReset).args = s.args := rfl
@[simp] theorem powerOnReset_inputs (s : State) : (s.powerOnReset).inputs = s.inputs := rfl
@[simp] theorem powerOnReset_out (s : State) : (s.powerOnReset).out = s.out := rfl

/-! ### The fields a write of DMACNT loads (42 R228) -/

@[simp] theorem loadDmacnt_cfg (s : State) (x : LaneWrite) : (s.loadDmacnt x).cfg = s.cfg := rfl
@[simp] theorem loadDmacnt_mapRam (s : State) (x : LaneWrite) : (s.loadDmacnt x).mapRam = s.mapRam := rfl
@[simp] theorem loadDmacnt_bram (s : State) (x : LaneWrite) : (s.loadDmacnt x).bram = s.bram := rfl
@[simp] theorem loadDmacnt_xram (s : State) (x : LaneWrite) : (s.loadDmacnt x).xram = s.xram := rfl
@[simp] theorem loadDmacnt_vram (s : State) (x : LaneWrite) : (s.loadDmacnt x).vram = s.vram := rfl
@[simp] theorem loadDmacnt_gsr (s : State) (x : LaneWrite) : (s.loadDmacnt x).gsr = s.gsr := rfl
@[simp] theorem loadDmacnt_bsr0 (s : State) (x : LaneWrite) : (s.loadDmacnt x).bsr0 = s.bsr0 := rfl
@[simp] theorem loadDmacnt_bsr1 (s : State) (x : LaneWrite) : (s.loadDmacnt x).bsr1 = s.bsr1 := rfl
@[simp] theorem loadDmacnt_gcr (s : State) (x : LaneWrite) : (s.loadDmacnt x).gcr = s.gcr := rfl
@[simp] theorem loadDmacnt_led (s : State) (x : LaneWrite) : (s.loadDmacnt x).led = s.led := rfl
@[simp] theorem loadDmacnt_dmaDir (s : State) (x : LaneWrite) : (s.loadDmacnt x).dmaDir = s.dmaDir := rfl
@[simp] theorem loadDmacnt_dmaCount (s : State) (x : LaneWrite) :
    (s.loadDmacnt x).dmaCount = (if x.high then x.d.extractLsb' 8 6 else s.dmaCount.extractLsb' 8 6) ++
      (if x.low then x.d.extractLsb' 0 8 else s.dmaCount.extractLsb' 0 8) := rfl
@[simp] theorem loadDmacnt_dmaEn (s : State) (x : LaneWrite) :
    (s.loadDmacnt x).dmaEn = (if x.high then x.d.getLsbD 15 else s.dmaEn) := rfl
@[simp] theorem loadDmacnt_dmaIdmarw (s : State) (x : LaneWrite) :
    (s.loadDmacnt x).dmaIdmarw = (if x.high then x.d.getLsbD 14 else s.dmaIdmarw) := rfl
@[simp] theorem loadDmacnt_dmaAddr (s : State) (x : LaneWrite) : (s.loadDmacnt x).dmaAddr = s.dmaAddr := rfl
@[simp] theorem loadDmacnt_dcr (s : State) (x : LaneWrite) : (s.loadDmacnt x).dcr = s.dcr := rfl
@[simp] theorem loadDmacnt_fdc (s : State) (x : LaneWrite) : (s.loadDmacnt x).fdc = s.fdc := rfl
@[simp] theorem loadDmacnt_stubDraws (s : State) (x : LaneWrite) : (s.loadDmacnt x).stubDraws = s.stubDraws := rfl
@[simp] theorem loadDmacnt_args (s : State) (x : LaneWrite) : (s.loadDmacnt x).args = s.args := rfl
@[simp] theorem loadDmacnt_inputs (s : State) (x : LaneWrite) : (s.loadDmacnt x).inputs = s.inputs := rfl
@[simp] theorem loadDmacnt_out (s : State) (x : LaneWrite) : (s.loadDmacnt x).out = s.out := rfl

/-! ### The dummy cycle (42 R229) -/

@[simp] theorem dummyCycle_cfg (s : State) : (s.dummyCycle).cfg = s.cfg := rfl
@[simp] theorem dummyCycle_mapRam (s : State) : (s.dummyCycle).mapRam = s.mapRam := rfl
@[simp] theorem dummyCycle_bram (s : State) : (s.dummyCycle).bram = s.bram := rfl
@[simp] theorem dummyCycle_xram (s : State) : (s.dummyCycle).xram = s.xram := rfl
@[simp] theorem dummyCycle_vram (s : State) : (s.dummyCycle).vram = s.vram := rfl
@[simp] theorem dummyCycle_gsr (s : State) : (s.dummyCycle).gsr = s.gsr := rfl
@[simp] theorem dummyCycle_bsr0 (s : State) : (s.dummyCycle).bsr0 = s.bsr0 := rfl
@[simp] theorem dummyCycle_bsr1 (s : State) : (s.dummyCycle).bsr1 = s.bsr1 := rfl
@[simp] theorem dummyCycle_gcr (s : State) : (s.dummyCycle).gcr = s.gcr := rfl
@[simp] theorem dummyCycle_led (s : State) : (s.dummyCycle).led = s.led := rfl
@[simp] theorem dummyCycle_dmaDir (s : State) : (s.dummyCycle).dmaDir = s.dmaDir := rfl
@[simp] theorem dummyCycle_dmaCount (s : State) :
    (s.dummyCycle).dmaCount = s.dmaCount + s.cfg.params.dummyCycle.get s.dmaDir := rfl
@[simp] theorem dummyCycle_dmaEn (s : State) : (s.dummyCycle).dmaEn = s.dmaEn := rfl
@[simp] theorem dummyCycle_dmaIdmarw (s : State) : (s.dummyCycle).dmaIdmarw = s.dmaIdmarw := rfl
@[simp] theorem dummyCycle_dmaAddr (s : State) : (s.dummyCycle).dmaAddr = s.dmaAddr := rfl
@[simp] theorem dummyCycle_dcr (s : State) : (s.dummyCycle).dcr = s.dcr := rfl
@[simp] theorem dummyCycle_fdc (s : State) : (s.dummyCycle).fdc = s.fdc := rfl
@[simp] theorem dummyCycle_stubDraws (s : State) : (s.dummyCycle).stubDraws = s.stubDraws := rfl
@[simp] theorem dummyCycle_args (s : State) : (s.dummyCycle).args = s.args := rfl
@[simp] theorem dummyCycle_inputs (s : State) : (s.dummyCycle).inputs = s.inputs := rfl
@[simp] theorem dummyCycle_out (s : State) : (s.dummyCycle).out = s.out := rfl

/-! ### Closing a transfer (43 R275) -/

@[simp] theorem close_image (f : Fdc) : (f.close).image = f.image := rfl
@[simp] theorem close_writable (f : Fdc) : (f.close).writable = f.writable := rfl
@[simp] theorem close_geom (f : Fdc) : (f.close).geom = f.geom := rfl
@[simp] theorem close_track (f : Fdc) : (f.close).track = f.track := rfl
@[simp] theorem close_head (f : Fdc) : (f.close).head = f.head := rfl
@[simp] theorem close_trackReg (f : Fdc) : (f.close).trackReg = f.trackReg := rfl
@[simp] theorem close_sectorReg (f : Fdc) : (f.close).sectorReg = f.sectorReg := rfl
@[simp] theorem close_dataReg (f : Fdc) : (f.close).dataReg = f.dataReg := rfl
@[simp] theorem close_status (f : Fdc) : (f.close).status = f.status := rfl
@[simp] theorem close_irq (f : Fdc) : (f.close).irq = f.irq := rfl
@[simp] theorem close_buf (f : Fdc) : (f.close).buf = f.buf := rfl
@[simp] theorem close_bufCap (f : Fdc) : (f.close).bufCap = f.bufCap := rfl
@[simp] theorem close_cur (f : Fdc) : (f.close).cur = 0 := rfl
@[simp] theorem close_len (f : Fdc) : (f.close).len = 0 := rfl
@[simp] theorem close_wpos (f : Fdc) : (f.close).wpos = none := rfl
@[simp] theorem close_drqCapable (f : Fdc) : (f.close).drqCapable = f.drqCapable := rfl
@[simp] theorem close_formatting (f : Fdc) : (f.close).formatting = false := rfl
@[simp] theorem close_lastStepDir (f : Fdc) : (f.close).lastStepDir = f.lastStepDir := rfl
@[simp] theorem close_bufGen (f : Fdc) : (f.close).bufGen = f.bufGen := rfl
@[simp] theorem close_draws (f : Fdc) : (f.close).draws = f.draws := rfl

/-! ### A status with an IRQ -/

@[simp] theorem report_image (f : Fdc) (x : Byte) : (f.report x).image = f.image := rfl
@[simp] theorem report_writable (f : Fdc) (x : Byte) : (f.report x).writable = f.writable := rfl
@[simp] theorem report_geom (f : Fdc) (x : Byte) : (f.report x).geom = f.geom := rfl
@[simp] theorem report_track (f : Fdc) (x : Byte) : (f.report x).track = f.track := rfl
@[simp] theorem report_head (f : Fdc) (x : Byte) : (f.report x).head = f.head := rfl
@[simp] theorem report_trackReg (f : Fdc) (x : Byte) : (f.report x).trackReg = f.trackReg := rfl
@[simp] theorem report_sectorReg (f : Fdc) (x : Byte) : (f.report x).sectorReg = f.sectorReg := rfl
@[simp] theorem report_dataReg (f : Fdc) (x : Byte) : (f.report x).dataReg = f.dataReg := rfl
@[simp] theorem report_status (f : Fdc) (x : Byte) : (f.report x).status = x := rfl
@[simp] theorem report_irq (f : Fdc) (x : Byte) : (f.report x).irq = true := rfl
@[simp] theorem report_buf (f : Fdc) (x : Byte) : (f.report x).buf = f.buf := rfl
@[simp] theorem report_bufCap (f : Fdc) (x : Byte) : (f.report x).bufCap = f.bufCap := rfl
@[simp] theorem report_cur (f : Fdc) (x : Byte) : (f.report x).cur = f.cur := rfl
@[simp] theorem report_len (f : Fdc) (x : Byte) : (f.report x).len = f.len := rfl
@[simp] theorem report_wpos (f : Fdc) (x : Byte) : (f.report x).wpos = f.wpos := rfl
@[simp] theorem report_drqCapable (f : Fdc) (x : Byte) : (f.report x).drqCapable = f.drqCapable := rfl
@[simp] theorem report_formatting (f : Fdc) (x : Byte) : (f.report x).formatting = f.formatting := rfl
@[simp] theorem report_lastStepDir (f : Fdc) (x : Byte) : (f.report x).lastStepDir = f.lastStepDir := rfl
@[simp] theorem report_bufGen (f : Fdc) (x : Byte) : (f.report x).bufGen = f.bufGen := rfl
@[simp] theorem report_draws (f : Fdc) (x : Byte) : (f.report x).draws = f.draws := rfl

/-! ### The prologues of a command (44 R290, R301) -/

@[simp] theorem clearIrq_image (f : Fdc) : (f.clearIrq).image = f.image := rfl
@[simp] theorem clearIrq_writable (f : Fdc) : (f.clearIrq).writable = f.writable := rfl
@[simp] theorem clearIrq_geom (f : Fdc) : (f.clearIrq).geom = f.geom := rfl
@[simp] theorem clearIrq_track (f : Fdc) : (f.clearIrq).track = f.track := rfl
@[simp] theorem clearIrq_head (f : Fdc) : (f.clearIrq).head = f.head := rfl
@[simp] theorem clearIrq_trackReg (f : Fdc) : (f.clearIrq).trackReg = f.trackReg := rfl
@[simp] theorem clearIrq_sectorReg (f : Fdc) : (f.clearIrq).sectorReg = f.sectorReg := rfl
@[simp] theorem clearIrq_dataReg (f : Fdc) : (f.clearIrq).dataReg = f.dataReg := rfl
@[simp] theorem clearIrq_status (f : Fdc) : (f.clearIrq).status = f.status := rfl
@[simp] theorem clearIrq_irq (f : Fdc) : (f.clearIrq).irq = false := rfl
@[simp] theorem clearIrq_buf (f : Fdc) : (f.clearIrq).buf = f.buf := rfl
@[simp] theorem clearIrq_bufCap (f : Fdc) : (f.clearIrq).bufCap = f.bufCap := rfl
@[simp] theorem clearIrq_cur (f : Fdc) : (f.clearIrq).cur = f.cur := rfl
@[simp] theorem clearIrq_len (f : Fdc) : (f.clearIrq).len = f.len := rfl
@[simp] theorem clearIrq_wpos (f : Fdc) : (f.clearIrq).wpos = f.wpos := rfl
@[simp] theorem clearIrq_drqCapable (f : Fdc) : (f.clearIrq).drqCapable = f.drqCapable := rfl
@[simp] theorem clearIrq_formatting (f : Fdc) : (f.clearIrq).formatting = f.formatting := rfl
@[simp] theorem clearIrq_lastStepDir (f : Fdc) : (f.clearIrq).lastStepDir = f.lastStepDir := rfl
@[simp] theorem clearIrq_bufGen (f : Fdc) : (f.clearIrq).bufGen = f.bufGen := rfl
@[simp] theorem clearIrq_draws (f : Fdc) : (f.clearIrq).draws = f.draws := rfl

@[simp] theorem markCapable_image (f : Fdc) : (f.markCapable).image = f.image := rfl
@[simp] theorem markCapable_writable (f : Fdc) : (f.markCapable).writable = f.writable := rfl
@[simp] theorem markCapable_geom (f : Fdc) : (f.markCapable).geom = f.geom := rfl
@[simp] theorem markCapable_track (f : Fdc) : (f.markCapable).track = f.track := rfl
@[simp] theorem markCapable_head (f : Fdc) : (f.markCapable).head = f.head := rfl
@[simp] theorem markCapable_trackReg (f : Fdc) : (f.markCapable).trackReg = f.trackReg := rfl
@[simp] theorem markCapable_sectorReg (f : Fdc) : (f.markCapable).sectorReg = f.sectorReg := rfl
@[simp] theorem markCapable_dataReg (f : Fdc) : (f.markCapable).dataReg = f.dataReg := rfl
@[simp] theorem markCapable_status (f : Fdc) : (f.markCapable).status = f.status := rfl
@[simp] theorem markCapable_irq (f : Fdc) : (f.markCapable).irq = f.irq := rfl
@[simp] theorem markCapable_buf (f : Fdc) : (f.markCapable).buf = f.buf := rfl
@[simp] theorem markCapable_bufCap (f : Fdc) : (f.markCapable).bufCap = f.bufCap := rfl
@[simp] theorem markCapable_cur (f : Fdc) : (f.markCapable).cur = f.cur := rfl
@[simp] theorem markCapable_len (f : Fdc) : (f.markCapable).len = f.len := rfl
@[simp] theorem markCapable_wpos (f : Fdc) : (f.markCapable).wpos = f.wpos := rfl
@[simp] theorem markCapable_drqCapable (f : Fdc) : (f.markCapable).drqCapable = true := rfl
@[simp] theorem markCapable_formatting (f : Fdc) : (f.markCapable).formatting = f.formatting := rfl
@[simp] theorem markCapable_lastStepDir (f : Fdc) : (f.markCapable).lastStepDir = f.lastStepDir := rfl
@[simp] theorem markCapable_bufGen (f : Fdc) : (f.markCapable).bufGen = f.bufGen := rfl
@[simp] theorem markCapable_draws (f : Fdc) : (f.markCapable).draws = f.draws := rfl

@[simp] theorem selectHead_image (h : Option (BitVec 1)) (f : Fdc) : (f.selectHead h).image = f.image := rfl
@[simp] theorem selectHead_writable (h : Option (BitVec 1)) (f : Fdc) : (f.selectHead h).writable = f.writable := rfl
@[simp] theorem selectHead_geom (h : Option (BitVec 1)) (f : Fdc) : (f.selectHead h).geom = f.geom := rfl
@[simp] theorem selectHead_track (h : Option (BitVec 1)) (f : Fdc) : (f.selectHead h).track = f.track := rfl
@[simp] theorem selectHead_head (h : Option (BitVec 1)) (f : Fdc) : (f.selectHead h).head = h.getD f.head := rfl
@[simp] theorem selectHead_trackReg (h : Option (BitVec 1)) (f : Fdc) : (f.selectHead h).trackReg = f.trackReg := rfl
@[simp] theorem selectHead_sectorReg (h : Option (BitVec 1)) (f : Fdc) :
    (f.selectHead h).sectorReg = f.sectorReg := rfl
@[simp] theorem selectHead_dataReg (h : Option (BitVec 1)) (f : Fdc) : (f.selectHead h).dataReg = f.dataReg := rfl
@[simp] theorem selectHead_status (h : Option (BitVec 1)) (f : Fdc) : (f.selectHead h).status = f.status := rfl
@[simp] theorem selectHead_irq (h : Option (BitVec 1)) (f : Fdc) : (f.selectHead h).irq = f.irq := rfl
@[simp] theorem selectHead_buf (h : Option (BitVec 1)) (f : Fdc) : (f.selectHead h).buf = f.buf := rfl
@[simp] theorem selectHead_bufCap (h : Option (BitVec 1)) (f : Fdc) : (f.selectHead h).bufCap = f.bufCap := rfl
@[simp] theorem selectHead_cur (h : Option (BitVec 1)) (f : Fdc) : (f.selectHead h).cur = f.cur := rfl
@[simp] theorem selectHead_len (h : Option (BitVec 1)) (f : Fdc) : (f.selectHead h).len = f.len := rfl
@[simp] theorem selectHead_wpos (h : Option (BitVec 1)) (f : Fdc) : (f.selectHead h).wpos = f.wpos := rfl
@[simp] theorem selectHead_drqCapable (h : Option (BitVec 1)) (f : Fdc) :
    (f.selectHead h).drqCapable = f.drqCapable := rfl
@[simp] theorem selectHead_formatting (h : Option (BitVec 1)) (f : Fdc) :
    (f.selectHead h).formatting = f.formatting := rfl
@[simp] theorem selectHead_lastStepDir (h : Option (BitVec 1)) (f : Fdc) :
    (f.selectHead h).lastStepDir = f.lastStepDir := rfl
@[simp] theorem selectHead_bufGen (h : Option (BitVec 1)) (f : Fdc) : (f.selectHead h).bufGen = f.bufGen := rfl
@[simp] theorem selectHead_draws (h : Option (BitVec 1)) (f : Fdc) : (f.selectHead h).draws = f.draws := rfl

/-! ### Opening a transfer (43 R276) -/

@[simp] theorem openTransfer_image (f : Fdc) (n : Nat) (o : Option Nat) (b : Bool) :
    (f.openTransfer n o b).image = f.image := rfl
@[simp] theorem openTransfer_writable (f : Fdc) (n : Nat) (o : Option Nat) (b : Bool) :
    (f.openTransfer n o b).writable = f.writable := rfl
@[simp] theorem openTransfer_geom (f : Fdc) (n : Nat) (o : Option Nat) (b : Bool) :
    (f.openTransfer n o b).geom = f.geom := rfl
@[simp] theorem openTransfer_track (f : Fdc) (n : Nat) (o : Option Nat) (b : Bool) :
    (f.openTransfer n o b).track = f.track := rfl
@[simp] theorem openTransfer_head (f : Fdc) (n : Nat) (o : Option Nat) (b : Bool) :
    (f.openTransfer n o b).head = f.head := rfl
@[simp] theorem openTransfer_trackReg (f : Fdc) (n : Nat) (o : Option Nat) (b : Bool) :
    (f.openTransfer n o b).trackReg = f.trackReg := rfl
@[simp] theorem openTransfer_sectorReg (f : Fdc) (n : Nat) (o : Option Nat) (b : Bool) :
    (f.openTransfer n o b).sectorReg = f.sectorReg := rfl
@[simp] theorem openTransfer_dataReg (f : Fdc) (n : Nat) (o : Option Nat) (b : Bool) :
    (f.openTransfer n o b).dataReg = f.dataReg := rfl
@[simp] theorem openTransfer_status (f : Fdc) (n : Nat) (o : Option Nat) (b : Bool) :
    (f.openTransfer n o b).status = 0x00#8 := rfl
@[simp] theorem openTransfer_irq (f : Fdc) (n : Nat) (o : Option Nat) (b : Bool) :
    (f.openTransfer n o b).irq = f.irq := rfl
@[simp] theorem openTransfer_buf (f : Fdc) (n : Nat) (o : Option Nat) (b : Bool) :
    (f.openTransfer n o b).buf = f.buf := rfl
@[simp] theorem openTransfer_bufCap (f : Fdc) (n : Nat) (o : Option Nat) (b : Bool) :
    (f.openTransfer n o b).bufCap = f.bufCap := rfl
@[simp] theorem openTransfer_cur (f : Fdc) (n : Nat) (o : Option Nat) (b : Bool) :
    (f.openTransfer n o b).cur = 0 := rfl
@[simp] theorem openTransfer_len (f : Fdc) (n : Nat) (o : Option Nat) (b : Bool) :
    (f.openTransfer n o b).len = n := rfl
@[simp] theorem openTransfer_wpos (f : Fdc) (n : Nat) (o : Option Nat) (b : Bool) :
    (f.openTransfer n o b).wpos = o := rfl
@[simp] theorem openTransfer_drqCapable (f : Fdc) (n : Nat) (o : Option Nat) (b : Bool) :
    (f.openTransfer n o b).drqCapable = f.drqCapable := rfl
@[simp] theorem openTransfer_formatting (f : Fdc) (n : Nat) (o : Option Nat) (b : Bool) :
    (f.openTransfer n o b).formatting = b := rfl
@[simp] theorem openTransfer_lastStepDir (f : Fdc) (n : Nat) (o : Option Nat) (b : Bool) :
    (f.openTransfer n o b).lastStepDir = f.lastStepDir := rfl
@[simp] theorem openTransfer_bufGen (f : Fdc) (n : Nat) (o : Option Nat) (b : Bool) :
    (f.openTransfer n o b).bufGen = f.bufGen := rfl
@[simp] theorem openTransfer_draws (f : Fdc) (n : Nat) (o : Option Nat) (b : Bool) :
    (f.openTransfer n o b).draws = f.draws := rfl

/-! ### Opening a read transfer -/

@[simp] theorem openRead_image (f : Fdc) (bs : List Byte) : (f.openRead bs).image = f.image := rfl
@[simp] theorem openRead_writable (f : Fdc) (bs : List Byte) : (f.openRead bs).writable = f.writable := rfl
@[simp] theorem openRead_geom (f : Fdc) (bs : List Byte) : (f.openRead bs).geom = f.geom := rfl
@[simp] theorem openRead_track (f : Fdc) (bs : List Byte) : (f.openRead bs).track = f.track := rfl
@[simp] theorem openRead_head (f : Fdc) (bs : List Byte) : (f.openRead bs).head = f.head := rfl
@[simp] theorem openRead_trackReg (f : Fdc) (bs : List Byte) : (f.openRead bs).trackReg = f.trackReg := rfl
@[simp] theorem openRead_sectorReg (f : Fdc) (bs : List Byte) : (f.openRead bs).sectorReg = f.sectorReg := rfl
@[simp] theorem openRead_dataReg (f : Fdc) (bs : List Byte) : (f.openRead bs).dataReg = f.dataReg := rfl
@[simp] theorem openRead_status (f : Fdc) (bs : List Byte) : (f.openRead bs).status = 0x00#8 := rfl
@[simp] theorem openRead_irq (f : Fdc) (bs : List Byte) : (f.openRead bs).irq = f.irq := rfl
@[simp] theorem openRead_buf (f : Fdc) (bs : List Byte) : (f.openRead bs).buf = bufWrite f.buf 0 bs := rfl
@[simp] theorem openRead_bufCap (f : Fdc) (bs : List Byte) : (f.openRead bs).bufCap = f.bufCap := rfl
@[simp] theorem openRead_cur (f : Fdc) (bs : List Byte) : (f.openRead bs).cur = 0 := rfl
@[simp] theorem openRead_len (f : Fdc) (bs : List Byte) : (f.openRead bs).len = bs.length := rfl
@[simp] theorem openRead_wpos (f : Fdc) (bs : List Byte) : (f.openRead bs).wpos = none := rfl
@[simp] theorem openRead_drqCapable (f : Fdc) (bs : List Byte) : (f.openRead bs).drqCapable = f.drqCapable := rfl
@[simp] theorem openRead_formatting (f : Fdc) (bs : List Byte) : (f.openRead bs).formatting = false := rfl
@[simp] theorem openRead_lastStepDir (f : Fdc) (bs : List Byte) : (f.openRead bs).lastStepDir = f.lastStepDir := rfl
@[simp] theorem openRead_bufGen (f : Fdc) (bs : List Byte) : (f.openRead bs).bufGen = f.bufGen := rfl
@[simp] theorem openRead_draws (f : Fdc) (bs : List Byte) : (f.openRead bs).draws = f.draws := rfl

/-! ### Reset of the controller (70 R391) -/

@[simp] theorem resetPosition_image (p : FdcParams) (f : Fdc) : (f.resetPosition p).image = f.image := rfl
@[simp] theorem resetPosition_writable (p : FdcParams) (f : Fdc) : (f.resetPosition p).writable = f.writable := rfl
@[simp] theorem resetPosition_geom (p : FdcParams) (f : Fdc) : (f.resetPosition p).geom = f.geom := rfl
@[simp] theorem resetPosition_track (p : FdcParams) (f : Fdc) : (f.resetPosition p).track = 0 := rfl
@[simp] theorem resetPosition_head (p : FdcParams) (f : Fdc) : (f.resetPosition p).head = 0#1 := rfl
@[simp] theorem resetPosition_trackReg (p : FdcParams) (f : Fdc) : (f.resetPosition p).trackReg = 0x00#8 := rfl
@[simp] theorem resetPosition_sectorReg (p : FdcParams) (f : Fdc) : (f.resetPosition p).sectorReg = 0x00#8 := rfl
@[simp] theorem resetPosition_dataReg (p : FdcParams) (f : Fdc) : (f.resetPosition p).dataReg = 0x00#8 := rfl
@[simp] theorem resetPosition_status (p : FdcParams) (f : Fdc) : (f.resetPosition p).status = 0x00#8 := rfl
@[simp] theorem resetPosition_irq (p : FdcParams) (f : Fdc) : (f.resetPosition p).irq = false := rfl
@[simp] theorem resetPosition_buf (p : FdcParams) (f : Fdc) : (f.resetPosition p).buf = f.buf := rfl
@[simp] theorem resetPosition_bufCap (p : FdcParams) (f : Fdc) : (f.resetPosition p).bufCap = f.bufCap := rfl
@[simp] theorem resetPosition_cur (p : FdcParams) (f : Fdc) : (f.resetPosition p).cur = 0 := rfl
@[simp] theorem resetPosition_len (p : FdcParams) (f : Fdc) : (f.resetPosition p).len = 0 := rfl
@[simp] theorem resetPosition_wpos (p : FdcParams) (f : Fdc) : (f.resetPosition p).wpos = none := rfl
@[simp] theorem resetPosition_drqCapable (p : FdcParams) (f : Fdc) : (f.resetPosition p).drqCapable = false := rfl
@[simp] theorem resetPosition_formatting (p : FdcParams) (f : Fdc) : (f.resetPosition p).formatting = false := rfl
@[simp] theorem resetPosition_lastStepDir (p : FdcParams) (f : Fdc) :
    (f.resetPosition p).lastStepDir = p.lastStepDirReset := rfl
@[simp] theorem resetPosition_bufGen (p : FdcParams) (f : Fdc) : (f.resetPosition p).bufGen = f.bufGen := rfl
@[simp] theorem resetPosition_draws (p : FdcParams) (f : Fdc) : (f.resetPosition p).draws = f.draws := rfl

/-! ### The Class 1 completion (44 R302) -/

@[simp] theorem class1Complete_image (p : FdcParams) (f : Fdc) (e : Bool) :
    (f.class1Complete p e).image = f.image := rfl
@[simp] theorem class1Complete_writable (p : FdcParams) (f : Fdc) (e : Bool) :
    (f.class1Complete p e).writable = f.writable := rfl
@[simp] theorem class1Complete_geom (p : FdcParams) (f : Fdc) (e : Bool) : (f.class1Complete p e).geom = f.geom := rfl
@[simp] theorem class1Complete_track (p : FdcParams) (f : Fdc) (e : Bool) :
    (f.class1Complete p e).track = f.track := rfl
@[simp] theorem class1Complete_head (p : FdcParams) (f : Fdc) (e : Bool) : (f.class1Complete p e).head = f.head := rfl
@[simp] theorem class1Complete_trackReg (p : FdcParams) (f : Fdc) (e : Bool) :
    (f.class1Complete p e).trackReg = f.trackReg := rfl
@[simp] theorem class1Complete_sectorReg (p : FdcParams) (f : Fdc) (e : Bool) :
    (f.class1Complete p e).sectorReg = f.sectorReg := rfl
@[simp] theorem class1Complete_dataReg (p : FdcParams) (f : Fdc) (e : Bool) :
    (f.class1Complete p e).dataReg = f.dataReg := rfl
@[simp] theorem class1Complete_status (p : FdcParams) (f : Fdc) (e : Bool) :
    (f.class1Complete p e).status = class1Status p.status f.track e := rfl
@[simp] theorem class1Complete_irq (p : FdcParams) (f : Fdc) (e : Bool) : (f.class1Complete p e).irq = true := rfl
@[simp] theorem class1Complete_buf (p : FdcParams) (f : Fdc) (e : Bool) : (f.class1Complete p e).buf = f.buf := rfl
@[simp] theorem class1Complete_bufCap (p : FdcParams) (f : Fdc) (e : Bool) :
    (f.class1Complete p e).bufCap = f.bufCap := rfl
@[simp] theorem class1Complete_cur (p : FdcParams) (f : Fdc) (e : Bool) : (f.class1Complete p e).cur = 0 := rfl
@[simp] theorem class1Complete_len (p : FdcParams) (f : Fdc) (e : Bool) : (f.class1Complete p e).len = 0 := rfl
@[simp] theorem class1Complete_wpos (p : FdcParams) (f : Fdc) (e : Bool) : (f.class1Complete p e).wpos = none := rfl
@[simp] theorem class1Complete_drqCapable (p : FdcParams) (f : Fdc) (e : Bool) :
    (f.class1Complete p e).drqCapable = false := rfl
@[simp] theorem class1Complete_formatting (p : FdcParams) (f : Fdc) (e : Bool) :
    (f.class1Complete p e).formatting = false := rfl
@[simp] theorem class1Complete_lastStepDir (p : FdcParams) (f : Fdc) (e : Bool) :
    (f.class1Complete p e).lastStepDir = f.lastStepDir := rfl
@[simp] theorem class1Complete_bufGen (p : FdcParams) (f : Fdc) (e : Bool) :
    (f.class1Complete p e).bufGen = f.bufGen := rfl
@[simp] theorem class1Complete_draws (p : FdcParams) (f : Fdc) (e : Bool) :
    (f.class1Complete p e).draws = f.draws := rfl

/-! ### DMA miss (43 R273) -/

@[simp] theorem dmaMiss_image (p : FdcParams) (f : Fdc) : (f.dmaMiss p).image = f.image := rfl
@[simp] theorem dmaMiss_writable (p : FdcParams) (f : Fdc) : (f.dmaMiss p).writable = f.writable := rfl
@[simp] theorem dmaMiss_geom (p : FdcParams) (f : Fdc) : (f.dmaMiss p).geom = f.geom := rfl
@[simp] theorem dmaMiss_track (p : FdcParams) (f : Fdc) : (f.dmaMiss p).track = f.track := rfl
@[simp] theorem dmaMiss_head (p : FdcParams) (f : Fdc) : (f.dmaMiss p).head = f.head := rfl
@[simp] theorem dmaMiss_trackReg (p : FdcParams) (f : Fdc) : (f.dmaMiss p).trackReg = f.trackReg := rfl
@[simp] theorem dmaMiss_sectorReg (p : FdcParams) (f : Fdc) : (f.dmaMiss p).sectorReg = f.sectorReg := rfl
@[simp] theorem dmaMiss_dataReg (p : FdcParams) (f : Fdc) : (f.dmaMiss p).dataReg = f.dataReg := rfl
@[simp] theorem dmaMiss_status (p : FdcParams) (f : Fdc) : (f.dmaMiss p).status = p.status.lostData := rfl
@[simp] theorem dmaMiss_irq (p : FdcParams) (f : Fdc) : (f.dmaMiss p).irq = true := rfl
@[simp] theorem dmaMiss_buf (p : FdcParams) (f : Fdc) : (f.dmaMiss p).buf = f.buf := rfl
@[simp] theorem dmaMiss_bufCap (p : FdcParams) (f : Fdc) : (f.dmaMiss p).bufCap = f.bufCap := rfl
@[simp] theorem dmaMiss_cur (p : FdcParams) (f : Fdc) : (f.dmaMiss p).cur = 0 := rfl
@[simp] theorem dmaMiss_len (p : FdcParams) (f : Fdc) : (f.dmaMiss p).len = 0 := rfl
@[simp] theorem dmaMiss_wpos (p : FdcParams) (f : Fdc) : (f.dmaMiss p).wpos = none := rfl
@[simp] theorem dmaMiss_drqCapable (p : FdcParams) (f : Fdc) : (f.dmaMiss p).drqCapable = f.drqCapable := rfl
@[simp] theorem dmaMiss_formatting (p : FdcParams) (f : Fdc) : (f.dmaMiss p).formatting = false := rfl
@[simp] theorem dmaMiss_lastStepDir (p : FdcParams) (f : Fdc) : (f.dmaMiss p).lastStepDir = f.lastStepDir := rfl
@[simp] theorem dmaMiss_bufGen (p : FdcParams) (f : Fdc) : (f.dmaMiss p).bufGen = f.bufGen := rfl
@[simp] theorem dmaMiss_draws (p : FdcParams) (f : Fdc) : (f.dmaMiss p).draws = f.draws := rfl

/-! ### The step (44 R296) -/

@[simp] theorem stepCommon_image (f : Fdc) (u : Bool) : (f.stepCommon u).1.image = f.image := rfl
@[simp] theorem stepCommon_writable (f : Fdc) (u : Bool) : (f.stepCommon u).1.writable = f.writable := rfl
@[simp] theorem stepCommon_geom (f : Fdc) (u : Bool) : (f.stepCommon u).1.geom = f.geom := rfl
@[simp] theorem stepCommon_track (f : Fdc) (u : Bool) :
    (f.stepCommon u).1.track = (stepTarget f.track f.geom.tracks f.lastStepDir).1 := rfl
@[simp] theorem stepCommon_head (f : Fdc) (u : Bool) : (f.stepCommon u).1.head = f.head := rfl
@[simp] theorem stepCommon_trackReg (f : Fdc) (u : Bool) :
    (f.stepCommon u).1.trackReg = if u then BitVec.ofNat 8 (stepTarget f.track f.geom.tracks f.lastStepDir).1 else f.trackReg := rfl
@[simp] theorem stepCommon_sectorReg (f : Fdc) (u : Bool) : (f.stepCommon u).1.sectorReg = f.sectorReg := rfl
@[simp] theorem stepCommon_dataReg (f : Fdc) (u : Bool) : (f.stepCommon u).1.dataReg = f.dataReg := rfl
@[simp] theorem stepCommon_status (f : Fdc) (u : Bool) : (f.stepCommon u).1.status = f.status := rfl
@[simp] theorem stepCommon_irq (f : Fdc) (u : Bool) : (f.stepCommon u).1.irq = f.irq := rfl
@[simp] theorem stepCommon_buf (f : Fdc) (u : Bool) : (f.stepCommon u).1.buf = f.buf := rfl
@[simp] theorem stepCommon_bufCap (f : Fdc) (u : Bool) : (f.stepCommon u).1.bufCap = f.bufCap := rfl
@[simp] theorem stepCommon_cur (f : Fdc) (u : Bool) : (f.stepCommon u).1.cur = f.cur := rfl
@[simp] theorem stepCommon_len (f : Fdc) (u : Bool) : (f.stepCommon u).1.len = f.len := rfl
@[simp] theorem stepCommon_wpos (f : Fdc) (u : Bool) : (f.stepCommon u).1.wpos = f.wpos := rfl
@[simp] theorem stepCommon_drqCapable (f : Fdc) (u : Bool) : (f.stepCommon u).1.drqCapable = f.drqCapable := rfl
@[simp] theorem stepCommon_formatting (f : Fdc) (u : Bool) : (f.stepCommon u).1.formatting = f.formatting := rfl
@[simp] theorem stepCommon_lastStepDir (f : Fdc) (u : Bool) : (f.stepCommon u).1.lastStepDir = f.lastStepDir := rfl
@[simp] theorem stepCommon_bufGen (f : Fdc) (u : Bool) : (f.stepCommon u).1.bufGen = f.bufGen := rfl
@[simp] theorem stepCommon_draws (f : Fdc) (u : Bool) : (f.stepCommon u).1.draws = f.draws := rfl

end Sys2Proof.Machine
end

