-- ==== Sys2Proof/Laws/Params.lean ====
section
/-! SUPPORT. Functions held as plain data, and what each operation that reads a parameter is at the decided values. -/

namespace Sys2Proof

/-! ### Functions held as plain data -/

@[simp] theorem ByBool.get_of {α : Type} (f : Bool → α) (b : Bool) : (ByBool.of f).get b = f b := by cases b <;> rfl
@[simp] theorem ByWidth.get_of {α : Type} (f : Width → α) (w : Width) : (ByWidth.of f).get w = f w := by
  cases w <;> rfl
@[simp] theorem ByClass.get_of {α : Type} (f : FaultClass → α) (c : FaultClass) : (ByClass.of f).get c = f c := by
  cases c <;> rfl

/-! ### The parts of the decided values -/

@[simp] theorem decided_ramSplit : Params.decided.ramSplit = 0x200000 := rfl
@[simp] theorem decided_vramSize : Params.decided.vramSize = 0x8000 := rfl
@[simp] theorem decided_map : Params.decided.map = .decided := rfl
@[simp] theorem decided_pte : Params.decided.pte = .decided := rfl
@[simp] theorem decided_faultCodes : Params.decided.faultCodes = .decided := rfl
@[simp] theorem decided_gsrOnFault : Params.decided.gsrOnFault = decidedGsrOnFault := rfl
@[simp] theorem decided_ovlReset : Params.decided.ovlReset = true := rfl
@[simp] theorem decided_fdc : Params.decided.fdc = .decided := rfl
@[simp] theorem decided_status : FdcParams.decided.status = .decided := rfl
@[simp] theorem decided_lastStepDirReset : FdcParams.decided.lastStepDirReset = .outward := rfl
@[simp] theorem decided_wrProt : StatusBits.decided.wrProt = 0x40#8 := rfl
@[simp] theorem decided_rnf : StatusBits.decided.rnf = 0x10#8 := rfl
@[simp] theorem decided_lostData : StatusBits.decided.lostData = 0x04#8 := rfl

end Sys2Proof

namespace Sys2Proof.Machine

variable {s : State}

/-! ### Page-table entries (30 R125, D4) -/

/-- The state uses the decided layout of an entry. -/
theorem pte_decided (h : s.cfg.params = .decided) : s.pte = .decided := by rw [State.pte, h]; rfl

theorem ptePresent_decided (e : BitVec 16) : ptePresent .decided e = (e.getLsbD 14 || e.getLsbD 13) := rfl

theorem pteWritable_decided (e : BitVec 16) : pteWritable .decided e = e.getLsbD 15 := rfl

theorem ptePpn_decided (e : BitVec 16) : ptePpn .decided e = e.extractLsb' 0 10 := rfl

theorem withHistory_decided (e : BitVec 16) (isWrite : Bool) :
    withHistory .decided e isWrite = historyAfter e isWrite := by cases isWrite <;> rfl

/-! ### The fault registers (30 R128 to R130, D8, D9) -/

/-- `GSR` after a fault repeats the high byte of `BSR0` above 0xFF. -/
theorem gsrOnFault_decided (c : FaultClass) (w : Width) (a : Addr) (pie : Bool) :
    gsrOnFault decidedGsrOnFault c w a pie =
      (BusFaultCodes.decided.high c w (a.getLsbD 0) pie &&& 0xFF00#16) ||| 0x00FF#16 := by
  simp [gsrOnFault, decidedGsrOnFault]

/-! ### DMA (42 R229, D19) -/

/-- The dummy cycle moves the count in write-mode only. -/
theorem dummyCycle_decided (h : s.cfg.params = .decided) :
    s.dummyCycle.dmaCount = if s.dmaDir then s.dmaCount else s.dmaCount + 1#14 := by
  rw [dummyCycle_dmaCount, h]
  cases s.dmaDir
  · rfl
  · exact BitVec.add_zero _

/-! ### The floppy controller (30 R137, R138, R140; D24 to D26, D37) -/

theorem fdcParams_decided (h : s.cfg.params = .decided) : s.cfg.params.fdc = .decided := by rw [h]; rfl

/-- The head select is bit 1 of the command. -/
theorem headSelect_decided (lo : BitVec 4) : headSelect .decided lo = some (BitVec.ofBool (lo.getLsbD 1)) := rfl

/-- The status a Class 1 command leaves, as a sum of its bits (44 R302). -/
theorem class1Status_toNat (track : Nat) (e : Bool) :
    (class1Status .decided track e).toNat = 0x20 + (if track = 0 then 0x04 else 0) + (if e then 0x10 else 0) := by
  unfold class1Status
  by_cases h : track = 0 <;> cases e <;> simp [h, flagIf, StatusBits.decided, stTrack0]

/-- The status Force Interrupt leaves, as a sum of its bits (44 R313). -/
theorem forceIntStatus_toNat (track : Nat) (w : Bool) :
    (forceIntStatus .decided track w).toNat =
      0x20 + (if w then 0 else 0x40) + (if track = 0 then 0x04 else 0) := by
  unfold forceIntStatus
  by_cases h : track = 0 <;> cases w <;> simp [h, flagIf, stTrack0, StatusBits.decided]

end Sys2Proof.Machine
end

