-- ==== Sys2Proof/Laws/Ops.lean ====
section
/-! SUPPORT. One spec lemma for each shared operation over memory, the MMU and the bus: what it can do, said once. -/

namespace Sys2Proof.Machine

/-! ### Memory writes change memory only -/

/-- `t` is `s` but for the four writable stores. -/
def KeepsRest (s t : State) : Prop :=
  t = { s with mapRam := t.mapRam, bram := t.bram, xram := t.xram, vram := t.vram }

theorem KeepsRest.refl (s : State) : KeepsRest s s := rfl

theorem KeepsRest.trans {s t u : State} (h : KeepsRest s t) (h' : KeepsRest t u) : KeepsRest s u := by
  unfold KeepsRest at *; rw [h', h]

theorem KeepsRest.cfg {s t : State} (h : KeepsRest s t) : t.cfg = s.cfg := by rw [h]
theorem KeepsRest.gsr {s t : State} (h : KeepsRest s t) : t.gsr = s.gsr := by rw [h]
theorem KeepsRest.bsr0 {s t : State} (h : KeepsRest s t) : t.bsr0 = s.bsr0 := by rw [h]
theorem KeepsRest.bsr1 {s t : State} (h : KeepsRest s t) : t.bsr1 = s.bsr1 := by rw [h]
theorem KeepsRest.gcr {s t : State} (h : KeepsRest s t) : t.gcr = s.gcr := by rw [h]
theorem KeepsRest.led {s t : State} (h : KeepsRest s t) : t.led = s.led := by rw [h]
theorem KeepsRest.dmaDir {s t : State} (h : KeepsRest s t) : t.dmaDir = s.dmaDir := by rw [h]
theorem KeepsRest.dmaCount {s t : State} (h : KeepsRest s t) : t.dmaCount = s.dmaCount := by rw [h]
theorem KeepsRest.dmaEn {s t : State} (h : KeepsRest s t) : t.dmaEn = s.dmaEn := by rw [h]
theorem KeepsRest.dmaIdmarw {s t : State} (h : KeepsRest s t) : t.dmaIdmarw = s.dmaIdmarw := by rw [h]
theorem KeepsRest.dmaAddr {s t : State} (h : KeepsRest s t) : t.dmaAddr = s.dmaAddr := by rw [h]
theorem KeepsRest.dcr {s t : State} (h : KeepsRest s t) : t.dcr = s.dcr := by rw [h]
theorem KeepsRest.fdc {s t : State} (h : KeepsRest s t) : t.fdc = s.fdc := by rw [h]
theorem KeepsRest.stubDraws {s t : State} (h : KeepsRest s t) : t.stubDraws = s.stubDraws := by rw [h]
theorem KeepsRest.args {s t : State} (h : KeepsRest s t) : t.args = s.args := by rw [h]
theorem KeepsRest.inputs {s t : State} (h : KeepsRest s t) : t.inputs = s.inputs := by rw [h]
theorem KeepsRest.out {s t : State} (h : KeepsRest s t) : t.out = s.out := by rw [h]
theorem KeepsRest.ovl {s t : State} (h : KeepsRest s t) : t.ovl = s.ovl := by rw [h]; rfl
theorem KeepsRest.pie {s t : State} (h : KeepsRest s t) : t.pie = s.pie := by rw [h]; rfl

/-- What is kept, in the terms of the statements; the outputs that follow do not matter. -/
theorem KeepsRest.onlyMemory {s t : State} (h : KeepsRest s t) (o : Outputs) : OnlyMemoryDiffers s (t.setOut o) where
  faultRegs := ⟨h.gsr, h.bsr0, h.bsr1⟩
  control := ⟨h.gcr, h.led, h.dmaDir, h.dmaCount, h.dmaEn, h.dmaIdmarw, h.dmaAddr, h.dcr⟩
  model := ⟨h.cfg, h.args, h.inputs, h.stubDraws⟩
  fdc := h.fdc

theorem putByte_keepsRest (s : State) (st : Store) (i : Nat) (v : Byte) : KeepsRest s (s.putByte st i v) := by
  cases st <;> rfl

theorem writeCell_keepsRest (s : State) (c : Option (Store × Nat)) (v : Byte) : KeepsRest s (s.writeCell c v) := by
  cases c with
  | none => rfl
  | some c => exact putByte_keepsRest s c.1 c.2 v

theorem writeFrom_keepsRest (cell : Nat → Option (Store × Nat)) (vs : List Byte) :
    ∀ (s : State) (k : Nat), KeepsRest s (s.writeFrom cell k vs) := by
  induction vs with
  | nil => intro s k; rfl
  | cons v vs ih => intro s k; exact (writeCell_keepsRest s (cell k) v).trans (ih _ _)

theorem writeBytes_keepsRest (s : State) (cell : Nat → Option (Store × Nat)) (w : Width) (v : BitVec 32) :
    KeepsRest s (s.writeBytes cell w v) := writeFrom_keepsRest cell _ s 0

theorem setMapEntry_keepsRest (s : State) (page : BitVec 10) (e : BitVec 16) :
    KeepsRest s (s.setMapEntry page e) := (putByte_keepsRest s _ _ _).trans (putByte_keepsRest _ _ _ _)

theorem historyUpdate_keepsRest (s : State) (page : BitVec 10) (isWrite : Bool) :
    KeepsRest s (s.historyUpdate page isWrite) := by
  unfold State.historyUpdate
  dsimp only
  split
  · exact setMapEntry_keepsRest s page _
  · rfl

theorem touch_keepsRest (s : State) (a : Addr) (isWrite : Bool) : KeepsRest s (s.touch a isWrite) := by
  unfold State.touch
  split
  · exact historyUpdate_keepsRest s _ isWrite
  · rfl

/-! ### Bytes and entries after the other updates -/

@[simp] theorem byteAt_setOut (s : State) (o : Outputs) (st : Store) (i : Nat) :
    (s.setOut o).byteAt st i = s.byteAt st i := by cases st <;> rfl
@[simp] theorem byteAt_setFdc (s : State) (f : Fdc) (st : Store) (i : Nat) :
    (s.setFdc f).byteAt st i = s.byteAt st i := by cases st <;> rfl
@[simp] theorem byteAt_clearStatus (s : State) (st : Store) (i : Nat) :
    s.clearStatus.byteAt st i = s.byteAt st i := by cases st <;> rfl
@[simp] theorem byteAt_powerOnReset (s : State) (st : Store) (i : Nat) :
    s.powerOnReset.byteAt st i = s.byteAt st i := by cases st <;> rfl
@[simp] theorem byteAt_raiseBusError (s : State) (c : FaultClass) (acc : Access) (st : Store) (i : Nat) :
    (s.raiseBusError c acc).byteAt st i = s.byteAt st i := by cases st <;> rfl
@[simp] theorem mapEntry_setOut (s : State) (o : Outputs) (p : BitVec 10) :
    (s.setOut o).mapEntry p = s.mapEntry p := rfl
@[simp] theorem mapEntry_raiseBusError (s : State) (c : FaultClass) (acc : Access) (p : BitVec 10) :
    (s.raiseBusError c acc).mapEntry p = s.mapEntry p := rfl

/-! ### Writing the bytes of an access -/

/-- ROM keeps its bytes under every write (41 R197). -/
theorem writeCell_rom (s : State) (c : Option (Store × Nat)) (v : Byte) (j : Nat) :
    (s.writeCell c v).byteAt .rom j = s.byteAt .rom j := by
  cases c with
  | none => rfl
  | some c => obtain ⟨st, i⟩ := c; cases st <;> rfl

/-- A byte that is none of the cells written reads as before. -/
theorem writeFrom_frame (cell : Nat → Option (Store × Nat)) (st : Store) (j : Nat) (vs : List Byte) :
    ∀ (s : State) (k : Nat), (∀ i, i < vs.length → cell (k + i) ≠ some (st, j)) →
      (s.writeFrom cell k vs).byteAt st j = s.byteAt st j := by
  induction vs with
  | nil => intro s k _; rfl
  | cons v vs ih =>
    intro s k h
    show ((s.writeCell (cell k) v).writeFrom cell (k + 1) vs).byteAt st j = _
    rw [ih _ _ (fun i hi => by
      have := h (i + 1) (by simpa using hi)
      rwa [show k + 1 + i = k + (i + 1) by omega])]
    have h0 := h 0 (by simp)
    rw [Nat.add_zero] at h0
    cases hc : cell k with
    | none => rfl
    | some c =>
      obtain ⟨st', i⟩ := c
      refine byteAt_putByte_other s v ?_
      rintro ⟨rfl, rfl⟩
      exact h0 hc

/-- The cell that takes byte `i` of the data reads as that byte, when the cells of an access are all distinct. -/
theorem writeFrom_stored (cell : Nat → Option (Store × Nat)) (st : Store) (j : Nat) (hst : st ≠ .rom)
    (vs : List Byte) :
    ∀ (s : State) (k i : Nat) (hi : i < vs.length), cell (k + i) = some (st, j) →
      (∀ i', i' < vs.length → i' ≠ i → cell (k + i') ≠ some (st, j)) →
      (s.writeFrom cell k vs).byteAt st j = vs[i] := by
  induction vs with
  | nil => intro s k i hi; simp at hi
  | cons v vs ih =>
    intro s k i hi hc hd
    show ((s.writeCell (cell k) v).writeFrom cell (k + 1) vs).byteAt st j = _
    cases i with
    | zero =>
      rw [writeFrom_frame cell st j vs _ _ (fun i' hi' => by
        have := hd (i' + 1) (by simpa using hi') (by omega)
        rwa [show k + 1 + i' = k + (i' + 1) by omega])]
      rw [Nat.add_zero] at hc
      rw [hc]
      exact byteAt_putByte_same s j v hst
    | succ i =>
      simp only [List.getElem_cons_succ]
      refine ih _ _ i _ (by rwa [show k + 1 + i = k + (i + 1) by omega]) (fun i' hi' hne => ?_)
      have := hd (i' + 1) (by simpa using hi') (by omega)
      rwa [show k + 1 + i' = k + (i' + 1) by omega]

/-- The bytes of an access, as many as the width has. -/
@[simp] theorem bytesOf_length (v : BitVec 32) (w : Width) : (bytesOf v w).length = widthBytes w := by
  cases w <;> rfl

/-- Byte `k` of the data of an access, the most significant first (20 R87). -/
theorem bytesOf_get (v : BitVec 32) (w : Width) (k : Nat) (h : k < (bytesOf v w).length) :
    (bytesOf v w)[k] = beByte v.toNat (widthBytes w) k := by
  cases w
  · simp only [bytesOf_length, widthBytes] at h
    obtain rfl : k = 0 := by omega
    apply BitVec.eq_of_toNat_eq
    simp [bytesOf, beByte, widthBytes]
  · simp only [bytesOf_length, widthBytes] at h
    obtain rfl | rfl : k = 0 ∨ k = 1 := by omega
    all_goals
      apply BitVec.eq_of_toNat_eq
      simp [bytesOf, beByte, widthBytes, Nat.shiftRight_eq_div_pow]
  · simp only [bytesOf_length, widthBytes] at h
    obtain rfl | rfl | rfl | rfl : k = 0 ∨ k = 1 ∨ k = 2 ∨ k = 3 := by omega
    all_goals
      apply BitVec.eq_of_toNat_eq
      simp [bytesOf, beByte, widthBytes, Nat.shiftRight_eq_div_pow]

/-- A write leaves every byte that is none of its cells. -/
theorem writeBytes_frame (s : State) (cell : Nat → Option (Store × Nat)) (w : Width) (v : BitVec 32) (st : Store)
    (j : Nat) (h : ∀ k, k < widthBytes w → cell k ≠ some (st, j)) :
    (s.writeBytes cell w v).byteAt st j = s.byteAt st j :=
  writeFrom_frame cell st j _ s 0 (fun i hi => by simpa using h i (by simpa using hi))

/-- A write stores byte `k` of its data in cell `k`, when its cells are distinct. -/
theorem writeBytes_stored (s : State) (cell : Nat → Option (Store × Nat)) (w : Width) (v : BitVec 32) (st : Store)
    (j k : Nat) (hst : st ≠ .rom) (hk : k < widthBytes w) (hc : cell k = some (st, j))
    (hd : ∀ k', k' < widthBytes w → k' ≠ k → cell k' ≠ some (st, j)) :
    (s.writeBytes cell w v).byteAt st j = beByte v.toNat (widthBytes w) k := by
  have hk' : k < (bytesOf v w).length := by simpa using hk
  rw [← bytesOf_get v w k hk']
  exact writeFrom_stored cell st j hst _ s 0 k hk' (by simpa using hc)
    (fun i hi hne => by simpa using hd i (by simpa using hi) hne)

/-! ### Reading the bytes of an access -/

/-- An assembled value has the width of the access (41 R206). -/
theorem assemble_hasWidth (f : Nat → Byte) (w : Width) : hasWidth (assemble f w) w = true := by cases w <;> rfl

/-- Byte `k` of an assembled value is the byte at offset `k` (20 R86). -/
theorem assemble_byte (f : Nat → Byte) (w : Width) (k : Nat) (hk : k < widthBytes w) :
    beByte (valueNat (assemble f w)) (widthBytes w) k = f k := by
  cases w
  · simp only [widthBytes] at hk
    obtain rfl : k = 0 := by omega
    apply BitVec.eq_of_toNat_eq
    simp [beByte, valueNat, assemble, widthBytes]
  · simp only [widthBytes] at hk
    have h0 := (f 0).isLt
    have h1 := (f 1).isLt
    obtain rfl | rfl : k = 0 ∨ k = 1 := by omega
    all_goals
      apply BitVec.eq_of_toNat_eq
      simp only [beByte, valueNat, assemble, widthBytes, BitVec.toNat_ofNat, BitVec.toNat_append,
        Nat.shiftLeft_eq]
      rw [← Nat.shiftLeft_eq, ← Nat.shiftLeft_add_eq_or_of_lt h1, Nat.shiftLeft_eq]
      norm_num
      omega
  · simp only [widthBytes] at hk
    have h0 := (f 0).isLt
    have h1 := (f 1).isLt
    have h2 := (f 2).isLt
    have h3 := (f 3).isLt
    obtain rfl | rfl | rfl | rfl : k = 0 ∨ k = 1 ∨ k = 2 ∨ k = 3 := by omega
    all_goals
      apply BitVec.eq_of_toNat_eq
      simp only [beByte, valueNat, assemble, widthBytes, BitVec.toNat_ofNat, BitVec.toNat_append]
      rw [← Nat.shiftLeft_add_eq_or_of_lt h3, ← Nat.shiftLeft_add_eq_or_of_lt h2,
        ← Nat.shiftLeft_add_eq_or_of_lt h1]
      simp only [Nat.shiftLeft_eq]
      norm_num
      omega

/-! ### Page-table entries -/

/-- The byte of a 16-bit value above the other gives the value back. -/
theorem halves_append (e : BitVec 16) : e.extractLsb' 8 8 ++ e.extractLsb' 0 8 = e := by
  ext i hi
  simp only [BitVec.getElem_append, BitVec.getElem_extractLsb']
  split
  · next h => simp [← BitVec.getLsbD_eq_getElem]
  · next h => simp only [show 8 + (i - 8) = i by omega, BitVec.getLsbD_eq_getElem hi]

/-- The entry just set. -/
theorem mapEntry_setMapEntry_same (s : State) (p : BitVec 10) (e : BitVec 16) :
    (s.setMapEntry p e).mapEntry p = e := by
  unfold State.mapEntry State.setMapEntry
  rw [byteAt_putByte_other _ _ (by omega), byteAt_putByte_same _ _ _ (by decide),
    byteAt_putByte_same _ _ _ (by decide), halves_append]

/-- A byte of another store, or of another entry, is as before. -/
theorem byteAt_setMapEntry_other (s : State) (p : BitVec 10) (e : BitVec 16) (st : Store) (i : Nat)
    (h : ¬(st = .map ∧ i / 2 = p.toNat)) : (s.setMapEntry p e).byteAt st i = s.byteAt st i := by
  unfold State.setMapEntry
  rw [byteAt_putByte_other _ _ (fun ⟨h1, h2⟩ => h ⟨h1, by omega⟩),
    byteAt_putByte_other _ _ (fun ⟨h1, h2⟩ => h ⟨h1, by omega⟩)]

/-- `history_update`: the entry gains its history, and every other byte of every store is as before (40 R172). -/
theorem historyUpdate_spec (s : State) (p : BitVec 10) (isWrite : Bool) :
    (s.historyUpdate p isWrite).mapEntry p = withHistory s.pte (s.mapEntry p) isWrite ∧
      ∀ st i, ¬(st = .map ∧ i / 2 = p.toNat) → (s.historyUpdate p isWrite).byteAt st i = s.byteAt st i := by
  unfold State.historyUpdate
  by_cases h : ptePresent s.pte (s.mapEntry p) = true
  · simp only [h, if_true]
    exact ⟨mapEntry_setMapEntry_same s p _, fun st i => byteAt_setMapEntry_other s p _ st i⟩
  · simp [h, withHistory]

/-- The side effect of a translation, below the boundary and above it (40 R171, R173, R174). -/
theorem touch_spec (s : State) (a : Addr) (isWrite : Bool) :
    (s.cfg.params = .decided → a.toNat < 0x400000 → HistoryOnly s (s.touch a isWrite) (pageOf a) isWrite) ∧
      SameMemoryButMap s (s.touch a isWrite) ∧ (0x400000 ≤ a.toNat → s.touch a isWrite = s) := by
  have hs := historyUpdate_spec s (pageOf a) isWrite
  unfold State.touch belowBoundary ramBoundary
  refine ⟨fun hp h => ?_, fun st i hst => ?_, fun h => ?_⟩
  · simp only [h, decide_true, if_true]
    refine ⟨?_, fun i hi => hs.2 _ i (fun e => hi e.2)⟩
    rw [hs.1, pte_decided hp, withHistory_decided]
  · split
    · exact hs.2 st i (fun e => hst e.1)
    · rfl
  · simp [Nat.not_lt.mpr h]

/-- History never touches the page number (40 R174). -/
theorem ptePpn_historyAfter (e : BitVec 16) (isWrite : Bool) :
    ptePpn .decided (historyAfter e isWrite) = ptePpn .decided e := by
  rw [ptePpn_decided, ptePpn_decided]
  unfold historyAfter
  split
  · apply BitVec.eq_of_getLsbD_eq
    intro i hi
    simp only [BitVec.getLsbD_extractLsb', BitVec.getLsbD_or, hi, decide_true, Bool.true_and]
    cases isWrite <;> (interval_cases i <;> simp)
  · rfl

/-- A second access of the same kind adds no history. -/
theorem historyAfter_idem (e : BitVec 16) (isWrite : Bool) :
    historyAfter (historyAfter e isWrite) isWrite = historyAfter e isWrite := by
  unfold historyAfter
  by_cases h : (e.getLsbD 14 || e.getLsbD 13) = true
  · rw [if_pos h]
    cases isWrite <;> simp [BitVec.or_assoc]
  · rw [if_neg h, if_neg h]

/-! ### The permission check -/

/-- The kernel window below the boundary is the first 512 KB (40 R178). -/
theorem inKernelWindow_iff (a : Addr) (h : a.toNat < 0x400000) : inKernelWindow a = decide (a.toNat < 0x080000) := by
  unfold inKernelWindow
  rw [decide_eq_decide, ← BitVec.toNat_inj]
  simp only [BitVec.extractLsb'_toNat, Nat.shiftRight_eq_div_pow, BitVec.toNat_ofNat]
  omega

/-- The supervisor bypass (40 R176). -/
@[simp] theorem checkAccess_supervisor (s : State) (a : Addr) (isWrite : Bool) :
    s.checkAccess a isWrite true = .allowed := rfl

/-- When a user access is allowed (40 R175). -/
theorem checkAccess_user_allowed (s : State) (a : Addr) (isWrite : Bool) :
    s.checkAccess a isWrite false = .allowed ↔
      a.toNat < 0x400000 ∧ ptePresent s.pte (s.mapEntry (pageOf a)) = true ∧ inKernelWindow a = false ∧
        (isWrite = true → pteWritable s.pte (s.mapEntry (pageOf a)) = true) := by
  unfold State.checkAccess belowBoundary ramBoundary
  by_cases h1 : a.toNat < 0x400000 <;> cases h2 : ptePresent s.pte (s.mapEntry (pageOf a)) <;>
    cases h3 : inKernelWindow a <;> cases isWrite <;> cases h4 : pteWritable s.pte (s.mapEntry (pageOf a)) <;>
    simp [h1]

/-! ### An access that reaches a row -/

/-- What an access of a row answers when it answers a next state. -/
theorem accessRow_next {resched : Bool} {rd : Width → Addr → State → ReadValue × State}
    {wr : BitVec 32 → Width → Addr → State → State} {acc : Access} {s t : State}
    (h : accessRow resched rd wr acc s = .next t) :
    keepsContract acc.width acc.addr = true ∧
      ((acc.dir = .read ∧ t = (rd acc.width acc.addr s).2.setOut (readOut (rd acc.width acc.addr s).1 resched)) ∨
        (∃ v, acc.dir = .write v ∧ t = (wr v acc.width acc.addr s).setOut (writeOut resched))) := by
  unfold accessRow at h
  by_cases hc : keepsContract acc.width acc.addr = true
  · rw [if_pos hc] at h
    refine ⟨hc, ?_⟩
    cases hd : acc.dir with
    | read => rw [hd] at h; exact .inl ⟨rfl, by simpa using h.symm⟩
    | write v => rw [hd] at h; exact .inr ⟨v, rfl, by simpa using h.symm⟩
  · rw [if_neg hc] at h; simp at h

/-- A read of a row completes, under the contract. -/
theorem accessRow_read (resched : Bool) (rd : Width → Addr → State → ReadValue × State)
    (wr : BitVec 32 → Width → Addr → State → State) {w : Width} {a : Addr} (s : State)
    (h : keepsContract w a = true) :
    accessRow resched rd wr ⟨.read, w, a⟩ s = .next ((rd w a s).2.setOut (readOut (rd w a s).1 resched)) := by
  simp [accessRow, h]

/-- A write of a row completes, under the contract. -/
theorem accessRow_write (resched : Bool) (rd : Width → Addr → State → ReadValue × State)
    (wr : BitVec 32 → Width → Addr → State → State) {w : Width} {a : Addr} {v : BitVec 32} (s : State)
    (h : keepsContract w a = true) :
    accessRow resched rd wr ⟨.write v, w, a⟩ s = .next ((wr v w a s).setOut (writeOut resched)) := by
  simp [accessRow, h]

/-! ### A bus transaction -/

/-- What a transaction answers when it answers a next state: the bus error, or the row it reaches. -/
theorem transact_next {sup : Bool} {acc : Access} {s t : State} (h : transact sup acc s = .next t) :
    keepsContract acc.width acc.addr = true ∧
      ((∃ c, s.checkAccess (s.overlaid acc).addr (isWriteDir acc.dir) sup = .denied c ∧
          t = s.deny c (s.overlaid acc)) ∨
        (s.checkAccess (s.overlaid acc).addr (isWriteDir acc.dir) sup = .allowed ∧
          runRow (decodeRow s.cfg.params.map (s.overlaid acc).addr) (s.overlaid acc) s = .next t)) := by
  unfold transact at h
  by_cases hc : keepsContract acc.width acc.addr = true
  · rw [if_pos hc] at h
    refine ⟨hc, ?_⟩
    simp only at h
    split at h
    · next c hv => exact .inl ⟨c, hv, by simpa using h.symm⟩
    · next hv => exact .inr ⟨hv, h⟩
  · rw [if_neg hc] at h; simp at h

/-- Every operation of format STIM that is a transaction runs as one (41 R190, R191). -/
theorem exec_transaction {i : Instr} {sup : Bool} {acc : Access} (h : transactionOf i = some (sup, acc))
    (s : State) : exec i s = transact sup acc s := by
  have e1 : ∀ d : BitVec 8, d.setWidth 32 = 0#24 ++ d := by
    intro d; apply BitVec.eq_of_toNat_eq; rw [BitVec.toNat_append]; simp; omega
  have e2 : ∀ d : BitVec 16, d.setWidth 32 = 0#16 ++ d := by
    intro d; apply BitVec.eq_of_toNat_eq; rw [BitVec.toNat_append]; simp; omega
  cases i <;>
    simp only [transactionOf, e1, e2, Option.some.injEq, Prod.mk.injEq, reduceCtorEq] at h <;>
    obtain ⟨rfl, rfl⟩ := h <;> rfl

/-- A row of the table is run by the operation of its name. -/
theorem exec_row (r : AddrRow) (acc : Access) (s : State) : exec (r.instr acc) s = runRow r acc s := by
  cases r <;> rfl

end Sys2Proof.Machine
end

