-- ==== Sys2Proof/Laws/Fdc.lean ====
section
/-! SUPPORT. One spec lemma for each shared operation of the floppy controller. -/

namespace Sys2Proof.Machine

/-! ### One write of an FDC register -/

/-- What every operation that writes an FDC register answers: the controller after the write, `resched`, and nothing
else (43 R261, R262). -/
theorem fdcWriteOp_spec (wr : Fdc → Fdc) (s : State) :
    ∃ t, fdcWriteOp wr s = .next t ∧ t.out = writeOut true ∧ t.fdc = wr s.fdc ∧ OnlyFdcDiffers s t :=
  ⟨_, rfl, rfl, rfl, ⟨fun st i => by simp, ⟨rfl, rfl, rfl⟩, ⟨rfl, rfl, rfl, rfl, rfl, rfl, rfl, rfl⟩,
    ⟨rfl, rfl, rfl, rfl⟩⟩⟩

/-- What every operation that reads an FDC register answers (43 R260, R262). -/
theorem fdcReadOp_spec (rd : Fdc → Byte × Fdc) (s : State) :
    ∃ t, fdcReadOp rd s = .next t ∧ t.out = readOut (.v8 (rd s.fdc).1) true ∧ t.fdc = (rd s.fdc).2 ∧
      OnlyFdcDiffers s t :=
  ⟨_, rfl, rfl, rfl, ⟨fun st i => by simp, ⟨rfl, rfl, rfl⟩, ⟨rfl, rfl, rfl, rfl, rfl, rfl, rfl, rfl⟩,
    ⟨rfl, rfl, rfl, rfl⟩⟩⟩

/-- The operation of a command is its body after the command-write prologue (44 R290). -/
theorem exec_cmd (c : FdcCmd) (lo : BitVec 4) (s : State) :
    exec (c.instr lo) s = fdcWriteOp (Fdc.command (commandBody s.cfg c lo)) s := by
  cases c <;> rfl

/-- The prologue without an image (44 R290). -/
theorem command_noImage (body : Fdc → Fdc) (f : Fdc) (h : f.image = none) :
    Fdc.command body f = { f with status := 0x80#8, irq := true } := by
  simp [Fdc.command, h, Fdc.report, Fdc.clearIrq, stNotReady]

/-- The prologue with an image: the IRQ is cleared and the body runs (44 R290). -/
theorem command_image (body : Fdc → Fdc) (f : Fdc) (h : f.image ≠ none) :
    Fdc.command body f = body f.clearIrq := by
  unfold Fdc.command
  split
  · next h' => exact absurd h' h
  · rfl

/-- The Class 2/3 prologue with an image, for a command that is not turned away (44 R301). -/
theorem class23_runs (p : FdcParams) (wc : Bool) (head : Option (BitVec 1)) (body : Fdc → Fdc) (f : Fdc) (h : f.image ≠ none)
    (hw : wc = true → f.writable = true) :
    Fdc.class23 p wc head body f = body (f.markCapable.selectHead head) := by
  unfold Fdc.class23
  split
  · next h' => exact absurd h' h
  · rw [if_neg]
    simp only [Bool.and_eq_true, Bool.not_eq_true', not_and, Bool.not_eq_false]
    exact hw

/-- The Class 2/3 prologue turns a write-class command away from a write-protected image (44 R301). -/
theorem class23_protected (p : FdcParams) (head : Option (BitVec 1)) (body : Fdc → Fdc) (f : Fdc) (h : f.image ≠ none)
    (hw : f.writable = false) :
    Fdc.class23 p true head body f = { f with drqCapable := true, status := p.status.wrProt, irq := true } := by
  unfold Fdc.class23
  split
  · next h' => exact absurd h' h
  · simp [hw, Fdc.report, Fdc.markCapable]

/-! ### The Class 2/3 commands, once the prologues have let them run -/

/-- The controller as the body of a Class 2/3 command sees it (44 R301). -/
abbrev Fdc.ready (p : FdcParams) (lo : BitVec 4) (f : Fdc) : Fdc := f.markCapable.selectHead (headSelect p lo)

theorem rdsec_runs (p : FdcParams) (lo : BitVec 4) (f : Fdc) (h : f.image ≠ none) :
    Fdc.rdsec p lo f = (Fdc.ready p lo f).readSectors p 1 := class23_runs p false (headSelect p lo) _ f h (fun h => nomatch h)

theorem rdsecM_runs (p : FdcParams) (lo : BitVec 4) (f : Fdc) (h : f.image ≠ none) :
    Fdc.rdsecM p lo f = (Fdc.ready p lo f).readSectors p f.geom.spt := class23_runs p false (headSelect p lo) _ f h (fun h => nomatch h)

theorem wrsec_runs (p : FdcParams) (lo : BitVec 4) (f : Fdc) (h : f.image ≠ none) (hw : f.writable = true) :
    Fdc.wrsec p lo f = (Fdc.ready p lo f).writeSectors 1 := class23_runs p true (headSelect p lo) _ f h (fun _ => hw)

theorem wrsecM_runs (p : FdcParams) (lo : BitVec 4) (f : Fdc) (h : f.image ≠ none) (hw : f.writable = true) :
    Fdc.wrsecM p lo f = (Fdc.ready p lo f).writeSectors f.geom.spt := class23_runs p true (headSelect p lo) _ f h (fun _ => hw)

theorem rdaddr_runs (p : FdcParams) (lo : BitVec 4) (f : Fdc) (h : f.image ≠ none) :
    Fdc.rdaddr p lo f = (Fdc.ready p lo f).openRead (Fdc.ready p lo f).idRecord := class23_runs p false (headSelect p lo) _ f h (fun h => nomatch h)

theorem rdtrk_runs (p : FdcParams) (lo : BitVec 4) (f : Fdc) (h : f.image ≠ none) :
    Fdc.rdtrk p lo f = (Fdc.ready p lo f).report p.status.rnf := class23_runs p false (headSelect p lo) _ f h (fun h => nomatch h)

theorem fmttrk_runs (cfg : Config) (lo : BitVec 4) (f : Fdc) (h : f.image ≠ none) (hw : f.writable = true) :
    Fdc.fmttrk cfg lo f = (Fdc.ready cfg.params.fdc lo f).openTransfer cfg.formatStreamLen none true :=
  class23_runs cfg.params.fdc true _ _ f h (fun _ => hw)

/-! ### The transfer buffer and the image -/

/-- What the buffer holds after bytes are written from position `p` up. -/
theorem memGet_bufWrite (bs : List Byte) :
    ∀ (m : Memory) (p i : Nat), memGet (bufWrite m p bs) i =
      if h : p ≤ i ∧ i - p < bs.length then some bs[i - p] else memGet m i := by
  induction bs with
  | nil => intro m p i; simp [bufWrite]
  | cons b bs ih =>
    intro m p i
    simp only [bufWrite]
    rw [ih]
    by_cases h1 : i = p
    · subst h1; simp
    · by_cases h2 : p + 1 ≤ i ∧ i - (p + 1) < bs.length
      · have h3 : p ≤ i ∧ i - p < (b :: bs).length := by simp only [List.length_cons]; omega
        rw [dif_pos h2, dif_pos h3]
        simp [show i - p = (i - (p + 1)) + 1 by omega]
      · have h3 : ¬(p ≤ i ∧ i - p < (b :: bs).length) := by simp only [List.length_cons]; omega
        rw [dif_neg h2, dif_neg h3, memGet_memSet_other _ _ h1]

theorem bufWrite_wf (bs : List Byte) :
    ∀ (m : Memory) (p : Nat), Memory.wf m = true → Memory.wf (bufWrite m p bs) = true := by
  induction bs with
  | nil => intro m p h; exact h
  | cons b bs ih => intro m p h; exact ih _ _ (memSet_wf p b h)

/-- A position of the buffer after a read transfer is opened (43 R276). -/
theorem bufByte_openRead (f : Fdc) (bs : List Byte) (p : Nat) :
    (f.openRead bs).bufByte p = if h : p < bs.length then bs[p] else f.bufByte p := by
  simp only [Fdc.bufByte, openRead_buf, openRead_bufGen, memGet_bufWrite, Nat.zero_le, true_and, Nat.sub_zero]
  split <;> rfl

/-- The bytes read from the image, by position (45 R331). -/
theorem imgRead_get (img : List Byte) (off n p : Nat) :
    (imgRead img off n)[p]? = if p < n then img[off + p]? else none := by
  simp only [imgRead, List.getElem?_take, List.getElem?_drop]

theorem imgRead_length (img : List Byte) (off n : Nat) : (imgRead img off n).length = min n (img.length - off) := by
  simp [imgRead]

/-- A write never changes the size of the image (45 R332). -/
theorem imgWrite_length (img : List Byte) (off : Nat) (bs : List Byte) :
    (imgWrite img off bs).length = img.length := by
  simp only [imgWrite, List.length_append, List.length_take, List.length_drop]
  omega

/-- The bytes of the image after a write (45 R332). -/
theorem imgWrite_get (img : List Byte) (off : Nat) (bs : List Byte) (k : Nat) (hk : k < img.length) :
    (imgWrite img off bs)[k]? = if off ≤ k ∧ k < off + bs.length then bs[k - off]? else img[k]? := by
  simp only [imgWrite, List.append_assoc, List.getElem?_append, List.length_take, List.getElem?_take,
    List.getElem?_drop]
  by_cases h1 : k < off
  · rw [if_pos (by omega), if_pos h1, if_neg (by omega)]
  · rw [if_neg (by omega)]
    have hm : min off img.length = off := by omega
    rw [hm]
    by_cases h2 : k < off + bs.length
    · rw [if_pos (by omega), if_pos (by omega), if_pos (by omega)]
    · rw [if_neg (by omega), if_neg (by omega)]
      congr 1
      omega

/-! ### The step (44 R296) -/

/-- The step clamps at both ends, and reports the clamp at the top. -/
theorem stepTarget_spec (track tracks : Nat) (dir : StepDir) (h : 0 < tracks) :
    ((stepTarget track tracks dir).1 : Int) = min (max ((track : Int) + dir.toInt) 0) ((tracks : Int) - 1) ∧
      (stepTarget track tracks dir).2 = decide ((tracks : Int) - 1 < (track : Int) + dir.toInt) := by
  unfold stepTarget
  dsimp only
  by_cases h1 : (track : Int) + dir.toInt < 0
  · simp only [h1, if_true]
    rw [if_neg (by omega)]
    refine ⟨by simp; omega, ?_⟩
    simp only [Bool.false_eq, decide_eq_false_iff_not, not_lt]
    omega
  · simp only [h1, if_false]
    by_cases h2 : (track : Int) + dir.toInt > (tracks : Int) - 1
    · rw [if_pos h2]
      refine ⟨by simp only; omega, ?_⟩
      simp only [Bool.true_eq, decide_eq_true_eq]
      omega
    · rw [if_neg h2]
      refine ⟨by simp only; omega, ?_⟩
      simp only [Bool.false_eq, decide_eq_false_iff_not, not_lt]
      omega

/-- Whether a step raises seek-error. -/
theorem stepCommon_seekError (f : Fdc) (u : Bool) :
    (f.stepCommon u).2 = (stepTarget f.track f.geom.tracks f.lastStepDir).2 := rfl

/-- Closing leaves no transfer (43 R275). -/
theorem close_closed (f : Fdc) : TransferClosed f.close := ⟨rfl, rfl, rfl, rfl⟩

end Sys2Proof.Machine
end

