-- ==== Sys2Proof/Laws/PerInstr.lean ====
section
/-! SUPPORT. One lemma per operation: the word its encoding writes meets the mask and the match value of the operation's
own row of the opcode table, at the port of the row's format (30 R146). -/

namespace Sys2Proof.Laws

/-- A row of the opcode table: the port of its format, its mask and its match value. -/
structure TableRow where
  port : Port
  mask : BitVec 64
  pattern : BitVec 64
deriving DecidableEq, Repr

/-- The row of format ADDR behind an address row. -/
def addrTableRow (r : AddrRow) : TableRow := ⟨.addr, 0#40 ++ r.mask, 0#40 ++ r.pattern⟩

/-- The row of the opcode table an operation belongs to. -/
def tableRow : Instr → TableRow
  | .rdB _ _ => ⟨.stim, 0xF700000000000000#64, 0x0#64⟩
  | .rdW _ _ => ⟨.stim, 0xF700000000000000#64, 0x1000000000000000#64⟩
  | .rdL _ _ => ⟨.stim, 0xF700000000000000#64, 0x2000000000000000#64⟩
  | .wrB _ _ _ => ⟨.stim, 0xF700000000000000#64, 0x4000000000000000#64⟩
  | .wrW _ _ _ => ⟨.stim, 0xF700000000000000#64, 0x5000000000000000#64⟩
  | .wrL _ _ _ => ⟨.stim, 0xF700000000000000#64, 0x6000000000000000#64⟩
  | .reset => ⟨.stim, 0xFFFFFFFFFFFFFFFF#64, 0x8000000000000000#64⟩
  | .dmaMiss => ⟨.stim, 0xFFFFFFFFFFFFFFFF#64, 0x8000000100000000#64⟩
  | .imgLoad => ⟨.stim, 0xFFFFFFFFFFFFFFFF#64, 0x8000000200000000#64⟩
  | .imgUnload => ⟨.stim, 0xFFFFFFFFFFFFFFFF#64, 0x8000000300000000#64⟩
  | .ram _ => addrTableRow .ram
  | .rom _ => addrTableRow .rom
  | .mapram _ => addrTableRow .mapram
  | .vram _ => addrTableRow .vram
  | .gsr _ => addrTableRow .gsr
  | .bsr0 _ => addrTableRow .bsr0
  | .bsr1 _ => addrTableRow .bsr1
  | .stubPhoneStatus _ => addrTableRow .stubPhoneStatus
  | .dmacnt _ => addrTableRow .dmacnt
  | .stubLpStatus _ => addrTableRow .stubLpStatus
  | .stubRtc _ => addrTableRow .stubRtc
  | .stubPhone _ => addrTableRow .stubPhone
  | .mcr _ => addrTableRow .mcr
  | .stubDialer _ => addrTableRow .stubDialer
  | .clrstat _ => addrTableRow .clrstat
  | .dmaadr _ => addrTableRow .dmaadr
  | .dcr _ => addrTableRow .dcr
  | .stubLpData _ => addrTableRow .stubLpData
  | .stubExpC _ => addrTableRow .stubExpC
  | .stubExpD _ => addrTableRow .stubExpD
  | .stubExpF _ => addrTableRow .stubExpF
  | .stubHdc _ => addrTableRow .stubHdc
  | .fdcwin _ => addrTableRow .fdcwin
  | .stubMcr2 _ => addrTableRow .stubMcr2
  | .stubRtcData _ => addrTableRow .stubRtcData
  | .gcr _ => addrTableRow .gcr
  | .stubSerial _ => addrTableRow .stubSerial
  | .stubModem _ => addrTableRow .stubModem
  | .stubKeyboard _ => addrTableRow .stubKeyboard
  | .unmappedE _ => addrTableRow .unmappedE
  | .fdcRdStatus => ⟨.fdcReg, 0x7#64, 0x0#64⟩
  | .fdcRdTrack => ⟨.fdcReg, 0x7#64, 0x1#64⟩
  | .fdcRdSector => ⟨.fdcReg, 0x7#64, 0x2#64⟩
  | .fdcRdData => ⟨.fdcReg, 0x7#64, 0x3#64⟩
  | .fdcWrCommand _ => ⟨.fdcReg, 0x7#64, 0x4#64⟩
  | .fdcWrTrack _ => ⟨.fdcReg, 0x7#64, 0x5#64⟩
  | .fdcWrSector _ => ⟨.fdcReg, 0x7#64, 0x6#64⟩
  | .fdcWrData _ => ⟨.fdcReg, 0x7#64, 0x7#64⟩
  | .fdcRestore _ => ⟨.fdcCmd, 0xF0#64, 0x0#64⟩
  | .fdcSeek _ => ⟨.fdcCmd, 0xF0#64, 0x10#64⟩
  | .fdcStep _ => ⟨.fdcCmd, 0xF0#64, 0x20#64⟩
  | .fdcStepU _ => ⟨.fdcCmd, 0xF0#64, 0x30#64⟩
  | .fdcStepin _ => ⟨.fdcCmd, 0xF0#64, 0x40#64⟩
  | .fdcStepinU _ => ⟨.fdcCmd, 0xF0#64, 0x50#64⟩
  | .fdcStepout _ => ⟨.fdcCmd, 0xF0#64, 0x60#64⟩
  | .fdcStepoutU _ => ⟨.fdcCmd, 0xF0#64, 0x70#64⟩
  | .fdcRdsec _ => ⟨.fdcCmd, 0xF0#64, 0x80#64⟩
  | .fdcRdsecM _ => ⟨.fdcCmd, 0xF0#64, 0x90#64⟩
  | .fdcWrsec _ => ⟨.fdcCmd, 0xF0#64, 0xA0#64⟩
  | .fdcWrsecM _ => ⟨.fdcCmd, 0xF0#64, 0xB0#64⟩
  | .fdcRdaddr _ => ⟨.fdcCmd, 0xF0#64, 0xC0#64⟩
  | .fdcForceint _ => ⟨.fdcCmd, 0xF0#64, 0xD0#64⟩
  | .fdcRdtrk _ => ⟨.fdcCmd, 0xF0#64, 0xE0#64⟩
  | .fdcFmttrk _ => ⟨.fdcCmd, 0xF0#64, 0xF0#64⟩

/-- The encoding of a well-formed operation meets its own row. -/
def EncodesToItsRow.Statement (i : Instr) : Prop :=
  wellFormed i = true →
    (encode i).1 = (tableRow i).port ∧ (encode i).2 &&& (tableRow i).mask = (tableRow i).pattern

/-! ### The words of the four formats under their masks -/

theorem accessWord_mask (acc : Access) (m : Addr) : accessWord acc &&& (0#40 ++ m) = 0#40 ++ (acc.addr &&& m) := by
  unfold accessWord
  cases acc.dir <;> simp only <;> (rw [BitVec.and_append]; simp)

theorem accessWord_row {r : AddrRow} {acc : Access} (h : acc.wellFormed r = true) :
    Port.addr = (addrTableRow r).port ∧ accessWord acc &&& (addrTableRow r).mask = (addrTableRow r).pattern := by
  refine ⟨rfl, ?_⟩
  simp only [Access.wellFormed, AddrRow.hits, Bool.and_eq_true, decide_eq_true_eq] at h
  rw [addrTableRow, accessWord_mask, h.1.1]

theorem stimWord_row (kind siz : BitVec 2) (sup : Bool) (a : Addr) (d : BitVec 32) :
    stimWord kind siz sup a d &&& 0xF700000000000000#64 = kind ++ siz ++ 0#1 ++ 0#3 ++ 0#24 ++ 0#32 := by
  have h : (0xF700000000000000#64) = 3#2 ++ 3#2 ++ 0#1 ++ 7#3 ++ 0#24 ++ 0#32 := by decide
  have h3 : ∀ x : BitVec 2, x &&& 3#2 = x := by decide
  rw [h]
  change (kind ++ siz ++ BitVec.ofBool sup ++ 0#3 ++ a ++ d) &&& (3#2 ++ 3#2 ++ 0#1 ++ 7#3 ++ 0#24 ++ 0#32) = _
  simp only [BitVec.and_append, BitVec.and_zero, BitVec.zero_and, h3]

theorem regWord_row (v : BitVec 3) (b : Byte) : regWord v b &&& 0x7#64 = 0#61 ++ v := by
  have h : (0x7#64) = 0#48 ++ 0#8 ++ 0#5 ++ 7#3 := by decide
  have h7 : ∀ x : BitVec 3, x &&& 7#3 = x := by decide
  have h0 : ∀ x : BitVec 3, 0#48 ++ 0#8 ++ 0#5 ++ x = 0#61 ++ x := by decide
  rw [h]
  change (0#48 ++ b ++ 0#5 ++ v) &&& (0#48 ++ 0#8 ++ 0#5 ++ 7#3) = _
  simp only [BitVec.and_append, BitVec.and_zero, h7]
  exact h0 v

theorem cmdWord_row (code lo : BitVec 4) : cmdWord code lo &&& 0xF0#64 = 0#56 ++ code ++ 0#4 := by
  have h : (0xF0#64) = 0#56 ++ 15#4 ++ 0#4 := by decide
  have hf : ∀ x : BitVec 4, x &&& 15#4 = x := by decide
  rw [h]
  change (0#56 ++ code ++ lo) &&& (0#56 ++ 15#4 ++ 0#4) = _
  simp only [BitVec.and_append, BitVec.and_zero, hf]

/-! ### One lemma per operation -/

theorem EncodesToItsRow.rdB (sup : Bool) (a : Addr) : EncodesToItsRow.Statement (.rdB sup a) :=
  fun _ => ⟨rfl, stimWord_row _ _ sup a _⟩
theorem EncodesToItsRow.rdW (sup : Bool) (a : Addr) : EncodesToItsRow.Statement (.rdW sup a) :=
  fun _ => ⟨rfl, stimWord_row _ _ sup a _⟩
theorem EncodesToItsRow.rdL (sup : Bool) (a : Addr) : EncodesToItsRow.Statement (.rdL sup a) :=
  fun _ => ⟨rfl, stimWord_row _ _ sup a _⟩
theorem EncodesToItsRow.wrB (sup : Bool) (a : Addr) (d : BitVec 8) : EncodesToItsRow.Statement (.wrB sup a d) :=
  fun _ => ⟨rfl, stimWord_row _ _ sup a _⟩
theorem EncodesToItsRow.wrW (sup : Bool) (a : Addr) (d : BitVec 16) : EncodesToItsRow.Statement (.wrW sup a d) :=
  fun _ => ⟨rfl, stimWord_row _ _ sup a _⟩
theorem EncodesToItsRow.wrL (sup : Bool) (a : Addr) (d : BitVec 32) : EncodesToItsRow.Statement (.wrL sup a d) :=
  fun _ => ⟨rfl, stimWord_row _ _ sup a _⟩
theorem EncodesToItsRow.reset : EncodesToItsRow.Statement (.reset) :=
  fun _ => ⟨rfl, by decide⟩
theorem EncodesToItsRow.dmaMiss : EncodesToItsRow.Statement (.dmaMiss) :=
  fun _ => ⟨rfl, by decide⟩
theorem EncodesToItsRow.imgLoad : EncodesToItsRow.Statement (.imgLoad) :=
  fun _ => ⟨rfl, by decide⟩
theorem EncodesToItsRow.imgUnload : EncodesToItsRow.Statement (.imgUnload) :=
  fun _ => ⟨rfl, by decide⟩
theorem EncodesToItsRow.ram (acc : Access) : EncodesToItsRow.Statement (.ram acc) :=
  accessWord_row
theorem EncodesToItsRow.rom (acc : Access) : EncodesToItsRow.Statement (.rom acc) :=
  accessWord_row
theorem EncodesToItsRow.mapram (acc : Access) : EncodesToItsRow.Statement (.mapram acc) :=
  accessWord_row
theorem EncodesToItsRow.vram (acc : Access) : EncodesToItsRow.Statement (.vram acc) :=
  accessWord_row
theorem EncodesToItsRow.gsr (acc : Access) : EncodesToItsRow.Statement (.gsr acc) :=
  accessWord_row
theorem EncodesToItsRow.bsr0 (acc : Access) : EncodesToItsRow.Statement (.bsr0 acc) :=
  accessWord_row
theorem EncodesToItsRow.bsr1 (acc : Access) : EncodesToItsRow.Statement (.bsr1 acc) :=
  accessWord_row
theorem EncodesToItsRow.stubPhoneStatus (acc : Access) : EncodesToItsRow.Statement (.stubPhoneStatus acc) :=
  accessWord_row
theorem EncodesToItsRow.dmacnt (acc : Access) : EncodesToItsRow.Statement (.dmacnt acc) :=
  accessWord_row
theorem EncodesToItsRow.stubLpStatus (acc : Access) : EncodesToItsRow.Statement (.stubLpStatus acc) :=
  accessWord_row
theorem EncodesToItsRow.stubRtc (acc : Access) : EncodesToItsRow.Statement (.stubRtc acc) :=
  accessWord_row
theorem EncodesToItsRow.stubPhone (acc : Access) : EncodesToItsRow.Statement (.stubPhone acc) :=
  accessWord_row
theorem EncodesToItsRow.mcr (acc : Access) : EncodesToItsRow.Statement (.mcr acc) :=
  accessWord_row
theorem EncodesToItsRow.stubDialer (acc : Access) : EncodesToItsRow.Statement (.stubDialer acc) :=
  accessWord_row
theorem EncodesToItsRow.clrstat (acc : Access) : EncodesToItsRow.Statement (.clrstat acc) :=
  accessWord_row
theorem EncodesToItsRow.dmaadr (acc : Access) : EncodesToItsRow.Statement (.dmaadr acc) :=
  accessWord_row
theorem EncodesToItsRow.dcr (acc : Access) : EncodesToItsRow.Statement (.dcr acc) :=
  accessWord_row
theorem EncodesToItsRow.stubLpData (acc : Access) : EncodesToItsRow.Statement (.stubLpData acc) :=
  accessWord_row
theorem EncodesToItsRow.stubExpC (acc : Access) : EncodesToItsRow.Statement (.stubExpC acc) :=
  accessWord_row
theorem EncodesToItsRow.stubExpD (acc : Access) : EncodesToItsRow.Statement (.stubExpD acc) :=
  accessWord_row
theorem EncodesToItsRow.stubExpF (acc : Access) : EncodesToItsRow.Statement (.stubExpF acc) :=
  accessWord_row
theorem EncodesToItsRow.stubHdc (acc : Access) : EncodesToItsRow.Statement (.stubHdc acc) :=
  accessWord_row
theorem EncodesToItsRow.fdcwin (acc : Access) : EncodesToItsRow.Statement (.fdcwin acc) :=
  accessWord_row
theorem EncodesToItsRow.stubMcr2 (acc : Access) : EncodesToItsRow.Statement (.stubMcr2 acc) :=
  accessWord_row
theorem EncodesToItsRow.stubRtcData (acc : Access) : EncodesToItsRow.Statement (.stubRtcData acc) :=
  accessWord_row
theorem EncodesToItsRow.gcr (acc : Access) : EncodesToItsRow.Statement (.gcr acc) :=
  accessWord_row
theorem EncodesToItsRow.stubSerial (acc : Access) : EncodesToItsRow.Statement (.stubSerial acc) :=
  accessWord_row
theorem EncodesToItsRow.stubModem (acc : Access) : EncodesToItsRow.Statement (.stubModem acc) :=
  accessWord_row
theorem EncodesToItsRow.stubKeyboard (acc : Access) : EncodesToItsRow.Statement (.stubKeyboard acc) :=
  accessWord_row
theorem EncodesToItsRow.unmappedE (acc : Access) : EncodesToItsRow.Statement (.unmappedE acc) :=
  accessWord_row
theorem EncodesToItsRow.fdcRdStatus : EncodesToItsRow.Statement (.fdcRdStatus) :=
  fun _ => ⟨rfl, regWord_row _ _⟩
theorem EncodesToItsRow.fdcRdTrack : EncodesToItsRow.Statement (.fdcRdTrack) :=
  fun _ => ⟨rfl, regWord_row _ _⟩
theorem EncodesToItsRow.fdcRdSector : EncodesToItsRow.Statement (.fdcRdSector) :=
  fun _ => ⟨rfl, regWord_row _ _⟩
theorem EncodesToItsRow.fdcRdData : EncodesToItsRow.Statement (.fdcRdData) :=
  fun _ => ⟨rfl, regWord_row _ _⟩
theorem EncodesToItsRow.fdcWrCommand (b : Byte) : EncodesToItsRow.Statement (.fdcWrCommand b) :=
  fun _ => ⟨rfl, regWord_row _ b⟩
theorem EncodesToItsRow.fdcWrTrack (b : Byte) : EncodesToItsRow.Statement (.fdcWrTrack b) :=
  fun _ => ⟨rfl, regWord_row _ b⟩
theorem EncodesToItsRow.fdcWrSector (b : Byte) : EncodesToItsRow.Statement (.fdcWrSector b) :=
  fun _ => ⟨rfl, regWord_row _ b⟩
theorem EncodesToItsRow.fdcWrData (b : Byte) : EncodesToItsRow.Statement (.fdcWrData b) :=
  fun _ => ⟨rfl, regWord_row _ b⟩
theorem EncodesToItsRow.fdcRestore (lo : BitVec 4) : EncodesToItsRow.Statement (.fdcRestore lo) :=
  fun _ => ⟨rfl, cmdWord_row _ lo⟩
theorem EncodesToItsRow.fdcSeek (lo : BitVec 4) : EncodesToItsRow.Statement (.fdcSeek lo) :=
  fun _ => ⟨rfl, cmdWord_row _ lo⟩
theorem EncodesToItsRow.fdcStep (lo : BitVec 4) : EncodesToItsRow.Statement (.fdcStep lo) :=
  fun _ => ⟨rfl, cmdWord_row _ lo⟩
theorem EncodesToItsRow.fdcStepU (lo : BitVec 4) : EncodesToItsRow.Statement (.fdcStepU lo) :=
  fun _ => ⟨rfl, cmdWord_row _ lo⟩
theorem EncodesToItsRow.fdcStepin (lo : BitVec 4) : EncodesToItsRow.Statement (.fdcStepin lo) :=
  fun _ => ⟨rfl, cmdWord_row _ lo⟩
theorem EncodesToItsRow.fdcStepinU (lo : BitVec 4) : EncodesToItsRow.Statement (.fdcStepinU lo) :=
  fun _ => ⟨rfl, cmdWord_row _ lo⟩
theorem EncodesToItsRow.fdcStepout (lo : BitVec 4) : EncodesToItsRow.Statement (.fdcStepout lo) :=
  fun _ => ⟨rfl, cmdWord_row _ lo⟩
theorem EncodesToItsRow.fdcStepoutU (lo : BitVec 4) : EncodesToItsRow.Statement (.fdcStepoutU lo) :=
  fun _ => ⟨rfl, cmdWord_row _ lo⟩
theorem EncodesToItsRow.fdcRdsec (lo : BitVec 4) : EncodesToItsRow.Statement (.fdcRdsec lo) :=
  fun _ => ⟨rfl, cmdWord_row _ lo⟩
theorem EncodesToItsRow.fdcRdsecM (lo : BitVec 4) : EncodesToItsRow.Statement (.fdcRdsecM lo) :=
  fun _ => ⟨rfl, cmdWord_row _ lo⟩
theorem EncodesToItsRow.fdcWrsec (lo : BitVec 4) : EncodesToItsRow.Statement (.fdcWrsec lo) :=
  fun _ => ⟨rfl, cmdWord_row _ lo⟩
theorem EncodesToItsRow.fdcWrsecM (lo : BitVec 4) : EncodesToItsRow.Statement (.fdcWrsecM lo) :=
  fun _ => ⟨rfl, cmdWord_row _ lo⟩
theorem EncodesToItsRow.fdcRdaddr (lo : BitVec 4) : EncodesToItsRow.Statement (.fdcRdaddr lo) :=
  fun _ => ⟨rfl, cmdWord_row _ lo⟩
theorem EncodesToItsRow.fdcForceint (lo : BitVec 4) : EncodesToItsRow.Statement (.fdcForceint lo) :=
  fun _ => ⟨rfl, cmdWord_row _ lo⟩
theorem EncodesToItsRow.fdcRdtrk (lo : BitVec 4) : EncodesToItsRow.Statement (.fdcRdtrk lo) :=
  fun _ => ⟨rfl, cmdWord_row _ lo⟩
theorem EncodesToItsRow.fdcFmttrk (lo : BitVec 4) : EncodesToItsRow.Statement (.fdcFmttrk lo) :=
  fun _ => ⟨rfl, cmdWord_row _ lo⟩

end Sys2Proof.Laws
end

