-- ==== Sys2Proof/Laws/Rows.lean ====
section
/-! SUPPORT. The thirty address rows as one: every row is an access with its own read and its own write; and what a
16-bit register shows and takes through its lanes. -/

namespace Sys2Proof.Machine

/-! ### Every row is an access with its read and its write -/

/-- The read of a row. -/
def rowRead : AddrRow → Width → Addr → State → ReadValue × State
  | .ram => readRam
  | .rom => readRom
  | .mapram => readMapRam
  | .vram => readVram
  | .gsr => readGsr
  | .bsr0 => readBsr0
  | .bsr1 => readBsr1
  | .stubPhoneStatus | .stubLpStatus | .stubRtc | .stubPhone | .stubDialer | .stubLpData | .stubExpC | .stubExpD
  | .stubExpF | .stubHdc | .stubMcr2 | .stubRtcData | .stubSerial | .stubModem | .stubKeyboard => readStub
  | .dmacnt => readDmacnt
  | .mcr | .clrstat | .dmaadr | .dcr | .gcr | .unmappedE => readOnes
  | .fdcwin => readFdcwin

/-- The write of a row. -/
def rowWrite : AddrRow → BitVec 32 → Width → Addr → State → State
  | .ram => writeRam
  | .rom | .gsr | .bsr0 | .bsr1 | .stubPhoneStatus | .stubLpStatus | .stubRtc | .stubPhone | .stubDialer
  | .stubLpData | .stubExpC | .stubExpD | .stubExpF | .stubHdc | .stubMcr2 | .stubRtcData | .stubSerial
  | .stubModem | .stubKeyboard | .unmappedE => discardWrite
  | .mapram => writeMapRam
  | .vram => writeVram
  | .dmacnt => writeDmacnt
  | .mcr => writeMcr
  | .clrstat => writeClrstat
  | .dmaadr => writeDmaadr
  | .dcr => writeDcr
  | .fdcwin => writeFdcwin
  | .gcr => writeGcr

/-- The row belongs to the FDC (43 R262). -/
def rowResched (r : AddrRow) : Bool := r = .fdcwin

theorem runRow_eq (r : AddrRow) (acc : Access) (s : State) :
    runRow r acc s = accessRow (rowResched r) (rowRead r) (rowWrite r) acc s := by
  cases r <;> rfl

/-- A read of a row completes, under the contract (41 R206). -/
theorem exec_row_read (r : AddrRow) {w : Width} {a : Addr} (s : State) (h : keepsContract w a = true) :
    exec (r.instr ⟨.read, w, a⟩) s =
      .next ((rowRead r w a s).2.setOut (readOut (rowRead r w a s).1 (rowResched r))) := by
  rw [exec_row, runRow_eq]
  exact accessRow_read _ _ _ s h

/-- A write of a row completes, under the contract. -/
theorem exec_row_write (r : AddrRow) {w : Width} {a : Addr} (v : BitVec 32) (s : State)
    (h : keepsContract w a = true) :
    exec (r.instr ⟨.write v, w, a⟩) s = .next ((rowWrite r v w a s).setOut (writeOut (rowResched r))) := by
  rw [exec_row, runRow_eq]
  exact accessRow_write _ _ _ s h

/-- What well-formedness of an access of a row says. -/
theorem wellFormed_row {r : AddrRow} {acc : Access} (h : wellFormed (r.instr acc) = true) :
    acc.addr &&& r.mask = r.pattern ∧ keepsContract acc.width acc.addr = true ∧
      dataFits acc.width acc.dir = true := by
  have h' : acc.wellFormed r = true := by cases r <;> exact h
  simpa [Access.wellFormed, AddrRow.hits, and_assoc, keepsContract] using h'

/-- The contract, by width and parity (20 R90). -/
theorem keepsContract_iff (w : Width) (a : Addr) : keepsContract w a = true ↔ w = .w8 ∨ a.toNat % 2 = 0 := by
  cases w <;> simp [keepsContract, alignedAt, BitVec.getLsbD, Nat.testBit_zero]

/-- Setting the outputs changes nothing else. -/
theorem setOut_unchanged (s : State) (o : Outputs) : Unchanged s (s.setOut o) :=
  ⟨⟨fun st i => by simp, ⟨rfl, rfl, rfl⟩, ⟨rfl, rfl, rfl, rfl, rfl, rfl, rfl, rfl⟩, ⟨rfl, rfl, rfl, rfl⟩⟩, rfl⟩

/-! ### The cells of the four windows -/

/-- The RAM row holds exactly the addresses below the boundary (20 R81). -/
theorem ram_addr_lt {a : Addr} (h : a &&& AddrRow.ram.mask = AddrRow.ram.pattern) : a.toNat < 0x400000 := by
  have h2 : (a &&& 0xC00000#24).extractLsb' 22 2 = 0#2 := by
    rw [show (0xC00000#24) = AddrRow.ram.mask from rfl, h]; decide
  have h3 : (a &&& 0xC00000#24).extractLsb' 22 2 = a.extractLsb' 22 2 := by
    apply BitVec.eq_of_getLsbD_eq
    intro i hi
    simp only [BitVec.getLsbD_extractLsb', BitVec.getLsbD_and, hi, decide_true, Bool.true_and]
    obtain rfl | rfl : i = 0 ∨ i = 1 := by omega
    all_goals simp
  rw [h3] at h2
  have h4 := congrArg BitVec.toNat h2
  simp only [BitVec.extractLsb'_toNat, Nat.shiftRight_eq_div_pow, BitVec.toNat_ofNat] at h4
  have := a.isLt
  omega

/-- The byte a physical address shows is the byte of its cell (20 R86, R88). -/
theorem ramByteShown_eq (s : State) (p : Nat) : ramByteShown s p = s.readCell (ramCell s.cfg p) := by
  unfold ramByteShown ramCell ramBoundary
  by_cases h1 : p < s.cfg.params.ramSplit
  · by_cases h2 : p < s.cfg.baseRamSize <;> simp [h1, h2, State.readCell]
  · by_cases h2 : p < 0x400000 <;> by_cases h3 : p - s.cfg.params.ramSplit < s.cfg.expRamSize <;>
      simp [h1, h2, h3, State.readCell, show s.cfg.params.ramSplit ≤ p by omega]

/-- A cell of RAM lies in base or expansion RAM. -/
theorem ramCell_store {cfg : Config} {p : Nat} {st : Store} {j : Nat} (h : ramCell cfg p = some (st, j)) :
    (st = .base ∧ j = p ∧ p < cfg.params.ramSplit ∧ p < cfg.baseRamSize) ∨
      (st = .exp ∧ j = p - cfg.params.ramSplit ∧ cfg.params.ramSplit ≤ p ∧ p < 0x400000 ∧
        p - cfg.params.ramSplit < cfg.expRamSize) := by
  unfold ramCell ramBoundary at h
  by_cases h1 : p < cfg.params.ramSplit
  · rw [if_pos h1] at h
    by_cases h2 : p < cfg.baseRamSize
    · rw [if_pos h2] at h; cases h; exact .inl ⟨rfl, rfl, h1, h2⟩
    · rw [if_neg h2] at h; cases h
  · rw [if_neg h1] at h
    by_cases h2 : p < 0x400000
    · rw [if_pos h2] at h
      by_cases h3 : p - cfg.params.ramSplit < cfg.expRamSize
      · rw [if_pos h3] at h; cases h; exact .inr ⟨rfl, rfl, by omega, h2, h3⟩
      · rw [if_neg h3] at h; cases h
    · rw [if_neg h2] at h; cases h

/-- Two physical addresses never share a cell. -/
theorem ramCell_injective {cfg : Config} {p q : Nat} {x : Store × Nat} (h : ramCell cfg p = some x)
    (h' : ramCell cfg q = some x) : p = q := by
  obtain ⟨st, j⟩ := x
  rcases ramCell_store h with ⟨rfl, h1⟩ | ⟨rfl, h1⟩ <;> rcases ramCell_store h' with ⟨e, h2⟩ | ⟨e, h2⟩ <;>
    first | (cases e; done) | omega

theorem mapCell_eq (a : Addr) (k : Nat) : mapCell a k = some (.map, (a.toNat + k) % 2048) := by
  simp only [mapCell, mapRamSize]
  rw [show 2048 - 1 = 2 ^ 11 - 1 by norm_num, Nat.and_two_pow_sub_one_eq_mod]

theorem vramCell_eq {cfg : Config} (h : Config.Ok cfg) (a : Addr) (k : Nat) :
    vramCell cfg a k = some (.vram, (a.toNat + k) % cfg.params.vramSize) := by
  obtain ⟨n, _, _, hn⟩ := h.vramPow
  simp only [vramCell, hn, Nat.and_two_pow_sub_one_eq_mod]

theorem romCell_eq {cfg : Config} (h : Config.Ok cfg) (a : Addr) (k : Nat) :
    romCell cfg a k = some (.rom, (a.toNat + k) % cfg.romSize) := by
  obtain ⟨n, _, hn⟩ := h.romPow
  simp only [romCell, hn, Nat.and_two_pow_sub_one_eq_mod]

/-- What the bytes of an access read from the cells of a window are (20 R86). -/
theorem readBytes_spec (s : State) (cell : Nat → Option (Store × Nat)) (w : Width) :
    hasWidth (s.readBytes cell w) w = true ∧ ∀ k, k < widthBytes w →
      beByte (valueNat (s.readBytes cell w)) (widthBytes w) k = s.readCell (cell k) :=
  ⟨assemble_hasWidth _ w, fun k hk => assemble_byte (fun k => s.readCell (cell k)) w k hk⟩

/-! ### Lanes of a 16-bit register (42 R242) -/

/-- Bit 0 of an address is its parity. -/
theorem addr_bit0 (a : Addr) : a.getLsbD 0 = decide (a.toNat % 2 = 1) := by
  simp [BitVec.getLsbD, Nat.testBit_zero]

/-- A bit of a word, as arithmetic. -/
theorem getLsbD_eq_div {n : Nat} (x : BitVec n) (k : Nat) : x.getLsbD k = decide (x.toNat / 2 ^ k % 2 = 1) := by
  rw [BitVec.getLsbD, Nat.testBit_eq_decide_div_mod_eq]

/-- What a read of the width at the address shows of a 16-bit register. -/
theorem laneRead_spec (r : BitVec 16) (w : Width) (a : Addr) :
    hasWidth (laneRead r w a) w = true ∧ valueNat (laneRead r w a) = laneSeen r.toNat w a := by
  have hr := r.isLt
  have h2 : a.toNat % 2 < 2 := Nat.mod_lt _ (by norm_num)
  cases w
  · rw [laneRead, addr_bit0]
    by_cases h : a.toNat % 2 = 1
    · simp [h, hasWidth, valueNat, laneSeen]
    · simp [hasWidth, valueNat, laneSeen, show a.toNat % 2 = 0 by omega, Nat.shiftRight_eq_div_pow]
      omega
  · exact ⟨rfl, rfl⟩
  · refine ⟨rfl, ?_⟩
    simp only [laneRead, valueNat, laneSeen, BitVec.toNat_append]
    rw [← Nat.shiftLeft_add_eq_or_of_lt hr, Nat.shiftLeft_eq]

theorem laneWrite_high (v : BitVec 32) (w : Width) (a : Addr) : (laneWrite v w a).high = drivesHigh w a := by
  have h2 : a.toNat % 2 < 2 := Nat.mod_lt _ (by norm_num)
  cases w
  · simp only [laneWrite, addr_bit0]
    by_cases h : a.toNat % 2 = 1
    · simp [h, drivesHigh]
    · simp [show a.toNat % 2 = 0 by omega, drivesHigh]
  · rfl
  · rfl

theorem laneWrite_low (v : BitVec 32) (w : Width) (a : Addr) : (laneWrite v w a).low = drivesLow w a := by
  have h2 : a.toNat % 2 < 2 := Nat.mod_lt _ (by norm_num)
  cases w
  · simp only [laneWrite, addr_bit0]
    by_cases h : a.toNat % 2 = 1
    · simp [h, drivesLow]
    · simp [show a.toNat % 2 = 0 by omega, drivesLow]
  · rfl
  · rfl

/-- The byte on the high lane, when it is driven. -/
theorem laneWrite_highByte (v : BitVec 32) (w : Width) (a : Addr) (h : drivesHigh w a = true) :
    (laneWrite v w a).d.toNat / 256 = highByte v w := by
  cases w
  · simp only [drivesHigh, ne_eq, not_true_eq_false, decide_false, Bool.false_or, decide_eq_true_eq] at h
    simp only [laneWrite, addr_bit0, h, highByte, Nat.zero_ne_one, decide_false, Bool.false_eq_true, if_false]
    rw [BitVec.toNat_append, ← Nat.shiftLeft_add_eq_or_of_lt (BitVec.isLt _)]
    simp [Nat.shiftLeft_eq]
  · simp [laneWrite, highByte]; omega
  · simp [laneWrite, highByte]; omega

/-- The byte on the low lane, when it is driven. -/
theorem laneWrite_lowByte (v : BitVec 32) (w : Width) (a : Addr) (h : drivesLow w a = true) :
    (laneWrite v w a).d.toNat % 256 = lowByte v := by
  cases w
  · simp only [drivesLow, ne_eq, not_true_eq_false, decide_false, Bool.false_or, decide_eq_true_eq] at h
    simp only [laneWrite, addr_bit0, h, lowByte, decide_true, if_true]
    rw [BitVec.toNat_append, ← Nat.shiftLeft_add_eq_or_of_lt (BitVec.isLt _)]
    simp [Nat.shiftLeft_eq]
  · simp [laneWrite, lowByte]
  · simp [laneWrite, lowByte]

/-- `DMACNT` as a number (42 R230). -/
theorem dmacnt_toNat (s : State) : s.dmacnt.toNat =
    (if s.dmaEn then 32768 else 0) + (if s.dmaIdmarw then 16384 else 0) + s.dmaCount.toNat := by
  simp only [State.dmacnt, BitVec.toNat_append]
  rw [← Nat.shiftLeft_add_eq_or_of_lt s.dmaCount.isLt, ← Nat.shiftLeft_add_eq_or_of_lt (BitVec.isLt _)]
  cases s.dmaEn <;> cases s.dmaIdmarw <;> simp [Nat.shiftLeft_eq]

/-- A write of `DMACNT` changes nothing but its three fields. -/
theorem writeDmacnt_rest (v : BitVec 32) (w : Width) (a : Addr) (s : State) :
    writeDmacnt v w a s = { s with
      dmaEn := (writeDmacnt v w a s).dmaEn
      dmaIdmarw := (writeDmacnt v w a s).dmaIdmarw
      dmaCount := (writeDmacnt v w a s).dmaCount } := rfl

/-- One toggle takes the value, the seven others stay (42 R238). -/
theorem setToggle_getLsbD (g : BitVec 8) (j : BitVec 3) (b : Bool) (k : Nat) (hk : k < 8) :
    (setToggle g j b).getLsbD k = if k = j.toNat then b else g.getLsbD k := by
  have h1 : (1#8).getLsbD (k - j.toNat) = decide (k - j.toNat = 0) := by simp [BitVec.getLsbD_one]
  cases b <;>
    simp only [setToggle, if_true, if_false, Bool.false_eq_true, BitVec.getLsbD_and, BitVec.getLsbD_or,
      BitVec.getLsbD_not, BitVec.getLsbD_shiftLeft, hk, decide_true, Bool.true_and, h1]
  · by_cases e : k = j.toNat
    · subst e; simp
    · rw [if_neg e, show (!decide (k < j.toNat) && decide (k - j.toNat = 0)) = false by simp; omega]
      simp
  · by_cases e : k = j.toNat
    · subst e; simp
    · rw [if_neg e, show (!decide (k < j.toNat) && decide (k - j.toNat = 0)) = false by simp; omega]
      simp

end Sys2Proof.Machine
end

