-- ==== Sys2Proof/Laws/Step.lean ====
section
/-! SUPPORT. What one step can do, said once: the five forms of a next state, and the ways the floppy controller moves. -/

namespace Sys2Proof.Machine

/-- The ways the floppy controller moves in one operation: an access of a register, a command, or a signal. -/
inductive FdcMove (cfg : Config) (args : LoadArgs) (f : Fdc) : Fdc → Prop where
  | read (freg : BitVec 2) : FdcMove cfg args f (f.readReg cfg.params.fdc freg).2
  | write (freg : BitVec 2) (b : Byte) : FdcMove cfg args f (f.writeReg cfg freg b)
  | command (c : FdcCmd) (lo : BitVec 4) : FdcMove cfg args f (Fdc.command (commandBody cfg c lo) f)
  | dmaMiss : FdcMove cfg args f (f.dmaMiss cfg.params.fdc)
  | load : FdcMove cfg args f (f.load args).2
  | unload : FdcMove cfg args f f.unload

/-- Every next state of an operation is one of these five: a read of a row, a write of a row, a bus error, a move of the
floppy controller alone, or the power-on reset. -/
theorem exec_next {i : Instr} {s t : State} (h : exec i s = .next t) :
    (∃ r w a, keepsContract w a = true ∧
      t = (rowRead r w a s).2.setOut (readOut (rowRead r w a s).1 (rowResched r))) ∨
    (∃ r v w a, keepsContract w a = true ∧ t = (rowWrite r v w a s).setOut (writeOut (rowResched r))) ∨
    (∃ sup c acc, s.checkAccess acc.addr (isWriteDir acc.dir) sup = .denied c ∧ t = s.deny c acc) ∨
    (∃ f o, FdcMove s.cfg s.args s.fdc f ∧ o.buserr = false ∧ t = (s.setFdc f).setOut o) ∨
    t = s.powerOnReset.setOut (writeOut false) := by
  have hrow : ∀ r acc, runRow r acc s = .next t →
      (∃ r w a, keepsContract w a = true ∧
        t = (rowRead r w a s).2.setOut (readOut (rowRead r w a s).1 (rowResched r))) ∨
      (∃ r v w a, keepsContract w a = true ∧ t = (rowWrite r v w a s).setOut (writeOut (rowResched r))) := by
    intro r acc hr
    rw [runRow_eq] at hr
    rcases accessRow_next hr with ⟨hc, ⟨_, e⟩ | ⟨v, _, e⟩⟩
    · exact .inl ⟨r, acc.width, acc.addr, hc, e⟩
    · exact .inr ⟨r, v, acc.width, acc.addr, hc, e⟩
  have hfdc : ∀ f o, FdcMove s.cfg s.args s.fdc f → o.buserr = false →
      Host.Outcome.next ((s.setFdc f).setOut o) = (.next t : Result) →
      ∃ f o, FdcMove s.cfg s.args s.fdc f ∧ o.buserr = false ∧ t = (s.setFdc f).setOut o := by
    intro f o hm ho he
    exact ⟨f, o, hm, ho, by simpa using he.symm⟩
  have hcmd : ∀ (c : FdcCmd) (lo : BitVec 4), exec (c.instr lo) s = .next t →
      ∃ f o, FdcMove s.cfg s.args s.fdc f ∧ o.buserr = false ∧ t = (s.setFdc f).setOut o := by
    intro c lo hc
    rw [exec_cmd] at hc
    exact hfdc _ (writeOut true) (.command c lo) rfl hc
  have htr : ∀ sup acc, transactionOf i = some (sup, acc) → _ := fun sup acc hi => by
    have ht := h
    rw [exec_transaction hi] at ht
    exact transact_next ht
  have fin : ∀ sup acc, transactionOf i = some (sup, acc) →
      (∃ r w a, keepsContract w a = true ∧
        t = (rowRead r w a s).2.setOut (readOut (rowRead r w a s).1 (rowResched r))) ∨
      (∃ r v w a, keepsContract w a = true ∧ t = (rowWrite r v w a s).setOut (writeOut (rowResched r))) ∨
      (∃ sup c acc, s.checkAccess acc.addr (isWriteDir acc.dir) sup = .denied c ∧ t = s.deny c acc) := by
    intro sup acc hi
    rcases (htr sup acc hi).2 with ⟨c, hv, e⟩ | ⟨_, hr⟩
    · exact .inr (.inr ⟨sup, c, s.overlaid acc, hv, e⟩)
    · rcases hrow _ _ hr with hr | hr
      · exact .inl hr
      · exact .inr (.inl hr)
  have lift3 : ∀ {A B C D E : Prop}, A ∨ B ∨ C → A ∨ B ∨ C ∨ D ∨ E := by tauto
  have lift2 : ∀ {A B C D E : Prop}, A ∨ B → A ∨ B ∨ C ∨ D ∨ E := by tauto
  cases i with
  | rdB sup a => exact lift3 (fin _ _ rfl)
  | rdW sup a => exact lift3 (fin _ _ rfl)
  | rdL sup a => exact lift3 (fin _ _ rfl)
  | wrB sup a d => exact lift3 (fin _ _ rfl)
  | wrW sup a d => exact lift3 (fin _ _ rfl)
  | wrL sup a d => exact lift3 (fin _ _ rfl)
  | reset => exact .inr (.inr (.inr (.inr (by simpa [exec, execReset, signalDone] using h.symm))))
  | dmaMiss => exact .inr (.inr (.inr (.inl (hfdc _ (writeOut false) .dmaMiss rfl h))))
  | imgLoad => exact .inr (.inr (.inr (.inl (hfdc _ _ .load rfl h))))
  | imgUnload => exact .inr (.inr (.inr (.inl (hfdc _ (writeOut false) .unload rfl h))))
  | ram acc => exact lift2 (hrow .ram acc h)
  | rom acc => exact lift2 (hrow .rom acc h)
  | mapram acc => exact lift2 (hrow .mapram acc h)
  | vram acc => exact lift2 (hrow .vram acc h)
  | gsr acc => exact lift2 (hrow .gsr acc h)
  | bsr0 acc => exact lift2 (hrow .bsr0 acc h)
  | bsr1 acc => exact lift2 (hrow .bsr1 acc h)
  | stubPhoneStatus acc => exact lift2 (hrow .stubPhoneStatus acc h)
  | dmacnt acc => exact lift2 (hrow .dmacnt acc h)
  | stubLpStatus acc => exact lift2 (hrow .stubLpStatus acc h)
  | stubRtc acc => exact lift2 (hrow .stubRtc acc h)
  | stubPhone acc => exact lift2 (hrow .stubPhone acc h)
  | mcr acc => exact lift2 (hrow .mcr acc h)
  | stubDialer acc => exact lift2 (hrow .stubDialer acc h)
  | clrstat acc => exact lift2 (hrow .clrstat acc h)
  | dmaadr acc => exact lift2 (hrow .dmaadr acc h)
  | dcr acc => exact lift2 (hrow .dcr acc h)
  | stubLpData acc => exact lift2 (hrow .stubLpData acc h)
  | stubExpC acc => exact lift2 (hrow .stubExpC acc h)
  | stubExpD acc => exact lift2 (hrow .stubExpD acc h)
  | stubExpF acc => exact lift2 (hrow .stubExpF acc h)
  | stubHdc acc => exact lift2 (hrow .stubHdc acc h)
  | fdcwin acc => exact lift2 (hrow .fdcwin acc h)
  | stubMcr2 acc => exact lift2 (hrow .stubMcr2 acc h)
  | stubRtcData acc => exact lift2 (hrow .stubRtcData acc h)
  | gcr acc => exact lift2 (hrow .gcr acc h)
  | stubSerial acc => exact lift2 (hrow .stubSerial acc h)
  | stubModem acc => exact lift2 (hrow .stubModem acc h)
  | stubKeyboard acc => exact lift2 (hrow .stubKeyboard acc h)
  | unmappedE acc => exact lift2 (hrow .unmappedE acc h)
  | fdcRdStatus => exact .inr (.inr (.inr (.inl (hfdc _ (readOut _ true) (.read 0#2) rfl h))))
  | fdcRdTrack => exact .inr (.inr (.inr (.inl (hfdc _ (readOut _ true) (.read 1#2) rfl h))))
  | fdcRdSector => exact .inr (.inr (.inr (.inl (hfdc _ (readOut _ true) (.read 2#2) rfl h))))
  | fdcRdData => exact .inr (.inr (.inr (.inl (hfdc _ (readOut _ true) (.read 3#2) rfl h))))
  | fdcWrCommand b => exact .inr (.inr (.inr (.inl (hfdc _ (writeOut true) (.write 0#2 b) rfl h))))
  | fdcWrTrack b => exact .inr (.inr (.inr (.inl (hfdc _ (writeOut true) (.write 1#2 b) rfl h))))
  | fdcWrSector b => exact .inr (.inr (.inr (.inl (hfdc _ (writeOut true) (.write 2#2 b) rfl h))))
  | fdcWrData b => exact .inr (.inr (.inr (.inl (hfdc _ (writeOut true) (.write 3#2 b) rfl h))))
  | fdcRestore lo => exact .inr (.inr (.inr (.inl (hcmd .restore lo h))))
  | fdcSeek lo => exact .inr (.inr (.inr (.inl (hcmd .seek lo h))))
  | fdcStep lo => exact .inr (.inr (.inr (.inl (hcmd .step lo h))))
  | fdcStepU lo => exact .inr (.inr (.inr (.inl (hcmd .stepU lo h))))
  | fdcStepin lo => exact .inr (.inr (.inr (.inl (hcmd .stepin lo h))))
  | fdcStepinU lo => exact .inr (.inr (.inr (.inl (hcmd .stepinU lo h))))
  | fdcStepout lo => exact .inr (.inr (.inr (.inl (hcmd .stepout lo h))))
  | fdcStepoutU lo => exact .inr (.inr (.inr (.inl (hcmd .stepoutU lo h))))
  | fdcRdsec lo => exact .inr (.inr (.inr (.inl (hcmd .rdsec lo h))))
  | fdcRdsecM lo => exact .inr (.inr (.inr (.inl (hcmd .rdsecM lo h))))
  | fdcWrsec lo => exact .inr (.inr (.inr (.inl (hcmd .wrsec lo h))))
  | fdcWrsecM lo => exact .inr (.inr (.inr (.inl (hcmd .wrsecM lo h))))
  | fdcRdaddr lo => exact .inr (.inr (.inr (.inl (hcmd .rdaddr lo h))))
  | fdcForceint lo => exact .inr (.inr (.inr (.inl (hcmd .forceint lo h))))
  | fdcRdtrk lo => exact .inr (.inr (.inr (.inl (hcmd .rdtrk lo h))))
  | fdcFmttrk lo => exact .inr (.inr (.inr (.inl (hcmd .fmttrk lo h))))

/-- What a step does when it answers a next state: it takes the first stimulus and runs what it decodes to. -/
theorem step_next {s t : State} (h : step s = .next t) :
    ∃ x xs i, s.inputs = x :: xs ∧ decode x.port x.word = .ok i ∧
      exec i { s with inputs := xs, args := x.args } = .next t := by
  unfold step State.takeStimulus at h
  cases hi : s.inputs with
  | nil => rw [hi] at h; simp at h
  | cons x xs =>
    rw [hi] at h
    simp only at h
    cases hd : decode x.port x.word with
    | bad e => rw [hd] at h; simp at h
    | ok i => rw [hd] at h; exact ⟨x, xs, i, rfl, hd, h⟩

end Sys2Proof.Machine
end

