-- ==== Sys2Proof/Tests/Slice0.lean ====
section
/-! SUPPORT. The model's own tests: ill-formed terms that WellFormed refuses, words written out from the encodings of
30, one step of each operation with results from 95_test_vectors.md (X, V, P) or the rules, and for each statement of
Obligations.lean with hypotheses a state and operands that meet them. -/

namespace Sys2Proof.Tests

open Sys2Proof Sys2Proof.Machine

/-! ### States -/

/-- 2 MB base RAM, 1 MB expansion RAM, 32 KB ROM, a format stream of three bytes, the decided parameters. -/
def tcfg : Config where
  baseRamSize := 0x200000
  expRamSize := 0x100000
  romSize := 0x8000
  rom := [(0, 0x01#8), (1, 0x02#8), (4, 0x12#8), (5, 0x34#8), (0x10, 0x99#8), (0x7FFE, 0xAB#8), (0x7FFF, 0xCD#8)]
  formatStreamLen := 3
  seekFallthrough := false
  params := .decided

/-- The reset state in that configuration, with the overlay off. -/
def tst : State := { State.reset with cfg := tcfg, gcr := 0x00#8 }

/-- The same with one page-table entry. -/
def withEntry (page : BitVec 10) (e : BitVec 16) : State := tst.setMapEntry page e

/-- The same with the overlay on. -/
def overlaid : State := { tst with gcr := 0x08#8 }

/-- The standard disc's geometry (512 bytes, 9 sectors, 2 heads, 40 tracks); tests on it read no image byte. -/
def stdDisc : Fdc :=
  { Fdc.reset .decided with image := some [], writable := true, geom := ⟨512, 9, 2, 40⟩, bufCap := 4608 }

/-- A disc of 16 bytes: two bytes, two sectors, two heads, two tracks. -/
def smallDisc : Fdc :=
  { Fdc.reset .decided with
    image := some [0#8, 1#8, 2#8, 3#8, 4#8, 5#8, 6#8, 7#8, 8#8, 9#8, 10#8, 11#8, 12#8, 13#8, 14#8, 15#8]
    writable := true
    geom := ⟨2, 2, 2, 2⟩
    bufCap := 6 }

/-- The test state with a floppy controller. -/
def withFdc (f : Fdc) : State := { tst with fdc := f }

/-- What the next state shows, if there is one. -/
def after {α : Type} (i : Instr) (s : State) (f : State → α) : Option α := (nextOf (exec i s)).map f

/-! ### WellFormed refuses -/

theorem test_wellFormed_refuses_odd_wide_read :
    wellFormed (.rdW true 0x085ABD#24) = false ∧ wellFormed (.rdL true 0x085ABD#24) = false := by decide

theorem test_wellFormed_refuses_odd_wide_write :
    wellFormed (.wrW true 0x000001#24 0#16) = false ∧ wellFormed (.wrL true 0x000001#24 0#32) = false := by decide

theorem test_wellFormed_refuses_another_rows_address :
    wellFormed (.gsr ⟨.read, .w16, 0x430000#24⟩) = false ∧
    wellFormed (.ram ⟨.read, .w8, 0x400000#24⟩) = false ∧
    wellFormed (.unmappedE ⟨.read, .w8, 0xE70000#24⟩) = false := by decide

theorem test_wellFormed_refuses_odd_row_access : wellFormed (.gsr ⟨.read, .w16, 0x410001#24⟩) = false := by decide

theorem test_wellFormed_refuses_wide_data :
    wellFormed (.dcr ⟨.write 0x100#32, .w8, 0x4E0001#24⟩) = false ∧
    wellFormed (.dcr ⟨.write 0x10000#32, .w16, 0x4E0000#24⟩) = false := by decide

/-! ### Decoding: every constructor's word, from 30 R121 to R124, R137, R139 and the opcode table -/

theorem test_decode_stim :
    decode .stim 0x0000500100000000#64 = .ok (.rdB false 0x005001#24) ∧
    decode .stim 0x1800000400000000#64 = .ok (.rdW true 0x000004#24) ∧
    decode .stim 0x2843000000000000#64 = .ok (.rdL true 0x430000#24) ∧
    decode .stim 0x48E1000600000002#64 = .ok (.wrB true 0xE10006#24 0x02#8) ∧
    decode .stim 0x50085ABC00001234#64 = .ok (.wrW false 0x085ABC#24 0x1234#16) ∧
    decode .stim 0x68010008DEADBEEF#64 = .ok (.wrL true 0x010008#24 0xDEADBEEF#32) ∧
    decode .stim 0x8000000000000000#64 = .ok .reset ∧
    decode .stim 0x8000000100000000#64 = .ok .dmaMiss ∧
    decode .stim 0x8000000200000000#64 = .ok .imgLoad ∧
    decode .stim 0x8000000300000000#64 = .ok .imgUnload := by decide

theorem test_decode_refuses :
    decode .stim 0xC000000000000000#64 = .bad .kindReserved ∧
    decode .stim 0x3000000000000000#64 = .bad .sizReserved ∧
    decode .stim 0x0100000000000000#64 = .bad .reservedBitSet ∧
    decode .stim 0x8000000400000000#64 = .bad .signalIdReserved ∧
    decode .stim 0x8000000000000001#64 = .bad .reservedBitSet := by decide

theorem test_decode_regions :
    decode .addr 0x3FFFFF#64 = .ok (.ram ⟨.read, .w8, 0x3FFFFF#24⟩) ∧
    decode .addr 0xBF8010#64 = .ok (.rom ⟨.read, .w8, 0xBF8010#24⟩) ∧
    decode .addr 0x50010A#64 = .ok (.mapram ⟨.read, .w8, 0x50010A#24⟩) ∧
    decode .addr 0x428010#64 = .ok (.vram ⟨.read, .w8, 0x428010#24⟩) ∧
    decode .addr 0x030000BEEF085ABC#64 = .ok (.ram ⟨.write 0xBEEF#32, .w16, 0x085ABC#24⟩) := by decide

theorem test_decode_zone_a :
    decode .addr 0x410000#64 = .ok (.gsr ⟨.read, .w8, 0x410000#24⟩) ∧
    decode .addr 0x430000#64 = .ok (.bsr0 ⟨.read, .w8, 0x430000#24⟩) ∧
    decode .addr 0x440000#64 = .ok (.bsr1 ⟨.read, .w8, 0x440000#24⟩) ∧
    decode .addr 0x450000#64 = .ok (.stubPhoneStatus ⟨.read, .w8, 0x450000#24⟩) ∧
    decode .addr 0x460000#64 = .ok (.dmacnt ⟨.read, .w8, 0x460000#24⟩) ∧
    decode .addr 0x470000#64 = .ok (.stubLpStatus ⟨.read, .w8, 0x470000#24⟩) ∧
    decode .addr 0x480000#64 = .ok (.stubRtc ⟨.read, .w8, 0x480000#24⟩) ∧
    decode .addr 0x490000#64 = .ok (.stubPhone ⟨.read, .w8, 0x490000#24⟩) ∧
    decode .addr 0x4A0000#64 = .ok (.mcr ⟨.read, .w8, 0x4A0000#24⟩) ∧
    decode .addr 0x4B0000#64 = .ok (.stubDialer ⟨.read, .w8, 0x4B0000#24⟩) ∧
    decode .addr 0x4C0000#64 = .ok (.clrstat ⟨.read, .w8, 0x4C0000#24⟩) ∧
    decode .addr 0x4D4246#64 = .ok (.dmaadr ⟨.read, .w8, 0x4D4246#24⟩) ∧
    decode .addr 0x4E0000#64 = .ok (.dcr ⟨.read, .w8, 0x4E0000#24⟩) ∧
    decode .addr 0x7F0000#64 = .ok (.stubLpData ⟨.read, .w8, 0x7F0000#24⟩) := by decide

theorem test_decode_zone_b :
    decode .addr 0xC00000#64 = .ok (.stubExpC ⟨.read, .w8, 0xC00000#24⟩) ∧
    decode .addr 0xDFFFFF#64 = .ok (.stubExpD ⟨.read, .w8, 0xDFFFFF#24⟩) ∧
    decode .addr 0xF00000#64 = .ok (.stubExpF ⟨.read, .w8, 0xF00000#24⟩) ∧
    decode .addr 0xE00000#64 = .ok (.stubHdc ⟨.read, .w8, 0xE00000#24⟩) ∧
    decode .addr 0xE10006#64 = .ok (.fdcwin ⟨.read, .w8, 0xE10006#24⟩) ∧
    decode .addr 0xE20000#64 = .ok (.stubMcr2 ⟨.read, .w8, 0xE20000#24⟩) ∧
    decode .addr 0xE30000#64 = .ok (.stubRtcData ⟨.read, .w8, 0xE30000#24⟩) ∧
    decode .addr 0xE43000#64 = .ok (.gcr ⟨.read, .w8, 0xE43000#24⟩) ∧
    decode .addr 0xE50000#64 = .ok (.stubSerial ⟨.read, .w8, 0xE50000#24⟩) ∧
    decode .addr 0xE60000#64 = .ok (.stubModem ⟨.read, .w8, 0xE60000#24⟩) ∧
    decode .addr 0xE70000#64 = .ok (.stubKeyboard ⟨.read, .w8, 0xE70000#24⟩) ∧
    decode .addr 0xE80000#64 = .ok (.unmappedE ⟨.read, .w8, 0xE80000#24⟩) := by decide

theorem test_decode_fdc_registers :
    decode .fdcReg 0#64 = .ok .fdcRdStatus ∧ decode .fdcReg 1#64 = .ok .fdcRdTrack ∧
    decode .fdcReg 2#64 = .ok .fdcRdSector ∧ decode .fdcReg 3#64 = .ok .fdcRdData ∧
    decode .fdcReg 0x8204#64 = .ok (.fdcWrCommand 0x82#8) ∧ decode .fdcReg 0x5505#64 = .ok (.fdcWrTrack 0x55#8) ∧
    decode .fdcReg 0x0506#64 = .ok (.fdcWrSector 0x05#8) ∧ decode .fdcReg 0x9907#64 = .ok (.fdcWrData 0x99#8) := by
  decide

theorem test_decode_fdc_commands :
    decode .fdcCmd 0x00#64 = .ok (.fdcRestore 0#4) ∧ decode .fdcCmd 0x10#64 = .ok (.fdcSeek 0#4) ∧
    decode .fdcCmd 0x20#64 = .ok (.fdcStep 0#4) ∧ decode .fdcCmd 0x30#64 = .ok (.fdcStepU 0#4) ∧
    decode .fdcCmd 0x40#64 = .ok (.fdcStepin 0#4) ∧ decode .fdcCmd 0x50#64 = .ok (.fdcStepinU 0#4) ∧
    decode .fdcCmd 0x60#64 = .ok (.fdcStepout 0#4) ∧ decode .fdcCmd 0x70#64 = .ok (.fdcStepoutU 0#4) ∧
    decode .fdcCmd 0x82#64 = .ok (.fdcRdsec 2#4) ∧ decode .fdcCmd 0x92#64 = .ok (.fdcRdsecM 2#4) ∧
    decode .fdcCmd 0xA0#64 = .ok (.fdcWrsec 0#4) ∧ decode .fdcCmd 0xB2#64 = .ok (.fdcWrsecM 2#4) ∧
    decode .fdcCmd 0xC2#64 = .ok (.fdcRdaddr 2#4) ∧ decode .fdcCmd 0xD8#64 = .ok (.fdcForceint 8#4) ∧
    decode .fdcCmd 0xE0#64 = .ok (.fdcRdtrk 0#4) ∧ decode .fdcCmd 0xF0#64 = .ok (.fdcFmttrk 0#4) := by decide

/-- Opcode-table words reach the port of their format; 8-bit words below 8 are register values (log 4). -/
theorem test_decode_table_words :
    decodeTableWord 64 0x1800000400000000 = some (.rdW true 0x000004#24) ∧
    decodeTableWord 24 0xE10000 = some (.fdcwin ⟨.read, .w8, 0xE10000#24⟩) ∧
    decodeTableWord 8 0x05 = some (.fdcWrTrack 0x00#8) ∧
    decodeTableWord 8 0x08 = some (.fdcRestore 8#4) ∧
    decodeTableWord 8 0xF0 = some (.fdcFmttrk 0#4) := by decide

/-! ### Bus transactions (95 §2.1, §2.2) -/

/-- X4. -/
theorem test_rdB_user_out_of_range :
    after (.rdB false 0x400001#24) tst (fun t => (t.out, t.bsr0, t.bsr1, t.gsr)) =
      some (⟨some (.v8 0xFF#8), true, false, none⟩, 0x1240#16, 0x0001#16, 0x12FF#16) := by decide

/-- X6. -/
theorem test_rdB_after_wrB :
    (nextOf (exec (.wrB true 0x010007#24 0xAB#8) (withEntry 0x010#10 0x2040#16))).bind
      (fun t => after (.rdB true 0x010007#24) t (fun u => u.out)) = some (readOut (.v8 0xAB#8) false) := by decide

/-- V20. -/
theorem test_rdW_through_overlay :
    after (.rdW true 0x000004#24) overlaid (fun t => (t.out, t.mapRam)) =
      some (readOut (.v16 0x1234#16) false, []) := by decide

/-- V34. -/
theorem test_rdW_odd_refused : exec (.rdW true 0x085ABD#24) tst = .refused .misaligned := rfl

/-- X5. -/
theorem test_rdL_kernel_window :
    after (.rdL false 0x005000#24) (withEntry 5#10 0xA005#16)
        (fun t => (t.out, t.bsr0, t.bsr1, t.gsr, t.mapEntry 5#10)) =
      some (⟨some (.v32 0xFFFFFFFF#32), true, false, none⟩, 0xA000#16, 0x5000#16, 0xA0FF#16, 0xE005#16) := by decide

/-- V22. -/
theorem test_rdL_rom_wraps :
    after (.rdL true 0x807FFE#24) tst (fun t => t.out.value) = some (some (.v32 0xABCD0102#32)) := by decide

/-- V3. -/
theorem test_wrB_first_user_page :
    after (.wrB false 0x080000#24 0x77#8) (withEntry 0x080#10 0xC001#16)
        (fun t => (t.out, t.byteAt .base 0x001000, t.mapEntry 0x080#10)) =
      some (writeOut false, 0x77#8, 0xE001#16) := by decide

/-- V4. -/
theorem test_wrB_last_kernel_byte :
    after (.wrB false 0x07FFFF#24 0x77#8) (withEntry 0x07F#10 0xE07F#16)
        (fun t => (t.bsr0, t.bsr1, t.gsr, t.bram)) =
      some (0x2207#16, 0xFFFF#16, 0x22FF#16, []) := by decide

/-- X3. -/
theorem test_wrW_write_not_enabled :
    after (.wrW false 0x085ABC#24 0x1234#16) (withEntry 0x085#10 0x2123#16)
        (fun t => (t.bsr0, t.bsr1, t.mapEntry 0x085#10, t.bram)) =
      some (0xB008#16, 0x5ABC#16, 0x6123#16, []) := by decide

/-- V11. -/
theorem test_wrW_stores_big_endian :
    after (.wrW false 0x085ABC#24 0xBEEF#16) (withEntry 0x085#10 0xC123#16) (fun t => (t.mapEntry 0x085#10, t.bram)) =
      some (0xE123#16, [(0x123ABC, 0xBE#8), (0x123ABD, 0xEF#8)]) := by decide

/-- X6: the bytes of a long write. -/
theorem test_wrL_stores_four_bytes :
    after (.wrL true 0x010008#24 0xDEADBEEF#32) (withEntry 0x010#10 0x2040#16) (fun t => t.bram) =
      some [(0x040008, 0xDE#8), (0x040009, 0xAD#8), (0x04000A, 0xBE#8), (0x04000B, 0xEF#8)] := by decide

/-- V27. -/
theorem test_wrL_map_ram :
    after (.wrL true 0x400000#24 0xC001C002#32) tst (fun t => (t.mapEntry 0#10, t.mapEntry 1#10)) =
      some (0xC001#16, 0xC002#16) := by decide

/-! ### Signals -/

/-- V125. -/
theorem test_reset :
    after .reset { withFdc stdDisc with gcr := 0x02#8, bsr0 := 0xB008#16, dmaCount := 5#14 }
        (fun t => (t.gcr, t.bsr0, t.dmaCount, t.fdc.image)) =
      some (0x08#8, 0xFFFF#16, 0#14, some []) := by decide

/-- V80. -/
theorem test_dmaMiss :
    after .dmaMiss (withFdc { stdDisc with cur := 10, len := 512, drqCapable := true })
        (fun t => (t.fdc.cur, t.fdc.len, t.fdc.status, t.fdc.irq)) = some (0, 0, 0x04#8, true) := by decide

/-- V120 in small: 16 bytes of a cylinder of 8 are two tracks. -/
theorem test_imgLoad_counts_tracks :
    after .imgLoad { tst with args := ⟨2, 2, 2, true, List.replicate 16 0#8⟩ }
        (fun t => (t.out.load, t.fdc.geom, t.fdc.bufCap)) = some (some .ok, ⟨2, 2, 2, 2⟩, 6) := by decide

/-- V121 in small. -/
theorem test_imgLoad_bad_geometry :
    after .imgLoad { tst with args := ⟨2, 2, 2, true, List.replicate 17 0#8⟩ }
        (fun t => (t.out.load, t.fdc.image)) = some (some .badGeometry, none) := by decide

/-- V123. -/
theorem test_imgUnload :
    after .imgUnload (withFdc { stdDisc with len := 512, wpos := some 0, drqCapable := true })
        (fun t => (t.fdc.image, t.fdc.geom, t.fdc.len, t.fdc.wpos, t.fdc.irq)) =
      some (none, ⟨0, 0, 0, 0⟩, 0, none, false) := by decide

/-! ### Address rows -/

/-- V33: consecutive physical bytes, whatever the next logical page maps to. -/
theorem test_ram_long_read_past_the_page :
    after (.ram ⟨.read, .w32, 0x010FFE#24⟩)
        { withEntry 0x010#10 0x2040#16 with
          bram := [(0x040FFE, 1#8), (0x040FFF, 2#8), (0x041000, 3#8), (0x041001, 4#8)] }
        (fun t => (t.out.value, t.mapEntry 0x010#10)) = some (some (.v32 0x01020304#32), 0x6040#16) := by decide

/-- V31, V32. -/
theorem test_ram_expansion :
    after (.ram ⟨.write 0x42#32, .w8, 0x010003#24⟩) (withEntry 0x010#10 0x2200#16) (fun t => t.xram) =
      some [(3, 0x42#8)] ∧
    after (.ram ⟨.read, .w8, 0x010000#24⟩) (withEntry 0x010#10 0x2300#16) (fun t => t.out.value) =
      some (some (.v8 0xFF#8)) := by decide

/-- V23, V21. -/
theorem test_rom_mirror_and_write :
    after (.rom ⟨.read, .w8, 0xBF8010#24⟩) tst (fun t => t.out.value) = some (some (.v8 0x99#8)) ∧
    after (.rom ⟨.write 0xAAAA#32, .w16, 0x800004#24⟩) tst (fun t => (t.out, t.cfg)) =
      some (writeOut false, tcfg) := by decide

/-- V26. -/
theorem test_mapram_wraps :
    after (.mapram ⟨.read, .w32, 0x4007FE#24⟩) ((withEntry 1023#10 0x1111#16).setMapEntry 0#10 0x2222#16)
      (fun t => t.out.value) = some (some (.v32 0x11112222#32)) := by decide

/-- V25. -/
theorem test_mapram_byte_write :
    after (.mapram ⟨.write 0x55#32, .w8, 0x40010B#24⟩) (withEntry 0x085#10 0xA123#16) (fun t => t.mapEntry 0x085#10) =
      some 0xA155#16 := by decide

/-- V28. -/
theorem test_vram_mirror :
    (nextOf (exec (.vram ⟨.write 0x55AA#32, .w16, 0x420010#24⟩) tst)).bind
      (fun t => after (.vram ⟨.read, .w16, 0x428010#24⟩) t (fun u => (u.vram, u.out.value))) =
      some ([(0x10, 0x55#8), (0x11, 0xAA#8)], some (.v16 0x55AA#16)) := by decide

/-- V40, V44. -/
theorem test_gsr :
    after (.gsr ⟨.read, .w16, 0x410000#24⟩) tst (fun t => t.out.value) = some (some (.v16 0xFFFF#16)) ∧
    after (.gsr ⟨.write 0#32, .w16, 0x410000#24⟩) tst (fun t => (t.out, t.gsr)) =
      some (writeOut false, 0xFFFF#16) := by decide

/-- V41. -/
theorem test_bsr0_lanes :
    after (.bsr0 ⟨.read, .w8, 0x430000#24⟩) { tst with bsr0 := 0x2600#16 } (fun t => t.out.value) =
      some (some (.v8 0x26#8)) ∧
    after (.bsr0 ⟨.read, .w32, 0x430000#24⟩) { tst with bsr0 := 0x2600#16 } (fun t => t.out.value) =
      some (some (.v32 0x26002600#32)) := by decide

/-- P2, line 4. -/
theorem test_bsr1 :
    after (.bsr1 ⟨.read, .w16, 0x440000#24⟩) { tst with bsr1 := 0x5ABC#16 } (fun t => t.out.value) =
      some (some (.v16 0x5ABC#16)) := by decide

/-- V45. -/
theorem test_dmacnt_dummy_cycle :
    after (.dmacnt ⟨.write 0x81FF#32, .w16, 0x460000#24⟩) tst (fun t => (t.dmacnt, t.dmaCount)) =
      some (0x8200#16, 0x0200#14) := by decide

/-- V47. -/
theorem test_dmacnt_low_lane :
    after (.dmacnt ⟨.write 0x10#32, .w8, 0x460001#24⟩)
      { tst with dmaDir := true, dmaEn := true, dmaCount := 0x01FF#14 } (fun t => t.dmacnt) = some 0x8110#16 := by decide

/-- V50, V51. -/
theorem test_mcr :
    after (.mcr ⟨.write 0x4F00#32, .w16, 0x4A0000#24⟩) tst (fun t => (t.dmaDir, t.led)) = some (true, 0xF#4) ∧
    after (.mcr ⟨.write 0xFF#32, .w8, 0x4A0001#24⟩) tst (fun t => (t.dmaDir, t.led)) = some (false, 0#4) := by decide

/-- V42, V43. -/
theorem test_clrstat :
    after (.clrstat ⟨.write 0#32, .w8, 0x4C0001#24⟩) { tst with gsr := 0xB0FF#16, bsr0 := 0xB008#16, bsr1 := 0x5ABC#16 }
      (fun t => (t.gsr, t.bsr0, t.bsr1)) = some (0xFFFF#16, 0xFFFF#16, 0xFFFF#16) ∧
    after (.clrstat ⟨.read, .w16, 0x4C0000#24⟩) { tst with bsr0 := 0xB008#16 } (fun t => (t.out.value, t.bsr0)) =
      some (some (.v16 0xFFFF#16), 0xB008#16) := by decide

/-- V52. -/
theorem test_dmaadr :
    (nextOf (exec (.dmaadr ⟨.write 0#32, .w16, 0x4D4246#24⟩) tst)).bind
      (fun t => after (.dmaadr ⟨.write 0#32, .w16, 0x4D00AC#24⟩) t (fun u => u.dmaAddr)) = some 0x0246AC#22 := by decide

/-- V53. -/
theorem test_dcr_resets_the_fdc :
    after (.dcr ⟨.write 0#32, .w16, 0x4E0000#24⟩) (withFdc { stdDisc with track := 7, len := 512, status := 0x10#8 })
      (fun t => (t.fdc.track, t.fdc.len, t.fdc.status, t.out.resched)) = some (0, 0, 0x00#8, false) := by decide

/-- V54, V55. -/
theorem test_dcr_high_lane_and_run :
    after (.dcr ⟨.write 0x80#32, .w16, 0x4E0000#24⟩) (withFdc { stdDisc with track := 7 })
      (fun t => (t.dcr, t.fdc.track)) = some (0x80#8, 7) ∧
    after (.dcr ⟨.write 0#32, .w8, 0x4E0000#24⟩) { withFdc { stdDisc with track := 7 } with dcr := 0x80#8 }
      (fun t => (t.dcr, t.fdc.track)) = some (0x80#8, 7) := by decide

/-- V56, V57. -/
theorem test_gcr_overlay :
    after (.gcr ⟨.write 0#32, .w16, 0xE43000#24⟩) overlaid (fun t => t.ovl) = some false ∧
    after (.gcr ⟨.write 0x7FFF#32, .w16, 0xE43000#24⟩) tst (fun t => t.ovl) = some false := by decide

/-- V57, V58. -/
theorem test_gcr_lanes :
    after (.gcr ⟨.write 0x80#32, .w8, 0xE43001#24⟩) tst (fun t => t.gcr) = some 0x00#8 ∧
    after (.gcr ⟨.write 0x8000#32, .w16, 0xE41000#24⟩) tst (fun t => (t.gcr, t.pie)) = some (0x02#8, true) := by decide

/-- V72. -/
theorem test_fdcwin_sector :
    after (.fdcwin ⟨.write 0x1234#32, .w16, 0xE10004#24⟩) tst (fun t => (t.fdc.sectorReg, t.out.resched)) =
      some (0x34#8, true) ∧
    after (.fdcwin ⟨.read, .w16, 0xE10004#24⟩) (withFdc { Fdc.reset .decided with sectorReg := 0x34#8 }) (fun t => t.out) =
      some (readOut (.v16 0x0034#16) true) := by decide

/-- V59: unmapped. -/
theorem test_unmappedE :
    after (.unmappedE ⟨.read, .w16, 0xE80000#24⟩) tst (fun t => t.out) = some (readOut (.v16 0xFFFF#16) false) := by
  decide

/-- V59: every stub read and write completes; the value of a read is free. -/
theorem test_stubs_complete :
    stubRows.all (fun r =>
      after (r.instr ⟨.read, .w16, r.pattern⟩) tst (fun t => (t.out.buserr, t.out.resched, t.stubDraws)) ==
          some (false, false, 1) &&
        after (r.instr ⟨.write 1#32, .w16, r.pattern⟩) tst (fun t => (t.out, t.stubDraws)) ==
          some (writeOut false, 0)) = true := by decide

/-! ### Other values of the parameters (92 D14) -/

/-- The literal reading that D14 names: video RAM at selector 1 and `GSR` at selector 2. -/
theorem test_parameters_move_a_row :
    let m : AddressMap := { AddressMap.decided with vramSel := 1#4, zoneA := AddressMap.decided.zoneA.set 2 .gsr }
    decodeRow m 0x410000#24 = .vram ∧ decodeRow m 0x420000#24 = .gsr ∧
    after (.rdW true 0x420000#24) { tst with cfg := { tcfg with params := { Params.decided with map := m } } }
      (fun t => t.out.value) = some (some (.v16 0xFFFF#16)) := by decide

/-- A video RAM of 16 KB repeats every 16 KB. -/
theorem test_parameters_vram_size :
    after (.vram ⟨.read, .w8, 0x424003#24⟩)
      { tst with vram := [(3, 0x77#8)], cfg := { tcfg with params := { Params.decided with vramSize := 0x4000 } } }
      (fun t => t.out.value) = some (some (.v8 0x77#8)) := by decide

/-! ### FDC registers (95 §2.4) -/

/-- V77, V78. -/
theorem test_fdcRdStatus :
    after .fdcRdStatus (withFdc { stdDisc with status := 0x10#8, drqCapable := true, len := 512, irq := true })
      (fun t => (t.out.value, t.fdc.irq, t.fdc.status)) = some (some (.v8 0x13#8), false, 0x10#8) ∧
    after .fdcRdStatus (withFdc { stdDisc with status := 0x24#8 }) (fun t => t.out.value) =
      some (some (.v8 0x24#8)) := by decide

/-- V71, V79. -/
theorem test_fdcRdTrack :
    after .fdcRdTrack (withFdc { stdDisc with trackReg := 0x55#8, irq := true }) (fun t => (t.out.value, t.fdc.irq)) =
      some (some (.v8 0x55#8), true) := by decide

theorem test_fdcRdSector :
    after .fdcRdSector (withFdc { stdDisc with sectorReg := 0x34#8 }) (fun t => t.out.value) =
      some (some (.v8 0x34#8)) := by decide

/-- X9 in small: the last byte of a transfer raises the IRQ; then V70, the latched register. -/
theorem test_fdcRdData :
    after .fdcRdData (withFdc { smallDisc with buf := [(0, 7#8), (1, 9#8)], cur := 1, len := 2, drqCapable := true })
      (fun t => (t.out.value, t.fdc.irq, t.fdc.cur)) = some (some (.v8 9#8), true, 2) ∧
    after .fdcRdData (withFdc { smallDisc with dataReg := 0x02#8, cur := 2, len := 2, drqCapable := true })
      (fun t => (t.out.value, t.fdc.irq, t.fdc.cur)) = some (some (.v8 0x02#8), false, 2) := by decide

/-- X8. -/
theorem test_fdcWrCommand :
    after (.fdcWrCommand 0x00#8) (withFdc { stdDisc with track := 20 })
      (fun t => (t.fdc.track, t.fdc.status, t.fdc.irq, t.out)) = some (0, 0x24#8, true, writeOut true) := by decide

/-- V71. -/
theorem test_fdcWrTrack :
    after (.fdcWrTrack 0x55#8) (withFdc stdDisc) (fun t => (t.fdc.trackReg, t.fdc.track)) = some (0x55#8, 0) := by decide

theorem test_fdcWrSector :
    after (.fdcWrSector 0x05#8) (withFdc stdDisc) (fun t => t.fdc.sectorReg) = some 0x05#8 := by decide

/-- V74. -/
theorem test_fdcWrData_only_latches :
    after (.fdcWrData 0x99#8) (withFdc { stdDisc with cur := 3, len := 512, drqCapable := true })
      (fun t => (t.fdc.dataReg, t.fdc.cur, t.fdc.buf)) = some (0x99#8, 3, []) := by decide

/-- X10 in small: the last byte flushes the sector at its offset. -/
theorem test_fdcWrData_flushes :
    after (.fdcWrData 0xEE#8)
      (withFdc { smallDisc with buf := [(0, 0xDD#8)], cur := 1, len := 2, wpos := some 4, drqCapable := true })
      (fun t => (t.fdc.image.map (fun x => x.take 7), t.fdc.irq, t.fdc.cur, t.fdc.len)) =
      some (some [0#8, 1#8, 2#8, 3#8, 0xDD#8, 0xEE#8, 6#8], true, 0, 0) := by decide

/-! ### FDC commands (95 §2.5) -/

/-- V96. -/
theorem test_fdcRestore :
    after (.fdcRestore 0#4) (withFdc { stdDisc with len := 512, drqCapable := true })
      (fun t => (t.fdc.len, t.fdc.drqCapable, t.fdc.status)) = some (0, false, 0x24#8) := by decide

/-- V90, V91. -/
theorem test_fdcSeek :
    after (.fdcSeek 0#4) (withFdc { stdDisc with track := 20, dataReg := 0x28#8 })
      (fun t => (t.fdc.track, t.fdc.status)) = some (20, 0x30#8) ∧
    after (.fdcSeek 0#4) (withFdc { stdDisc with track := 20, dataReg := 0x27#8 })
      (fun t => (t.fdc.track, t.fdc.trackReg, t.fdc.status)) = some (39, 0x27#8, 0x20#8) := by decide

/-- V111. -/
theorem test_fdcSeek_fallthrough :
    after (.fdcSeek 0#4)
      { withFdc { stdDisc with track := 5, dataReg := 0x0A#8, lastStepDir := .inward } with
        cfg := { tcfg with seekFallthrough := true } }
      (fun t => (t.fdc.track, t.fdc.trackReg)) = some (11, 11#8) := by decide

/-- V92, V124. -/
theorem test_fdcStep :
    after (.fdcStep 0#4) (withFdc stdDisc) (fun t => (t.fdc.track, t.fdc.status)) = some (0, 0x24#8) ∧
    after (.fdcStep 0#4) (withFdc { stdDisc with geom := ⟨512, 9, 2, 35⟩, track := 39 })
      (fun t => (t.fdc.track, t.fdc.status)) = some (34, 0x30#8) := by decide

/-- V93, third step. -/
theorem test_fdcStepU :
    after (.fdcStepU 0#4) (withFdc { stdDisc with track := 2, lastStepDir := .inward })
      (fun t => (t.fdc.track, t.fdc.trackReg, t.fdc.status)) = some (3, 3#8, 0x20#8) := by decide

/-- V93, first step. -/
theorem test_fdcStepin :
    after (.fdcStepin 0#4) (withFdc stdDisc) (fun t => (t.fdc.track, t.fdc.trackReg, t.fdc.lastStepDir)) =
      some (1, 0#8, .inward) := by decide

/-- V94. -/
theorem test_fdcStepinU :
    after (.fdcStepinU 0#4) (withFdc { stdDisc with track := 39 })
      (fun t => (t.fdc.track, t.fdc.trackReg, t.fdc.status)) = some (39, 39#8, 0x30#8) := by decide

/-- V95. -/
theorem test_fdcStepout :
    after (.fdcStepout 0#4) (withFdc { stdDisc with track := 1, trackReg := 9#8, lastStepDir := .inward })
      (fun t => (t.fdc.track, t.fdc.trackReg, t.fdc.status, t.fdc.lastStepDir)) =
      some (0, 9#8, 0x24#8, .outward) := by decide

/-- 44 R300. -/
theorem test_fdcStepoutU :
    after (.fdcStepoutU 0#4) (withFdc { stdDisc with track := 5, trackReg := 9#8, lastStepDir := .inward })
      (fun t => (t.fdc.track, t.fdc.trackReg, t.fdc.status)) = some (4, 4#8, 0x20#8) := by decide

/-- X9 in small: track 0, head 0, sector 1. -/
theorem test_fdcRdsec :
    after (.fdcRdsec 0#4) (withFdc { smallDisc with sectorReg := 1#8 })
      (fun t => (t.fdc.buf, t.fdc.cur, t.fdc.len, t.fdc.status, t.fdc.irq)) =
      some ([(0, 0#8), (1, 1#8)], 0, 2, 0x00#8, false) := by decide

/-- V98. -/
theorem test_fdcRdsec_not_found :
    after (.fdcRdsec 0#4) (withFdc { smallDisc with sectorReg := 0#8 })
      (fun t => (t.fdc.status, t.fdc.irq, t.fdc.len)) = some (0x10#8, true, 0) := by decide

/-- V101 in small: short at the end of the image. -/
theorem test_fdcRdsecM_short :
    after (.fdcRdsecM 2#4) (withFdc { smallDisc with track := 1, sectorReg := 2#8 })
      (fun t => (t.fdc.buf, t.fdc.len, t.fdc.head)) = some ([(0, 14#8), (1, 15#8)], 2, 1#1) := by decide

/-- V104. -/
theorem test_fdcWrsec_no_target :
    after (.fdcWrsec 0#4) (withFdc { stdDisc with sectorReg := 0#8 })
      (fun t => (t.fdc.wpos, t.fdc.len, t.fdc.cur, t.fdc.status)) = some (none, 512, 0, 0x00#8) := by decide

/-- V103. -/
theorem test_fdcWrsec_protected :
    after (.fdcWrsec 2#4) (withFdc { stdDisc with writable := false })
      (fun t => (t.fdc.status, t.fdc.irq, t.fdc.head, t.fdc.len)) = some (0x40#8, true, 0#1, 0) := by decide

/-- V105. -/
theorem test_fdcWrsecM :
    after (.fdcWrsecM 2#4) (withFdc { stdDisc with track := 39, sectorReg := 9#8 })
      (fun t => (t.fdc.wpos, t.fdc.len, t.fdc.status)) = some (some 368128, 4608, 0x00#8) := by decide

/-- V97. -/
theorem test_fdcRdaddr :
    after (.fdcRdaddr 2#4) (withFdc { stdDisc with track := 3, sectorReg := 7#8 })
      (fun t => (t.fdc.buf, t.fdc.len, t.fdc.head)) =
      some ([(0, 3#8), (1, 1#8), (2, 7#8), (3, 2#8), (4, 0#8), (5, 0#8)], 6, 1#1) := by decide

/-- V109, V110. -/
theorem test_fdcForceint :
    after (.fdcForceint 0#4) (withFdc { stdDisc with track := 5, writable := false, len := 512, drqCapable := true })
      (fun t => (t.fdc.len, t.fdc.status, t.fdc.irq)) = some (0, 0x60#8, false) ∧
    after (.fdcForceint 8#4) (withFdc stdDisc) (fun t => (t.fdc.status, t.fdc.irq, t.fdc.drqCapable)) =
      some (0x24#8, true, true) := by decide

/-- V107. -/
theorem test_fdcRdtrk :
    after (.fdcRdtrk 0#4) (withFdc stdDisc) (fun t => (t.fdc.status, t.fdc.irq, t.fdc.len)) =
      some (0x10#8, true, 0) := by decide

/-- V108. -/
theorem test_fdcFmttrk :
    after (.fdcFmttrk 0#4) (withFdc stdDisc) (fun t => (t.fdc.formatting, t.fdc.len, t.fdc.wpos)) =
      some (true, 3, none) := by decide

/-- X11, for one command of each class. -/
theorem test_no_image_not_ready :
    after (.fdcSeek 0#4) tst (fun t => (t.fdc.status, t.fdc.irq)) = some (0x80#8, true) ∧
    after (.fdcWrsec 0#4) tst (fun t => (t.fdc.status, t.fdc.irq)) = some (0x80#8, true) := by decide

/-! ### Witnesses: for each statement with hypotheses, a state and operands that meet them -/

theorem tcfg_ok : Config.Ok tcfg where
  basePos := by decide
  baseLe := by decide
  basePages := by decide
  expLe := by decide
  expPages := by decide
  romPow := ⟨15, by decide, by decide⟩
  romWf := by decide
  splitLe := by decide
  vramPow := ⟨15, by decide, by decide, by decide⟩
  formatPos := by decide

theorem smallDisc_inv : Fdc.Inv smallDisc where
  bufWf := by decide
  curLe := by decide
  wposFormat := by decide
  notCapable := by decide
  lenFits := by decide
  noImage := by intro h; cases h
  someImage := by intro img h; cases h; decide

/-- The disc at its last sector: track 1, sector 2 (head 1 is the command's). -/
def lastSector : Fdc := { smallDisc with track := 1, sectorReg := 2#8 }

theorem lastSector_inv : Fdc.Inv lastSector where
  bufWf := by decide
  curLe := by decide
  wposFormat := by decide
  notCapable := by decide
  lenFits := by decide
  noImage := by intro h; cases h
  someImage := by intro img h; cases h; decide

/-- A state in use: memory written, a disc in the drive, a fault recorded, three stimuli waiting. -/
def busy : State :=
  { withFdc smallDisc with
    mapRam := [(0x10A, 0xA1#8), (0x10B, 0x23#8)]
    bram := [(0x1FFFFF, 0x5A#8)]
    bsr0 := 0xB008#16
    bsr1 := 0x5ABC#16
    gsr := 0xB0FF#16
    inputs := [⟨.stim, 0x50085ABC00001234#64, LoadArgs.none⟩, ⟨.fdcCmd, 0x80#64, LoadArgs.none⟩,
      ⟨.addr, 0x480000#64, LoadArgs.none⟩] }

theorem busy_inv : busy.Inv where
  cfg := tcfg_ok
  mapWf := by decide
  baseWf := by decide
  expWf := by decide
  vramWf := by decide
  mapIn := by decide
  baseIn := by decide
  expIn := by decide
  vramIn := by decide
  dmaAddr := by decide
  fdc := smallDisc_inv

theorem witness_DecodeOfEncodeIsIdentity :
    wellFormed (.wrL false 0x085ABC#24 0xDEADBEEF#32) = true ∧
    wellFormed (.unmappedE ⟨.write 0xFFFF#32, .w16, 0xEFFFFE#24⟩) = true ∧
    wellFormed (.fdcWrData 0xFF#8) = true ∧ wellFormed (.fdcFmttrk 0xF#4) = true := by decide

theorem witness_DecodedOperationReencodes :
    decode .stim 0x10085ABC0000FFFF#64 = .ok (.rdW false 0x085ABC#24) := by decide

theorem witness_StepRunsTheDecodedOperation :
    ∃ x xs i, busy.inputs = x :: xs ∧ decode x.port x.word = .ok i :=
  ⟨_, _, .wrW false 0x085ABC#24 0x1234#16, rfl, by decide⟩

/-- One word for each clause, at the edges of its range. -/
theorem witness_ReservedStimulusWordsAreRefused :
    (0xC000000000000000#64).toNat / 2 ^ 62 = 3 ∧
    ((0x7000000000000000#64).toNat / 2 ^ 62 ≤ 1 ∧ (0x7000000000000000#64).toNat / 2 ^ 60 % 4 = 3) ∧
    ((0x0100000000000000#64).toNat / 2 ^ 62 ≤ 1 ∧ (0x0100000000000000#64).toNat / 2 ^ 56 % 8 ≠ 0) ∧
    ((0x8000010000000000#64).toNat / 2 ^ 62 = 2 ∧ (0x8000010000000000#64).toNat / 2 ^ 40 % 2 ^ 22 ≠ 0) ∧
    ((0x8000000000000001#64).toNat / 2 ^ 62 = 2 ∧ (0x8000000000000001#64).toNat % 2 ^ 32 ≠ 0) ∧
    ((0x8000000400000000#64).toNat / 2 ^ 62 = 2 ∧ 4 ≤ (0x8000000400000000#64).toNat / 2 ^ 32 % 2 ^ 8) ∧
    { tst with inputs := [⟨.stim, 0xC000000000000000#64, LoadArgs.none⟩] }.inputs =
      ⟨.stim, 0xC000000000000000#64, LoadArgs.none⟩ :: [] := by decide

theorem witness_OddWideAccessIsRefused :
    (Width.w16 ≠ .w8 ∧ (0x085ABD#24).toNat % 2 = 1 ∧
      transactionOf (.rdW false 0x085ABD#24) = some (false, ⟨.read, .w16, 0x085ABD#24⟩)) ∧
    (Width.w32 ≠ .w8 ∧ (0xFFFFFF#24).toNat % 2 = 1 ∧
      transactionOf (.wrL true 0xFFFFFF#24 5#32) = some (true, ⟨.write 5#32, .w32, 0xFFFFFF#24⟩)) := by decide

theorem witness_StepKeepsTheInvariant : busy.Inv ∧ ∃ t, step busy = .next t := ⟨busy_inv, _, rfl⟩

/-- A wide fault recorded; and a byte fault. -/
theorem witness_StepKeepsTheFaultSnapshotShape :
    (busy.cfg.params = .decided ∧ busy.FaultSnapshot ∧ ∃ t, step busy = .next t) ∧
    { busy with bsr0 := 0x2208#16, gsr := 0x22FF#16 }.FaultSnapshot :=
  ⟨⟨rfl, .inr ⟨⟨by decide, by decide, by decide, by decide⟩, by decide⟩, _, rfl⟩,
    .inr ⟨⟨by decide, by decide, by decide, by decide⟩, by decide⟩⟩

theorem witness_NoStepChangesConfigurationOrRom : ∃ t, step busy = .next t := ⟨_, rfl⟩

/-- A user write that reaches RAM at the first user page, one that is denied, and a user read. -/
theorem witness_UserTransactionReachesOnlyPagedRam :
    (withEntry 0x080#10 0xC001#16).cfg.params = .decided ∧
    (∃ t, exec (.wrB false 0x080000#24 0x77#8) (withEntry 0x080#10 0xC001#16) = .next t ∧ t.out.buserr = false ∧
      t.store .base ≠ (withEntry 0x080#10 0xC001#16).store .base) ∧
    (∃ t, exec (.wrB false 0x07FFFF#24 0x77#8) (withEntry 0x07F#10 0xE07F#16) = .next t ∧ t.out.buserr = true) ∧
    (∃ t, exec (.rdB false 0x3FFFFF#24) (withEntry 0x3FF#10 0x2000#16) = .next t ∧ t.out.buserr = false) :=
  ⟨rfl, ⟨_, rfl, rfl, by decide⟩, ⟨_, rfl, rfl⟩, ⟨_, rfl, rfl⟩⟩

theorem witness_SupervisorTransactionIsNeverDenied :
    transactionOf (.rdW true 0x100000#24) = some (true, ⟨.read, .w16, 0x100000#24⟩) ∧
    (0x100000#24).toNat % 2 = 0 ∧ decodeRow tst.cfg.params.map (overlay tst.ovl 0x100000#24) ≠ .clrstat := by decide

theorem witness_BusErrorAndReschedNeverTogether :
    (∃ t, exec (.rdB false 0x400001#24) tst = .next t ∧ t.out.buserr = true) ∧
    (∃ t, exec .fdcRdStatus tst = .next t ∧ t.out.resched = true) := ⟨⟨_, rfl, rfl⟩, ⟨_, rfl, rfl⟩⟩

/-- Each clause at its boundary: the range at 0x400000 and below it, the kernel window at 0x07FFFF and 0x080000. -/
theorem witness_CheckFollowsThePrecedence :
    tst.cfg.params = .decided ∧ (withEntry 0x3FF#10 0x8000#16).cfg.params = .decided ∧
    0x400000 ≤ (0x400000#24).toNat ∧
    ((0x3FFFFF#24).toNat < 0x400000 ∧
      ¬(((withEntry 0x3FF#10 0x8000#16).mapEntry 0x3FF#10).getLsbD 14 = true ∨
        ((withEntry 0x3FF#10 0x8000#16).mapEntry 0x3FF#10).getLsbD 13 = true)) ∧
    ((0x07FFFF#24).toNat < 0x080000 ∧ ((withEntry 0x07F#10 0xE07F#16).mapEntry 0x07F#10).getLsbD 14 = true) ∧
    (0x080000 ≤ (0x080000#24).toNat ∧ ((withEntry 0x080#10 0x2001#16).mapEntry 0x080#10).getLsbD 13 = true ∧
      ((withEntry 0x080#10 0x2001#16).mapEntry 0x080#10).getLsbD 15 = false) ∧
    (0x080000 ≤ (0x080000#24).toNat ∧ ((withEntry 0x080#10 0xC001#16).mapEntry 0x080#10).getLsbD 14 = true ∧
      ((withEntry 0x080#10 0xC001#16).mapEntry 0x080#10).getLsbD 15 = true) := by decide

theorem witness_TranslationSetsHistoryAndRepeats :
    tst.cfg.params = .decided ∧
    (0x3FFFFF#24).toNat < 0x400000 ∧ 0x400000 ≤ (0x400000#24).toNat := by decide

/-- One denied transaction of each class. -/
theorem witness_DeniedTransactionTakesTheBusError :
    tst.cfg.params = .decided ∧ (withEntry 1#10 0x0001#16).cfg.params = .decided ∧
    tst.checkAccess (overlay tst.ovl 0x400000#24) false false = .denied .userAddressOutOfRange ∧
    (withEntry 1#10 0x0001#16).checkAccess (overlay tst.ovl 0x001000#24) true false = .denied .pageFault ∧
    (withEntry 5#10 0xA005#16).checkAccess (overlay tst.ovl 0x005000#24) false false =
      .denied .kernelAccessViolation ∧
    (withEntry 0x085#10 0x2123#16).checkAccess (overlay tst.ovl 0x085ABC#24) true false =
      .denied .writeNotEnabled ∧
    transactionOf (.wrW false 0x085ABC#24 0x1234#16) = some (false, ⟨.write 0x1234#32, .w16, 0x085ABC#24⟩) ∧
    (0x085ABC#24).toNat % 2 = 0 := by decide

theorem witness_AllowedTransactionRunsTheRowItReaches :
    transactionOf (.wrW false 0x085ABC#24 0xBEEF#16) = some (false, ⟨.write 0xBEEF#32, .w16, 0x085ABC#24⟩) ∧
    (0x085ABC#24).toNat % 2 = 0 ∧
    (withEntry 0x085#10 0xC123#16).checkAccess (overlay tst.ovl 0x085ABC#24) true false = .allowed := by decide

theorem witness_OverlayServesLowMemoryFromRom :
    transactionOf (.rdW true 0x3FFFFE#24) = some (true, ⟨.read, .w16, 0x3FFFFE#24⟩) ∧
    (0x3FFFFE#24).toNat % 2 = 0 ∧ Config.Ok overlaid.cfg ∧ overlaid.ovl = true ∧
    (0x3FFFFE#24).toNat < 0x400000 := ⟨by decide, by decide, tcfg_ok, by decide, by decide⟩

/-- The last bytes of base RAM, for each width, in user mode. -/
theorem witness_BaseRamReadAfterWriteRoundTrip :
    let s := withEntry 0x3FF#10 0xE1FF#16
    s.cfg.params = .decided ∧ s.ovl = false ∧ s.checkAccess 0x3FFFFF#24 true false = .allowed ∧ (s.physicalOf 0x3FFFFF#24).toNat = 0x1FFFFF ∧
    s.checkAccess 0x3FFFFE#24 true false = .allowed ∧ (s.physicalOf 0x3FFFFE#24).toNat + 1 = 0x1FFFFF ∧
    s.checkAccess 0x3FFFFC#24 true false = .allowed ∧ (s.physicalOf 0x3FFFFC#24).toNat + 3 = 0x1FFFFF ∧
    0x1FFFFF < s.cfg.baseRamSize ∧ (0x3FFFFE#24).toNat % 2 = 0 ∧ (0x3FFFFC#24).toNat % 2 = 0 := by decide

theorem witness_RamRowReadsPhysicalBytes :
    tst.cfg.params = .decided ∧ wellFormed (.ram ⟨.read, .w32, 0x3FFFFE#24⟩) = true := by decide

/-- A store across the last installed byte of base RAM into expansion RAM: both cells are installed. -/
theorem witness_RamRowStoresPhysicalBytes :
    tst.cfg.params = .decided ∧
    wellFormed (.ram ⟨.write 0x1234#32, .w16, 0x010FFE#24⟩) = true ∧
    ramCell tcfg 0x1FFFFF = some (.base, 0x1FFFFF) ∧ ramCell tcfg 0x200000 = some (.exp, 0) ∧
    ramCell tcfg 0x300000 = none := by decide

theorem witness_RomRowReadsImageAndIgnoresWrites :
    Config.Ok tst.cfg ∧ wellFormed (.rom ⟨.read, .w32, 0xBFFFFE#24⟩) = true ∧
    wellFormed (.rom ⟨.write 1#32, .w8, 0x800001#24⟩) = true := ⟨tcfg_ok, by decide, by decide⟩

theorem witness_MapRamRowMovesRawBytes :
    wellFormed (.mapram ⟨.read, .w32, 0x4007FE#24⟩) = true ∧
    wellFormed (.mapram ⟨.write 0xFFFFFFFF#32, .w32, 0x70FFFE#24⟩) = true := by decide

theorem witness_WideMapRamAccessMovesWholeEntries :
    wellFormed (.mapram ⟨.read, .w16, 0x4007FE#24⟩) = true ∧ wellFormed (.mapram ⟨.read, .w32, 0x4007FE#24⟩) = true ∧
    wellFormed (.mapram ⟨.write 0xA123#32, .w16, 0x40010A#24⟩) = true ∧
    wellFormed (.mapram ⟨.write 0xC001C002#32, .w32, 0x4007FE#24⟩) = true := by decide

theorem witness_VramRowMovesBufferBytes :
    Config.Ok tst.cfg ∧ wellFormed (.vram ⟨.read, .w32, 0x427FFE#24⟩) = true ∧
    wellFormed (.vram ⟨.write 0x55AA#32, .w16, 0x72FFFE#24⟩) = true := ⟨tcfg_ok, by decide, by decide⟩

theorem witness_FaultRegisterReadsShowTheSnapshot :
    wellFormed (AddrRow.gsr.instr ⟨.read, .w8, 0x71FFFF#24⟩) = true ∧
    wellFormed (AddrRow.bsr0.instr ⟨.read, .w16, 0x430000#24⟩) = true ∧
    wellFormed (AddrRow.bsr1.instr ⟨.read, .w32, 0x440000#24⟩) = true := by decide

/-- For every row of the four lists, an access at the row's own address. -/
theorem witness_row_lists :
    discardRows.all (fun r => wellFormed (r.instr ⟨.write 0xFF#32, .w8, r.pattern⟩)) = true ∧
    onesRows.all (fun r => wellFormed (r.instr ⟨.read, .w32, r.pattern⟩)) = true ∧
    stubRows.all (fun r => wellFormed (r.instr ⟨.read, .w8, r.pattern⟩) &&
      wellFormed (r.instr ⟨.write 0xFFFF#32, .w16, r.pattern⟩)) = true := by decide

theorem witness_ReadOnlyRowsDiscardWrites :
    AddrRow.unmappedE ∈ discardRows ∧ wellFormed (AddrRow.unmappedE.instr ⟨.write 0xFF#32, .w8, 0xEFFFFF#24⟩) = true := by
  decide

theorem witness_UnmappedReadsReturnAllOnes :
    AddrRow.gcr ∈ onesRows ∧ wellFormed (AddrRow.gcr.instr ⟨.read, .w32, 0xE43000#24⟩) = true := by decide

theorem witness_StubRowsCompleteWithoutSideEffect :
    AddrRow.stubExpF ∈ stubRows ∧ wellFormed (AddrRow.stubExpF.instr ⟨.read, .w16, 0xFFFFFE#24⟩) = true ∧
    wellFormed (AddrRow.stubExpF.instr ⟨.write 0xFF#32, .w8, 0xFFFFFF#24⟩) = true := by decide

theorem witness_ClearStatusResetsAllThree : wellFormed (.clrstat ⟨.write 0#32, .w8, 0x4C0001#24⟩) = true := by decide

theorem witness_DmaCountRowLoadsAndRunsTheDummyCycle :
    tst.cfg.params = .decided ∧
    wellFormed (.dmacnt ⟨.read, .w8, 0x460001#24⟩) = true ∧
    wellFormed (.dmacnt ⟨.write 0x3FFF#32, .w16, 0x460000#24⟩) = true := by decide

theorem witness_MiscControlWriteLoadsDirectionAndLeds :
    (wellFormed (.mcr ⟨.write 0x4F00#32, .w16, 0x4A0000#24⟩) = true ∧ drivesHigh .w16 0x4A0000#24 = true) ∧
    (wellFormed (.mcr ⟨.write 0xFF#32, .w8, 0x4A0001#24⟩) = true ∧ drivesHigh .w8 0x4A0001#24 = false) := by decide

theorem witness_DmaAddressWriteLoadsAHalfFromTheAddress :
    (wellFormed (.dmaadr ⟨.write 0#32, .w16, 0x4D4246#24⟩) = true ∧ (0x4D4246#24).toNat / 16384 % 2 = 1) ∧
    (wellFormed (.dmaadr ⟨.write 0#32, .w16, 0x4D3FFE#24⟩) = true ∧ (0x4D3FFE#24).toNat / 16384 % 2 = 0) := by decide

theorem witness_DiscControlWriteResetsTheFdc :
    tst.cfg.params = .decided ∧
    (wellFormed (.dcr ⟨.write 0x7F#32, .w16, 0x4E0000#24⟩) = true ∧ drivesLow .w16 0x4E0000#24 = true ∧
      lowByte 0x7F#32 < 128) ∧
    (wellFormed (.dcr ⟨.write 0x80#32, .w8, 0x4E0001#24⟩) = true ∧ 128 ≤ lowByte 0x80#32) ∧
    (wellFormed (.dcr ⟨.write 0#32, .w8, 0x4E0000#24⟩) = true ∧ drivesLow .w8 0x4E0000#24 = false) := by decide

theorem witness_StatusReadComposesAndClearsIrq : tst.cfg.params = .decided := rfl

theorem witness_GeneralControlWriteSetsOneToggle :
    (wellFormed (.gcr ⟨.write 0x8000#32, .w16, 0xE43000#24⟩) = true ∧ drivesHigh .w16 0xE43000#24 = true) ∧
    (wellFormed (.gcr ⟨.write 0x80#32, .w8, 0xE43001#24⟩) = true ∧ drivesHigh .w8 0xE43001#24 = false) := by decide

theorem witness_FdcWindowIsOneRegisterAccess :
    wellFormed (.fdcwin ⟨.read, .w32, 0xE10006#24⟩) = true ∧
    wellFormed (.fdcwin ⟨.write 0x82#32, .w8, 0xE1FFF9#24⟩) = true := by decide

/-- The last byte of a transfer, within the buffer; and a finished one. -/
theorem witness_DataReadTakesTheByteAtTheCursor :
    let f := { smallDisc with cur := 5, len := 6, drqCapable := true }
    let g := { smallDisc with cur := 6, len := 6, drqCapable := true }
    (f.cur < f.len ∧ f.cur < f.bufCap ∧ f.cur + 1 = f.len) ∧ g.len ≤ g.cur := by decide

/-- No write transfer open; before the last byte; at the last byte of a write transfer, and of a format transfer. -/
theorem witness_DataWriteLatchesStoresAndFlushes :
    let f := { smallDisc with cur := 0, len := 2, wpos := some 4, drqCapable := true }
    let g := { f with cur := 1 }
    let h := { smallDisc with cur := 2, len := 3, formatting := true, drqCapable := true }
    ¬(smallDisc.cur < smallDisc.len ∧ (smallDisc.wpos ≠ none ∨ smallDisc.formatting = true)) ∧
    (f.cur < f.len ∧ f.wpos ≠ none ∧ f.cur + 1 < f.len) ∧
    (g.cur < g.len ∧ g.wpos = some 4 ∧ g.formatting = false ∧ g.cur + 1 = g.len ∧ g.image ≠ none) ∧
    (h.cur < h.len ∧ h.formatting = true ∧ h.cur + 1 = h.len) := by decide

theorem witness_ReadSectorThenDataReadsReturnTheSector :
    let f := lastSector
    (withFdc f).cfg.params = .decided ∧ Fdc.Inv f ∧ f.image.isSome = true ∧ f.track < f.geom.tracks ∧ (2#4).toNat / 2 % 2 < f.geom.heads ∧
      1 ≤ f.sectorReg.toNat ∧ f.sectorReg.toNat ≤ f.geom.spt :=
  ⟨rfl, lastSector_inv, by decide, by decide, by decide, by decide, by decide⟩

theorem witness_WriteSectorThenDataWritesFillTheSector :
    let f := lastSector
    (withFdc f).cfg.params = .decided ∧ Fdc.Inv f ∧ f.image.isSome = true ∧ f.writable = true ∧ f.track < f.geom.tracks ∧
      (2#4).toNat / 2 % 2 < f.geom.heads ∧ 1 ≤ f.sectorReg.toNat ∧ f.sectorReg.toNat ≤ f.geom.spt ∧
      [0xDD#8, 0xEE#8].length = f.geom.secsz :=
  ⟨rfl, lastSector_inv, by decide, by decide, by decide, by decide, by decide, by decide, by decide⟩

theorem witness_ResetSignalRestoresTheRegisters : busy.cfg.params = .decided := rfl

theorem witness_DmaMissClosesWithLostData : busy.cfg.params = .decided := rfl

theorem witness_CommandClearsIrqAndWithoutImageReportsNotReady :
    (Fdc.reset .decided).image = none := rfl

theorem witness_RestoreGoesToTrackZero :
    (withFdc smallDisc).cfg.params = .decided ∧ smallDisc.image ≠ none := by decide

/-- With and without the fall-through, inside the geometry and at its edge. -/
theorem witness_SeekMovesWithinTheGeometry :
    (withFdc stdDisc).cfg.params = .decided ∧
    stdDisc.image ≠ none ∧ 0 < stdDisc.geom.tracks ∧ (0x27#8).toNat < stdDisc.geom.tracks ∧
    ¬(0x28#8).toNat < stdDisc.geom.tracks ∧ tcfg.seekFallthrough = false ∧
    { tcfg with seekFallthrough := true }.seekFallthrough = true := by decide

theorem witness_StepCommandsMoveOneTrackWithClamping :
    (withFdc stdDisc).cfg.params = .decided ∧
    stepForm .step = some (false, none) ∧ stepForm .stepoutU = some (true, some .outward) ∧
    stdDisc.image ≠ none ∧ 0 < stdDisc.geom.tracks := by decide

theorem witness_WriteProtectTurnsWriteCommandsAway :
    let f := { smallDisc with writable := false }
    (withFdc f).cfg.params = .decided ∧ f.image ≠ none ∧ f.writable = false := by decide

theorem witness_ReadAddressOpensTheIdRecord :
    (withFdc smallDisc).cfg.params = .decided ∧ smallDisc.image ≠ none := by decide

/-- The last sector, for one sector and for a track's worth (short at the end of the image). -/
theorem witness_ReadSectorOpensTheImageBytes :
    let f := lastSector
    (withFdc f).cfg.params = .decided ∧ f.image.isSome = true ∧ f.track < f.geom.tracks ∧ (2#4).toNat / 2 % 2 < f.geom.heads ∧
      1 ≤ f.sectorReg.toNat ∧ f.sectorReg.toNat ≤ f.geom.spt := by decide

/-- Sector 0, and a sector above the track. -/
theorem witness_RecordNotFoundLeavesTheTransfer :
    (withFdc smallDisc).cfg.params = .decided ∧
    smallDisc.image ≠ none ∧ ¬1 ≤ ({ smallDisc with sectorReg := 0#8 } : Fdc).sectorReg.toNat ∧
    ¬({ smallDisc with sectorReg := 3#8 } : Fdc).sectorReg.toNat ≤ smallDisc.geom.spt := by decide

/-- A sector with a write target, and the negative offset of track 0, head 0, sector 0. -/
theorem witness_WriteSectorOpensAWriteTransfer :
    let f := { smallDisc with sectorReg := 1#8 }
    let g := { smallDisc with sectorReg := 0#8 }
    (withFdc f).cfg.params = .decided ∧ (withFdc g).cfg.params = .decided ∧ f.image ≠ none ∧ f.writable = true ∧
    (0 ≤ (((f.track : Int) * f.geom.heads + ((0#4).toNat / 2 % 2 : Nat)) * f.geom.spt + f.sectorReg.toNat - 1) *
      f.geom.secsz) ∧
    ((((g.track : Int) * g.geom.heads + ((0#4).toNat / 2 % 2 : Nat)) * g.geom.spt + g.sectorReg.toNat - 1) *
      g.geom.secsz < 0) := by decide

theorem witness_FormatTrackOpensAFormatTransfer :
    (withFdc smallDisc).cfg.params = .decided ∧ smallDisc.image ≠ none ∧ smallDisc.writable = true := by decide

theorem witness_ForceInterruptClosesTheTransfer :
    (withFdc stdDisc).cfg.params = .decided ∧ stdDisc.image ≠ none := by decide

/-- A geometry the image fits, and one it does not; a drive with a disc and one without. -/
theorem witness_ImageLoadChecksTheGeometry :
    let a : LoadArgs := ⟨2, 2, 2, true, List.replicate 16 0#8⟩
    let b : LoadArgs := ⟨2, 2, 2, true, List.replicate 17 0#8⟩
    (a.secsz * a.spt * a.heads ≠ 0 ∧ a.bytes ≠ [] ∧ a.bytes.length % (a.secsz * a.spt * a.heads) = 0) ∧
    b.bytes.length % (b.secsz * b.spt * b.heads) ≠ 0 ∧ stdDisc.image ≠ none ∧ (Fdc.reset .decided).image = none := by
  decide

theorem witness_ImageUnloadDropsTheDisc : stdDisc.image ≠ none ∧ (Fdc.reset .decided).image = none := by decide

end Sys2Proof.Tests
end

/-! Proofs for the track and sector registers of the floppy controller (43 R267, R269, R271, R272). -/

namespace Sys2Proof.Machine

/-! ### The four operations, as accesses of one register -/

theorem exec_fdcRdTrack (s : State) : exec .fdcRdTrack s = fdcReadOp Fdc.rdTrack s := rfl

theorem exec_fdcRdSector (s : State) : exec .fdcRdSector s = fdcReadOp Fdc.rdSector s := rfl

theorem exec_fdcWrTrack (b : Byte) (s : State) : exec (.fdcWrTrack b) s = fdcWriteOp (Fdc.wrTrack b) s := rfl

theorem exec_fdcWrSector (b : Byte) (s : State) : exec (.fdcWrSector b) s = fdcWriteOp (Fdc.wrSector b) s := rfl

/-- A register read that leaves the controller as it is changes nothing but the outputs (43 R260, R262). -/
theorem fdcReadOp_unchanged (rd : Fdc → Byte × Fdc) (s : State) (hkeep : (rd s.fdc).2 = s.fdc) :
    ∃ t, fdcReadOp rd s = .next t ∧ t.out = readOut (.v8 (rd s.fdc).1) true ∧ Unchanged s t := by
  obtain ⟨t, hnext, hout, hfdc, hrest⟩ := fdcReadOp_spec rd s
  exact ⟨t, hnext, hout, hrest, hfdc.trans hkeep⟩

/-! ### The statements -/

/-- Settles O39: both reads return a register and keep the controller, so `fdcReadOp_unchanged` covers them. -/
theorem trackAndSectorReadsReturnTheRegister : Obligations.TrackAndSectorReadsReturnTheRegister := by
  intro s
  constructor
  · rw [exec_fdcRdTrack]
    exact fdcReadOp_unchanged Fdc.rdTrack s rfl
  · rw [exec_fdcRdSector]
    exact fdcReadOp_unchanged Fdc.rdSector s rfl

/-- Settles O40: both are register writes (`fdcWriteOp_spec`) whose update of the controller is one field. -/
theorem trackAndSectorWritesLoadTheRegister : Obligations.TrackAndSectorWritesLoadTheRegister := by
  intro s b
  constructor
  · rw [exec_fdcWrTrack]
    exact fdcWriteOp_spec (Fdc.wrTrack b) s
  · rw [exec_fdcWrSector]
    exact fdcWriteOp_spec (Fdc.wrSector b) s

end Sys2Proof.Machine

/-! Proofs about the decoder and the encoder (30 §1 to §3, §7, §9): the fields of the four words, the table of the address
rows, and the front end of a step. -/

namespace Sys2Proof.Machine

/-! ### Words as numbers -/

/-- An append as a number: the high part above the low one. -/
theorem toNat_append_eq {v w : Nat} (x : BitVec v) (y : BitVec w) : (x ++ y).toNat = x.toNat * 2 ^ w + y.toNat := by
  rw [BitVec.toNat_append, ← Nat.shiftLeft_add_eq_or_of_lt y.isLt, Nat.shiftLeft_eq]

/-- A field of a word is the value its number has there. -/
theorem extractLsb'_eq_of_toNat {w start len : Nat} {x : BitVec w} {y : BitVec len}
    (h : x.toNat / 2 ^ start % 2 ^ len = y.toNat) : x.extractLsb' start len = y := by
  apply BitVec.eq_of_toNat_eq
  rw [BitVec.extractLsb'_toNat, Nat.shiftRight_eq_div_pow, h]

theorem stimWord_toNat (kind siz : BitVec 2) (sup : Bool) (a : Addr) (d : BitVec 32) :
    (stimWord kind siz sup a d).toNat = kind.toNat * 2 ^ 62 + siz.toNat * 2 ^ 60 + sup.toNat * 2 ^ 59 +
      a.toNat * 2 ^ 32 + d.toNat := by
  have h : (kind ++ siz ++ BitVec.ofBool sup ++ 0#3 ++ a ++ d).toNat = kind.toNat * 2 ^ 62 + siz.toNat * 2 ^ 60 +
      sup.toNat * 2 ^ 59 + a.toNat * 2 ^ 32 + d.toNat := by
    simp only [toNat_append_eq, BitVec.toNat_ofBool, BitVec.toNat_ofNat]
    omega
  exact h

theorem signalWord_toNat (id : BitVec 8) : (signalWord id).toNat = 2 ^ 63 + id.toNat * 2 ^ 32 := by
  have h : (2#2 ++ 0#22 ++ id ++ 0#32).toNat = 2 ^ 63 + id.toNat * 2 ^ 32 := by
    simp only [toNat_append_eq, BitVec.toNat_ofNat]
    omega
  exact h

/-- The operand bits of an address word, the data of a read being 0 (log 5). -/
theorem accessWord_toNat (dir : Dir) (w : Width) (a : Addr) :
    (accessWord ⟨dir, w, a⟩).toNat = (encodeSiz w).toNat * 2 ^ 57 + (isWriteDir dir).toNat * 2 ^ 56 +
      (match dir with | .read => 0 | .write v => v.toNat) * 2 ^ 24 + a.toNat := by
  have h : ∀ (b : BitVec 1) (v : BitVec 32), (0#5 ++ encodeSiz w ++ b ++ v ++ a).toNat =
      (encodeSiz w).toNat * 2 ^ 57 + b.toNat * 2 ^ 56 + v.toNat * 2 ^ 24 + a.toNat := by
    intro b v
    simp only [toNat_append_eq, BitVec.toNat_ofNat]
    omega
  cases dir with
  | read => exact h 0#1 0#32
  | write v => exact h 1#1 v

theorem regWord_toNat (v : BitVec 3) (b : Byte) : (regWord v b).toNat = b.toNat * 2 ^ 8 + v.toNat := by
  have h : (0#48 ++ b ++ 0#5 ++ v).toNat = b.toNat * 2 ^ 8 + v.toNat := by
    simp only [toNat_append_eq, BitVec.toNat_ofNat]
    omega
  exact h

theorem cmdWord_toNat (code lo : BitVec 4) : (cmdWord code lo).toNat = code.toNat * 2 ^ 4 + lo.toNat := by
  have h : (0#56 ++ code ++ lo).toNat = code.toNat * 2 ^ 4 + lo.toNat := by
    simp only [toNat_append_eq, BitVec.toNat_ofNat]
    omega
  exact h

/-! ### The decoder on encoded words -/

theorem decodeSiz_encodeSiz (w : Width) : decodeSiz (encodeSiz w) = some w := by cases w <;> rfl

theorem encodeSiz_lt (w : Width) : (encodeSiz w).toNat < 3 := by cases w <;> decide

@[simp] theorem decodeSiz_zero : decodeSiz 0#2 = some .w8 := rfl
@[simp] theorem decodeSiz_one : decodeSiz 1#2 = some .w16 := rfl
@[simp] theorem decodeSiz_two : decodeSiz 2#2 = some .w32 := rfl

/-- The fields of a stimulus word that the decoder reads (30 R121). -/
theorem stimWord_fields (kind siz : BitVec 2) (sup : Bool) (a : Addr) (d : BitVec 32) :
    (stimWord kind siz sup a d).extractLsb' 62 2 = kind ∧ (stimWord kind siz sup a d).extractLsb' 60 2 = siz ∧
    (stimWord kind siz sup a d).getLsbD 59 = sup ∧ (stimWord kind siz sup a d).extractLsb' 56 3 = 0#3 ∧
    (stimWord kind siz sup a d).extractLsb' 32 24 = a ∧
    ∀ n (y : BitVec n), n ≤ 32 → d.toNat % 2 ^ n = y.toNat → (stimWord kind siz sup a d).extractLsb' 0 n = y := by
  have hk := kind.isLt
  have hz := siz.isLt
  have hs := sup.toNat_lt
  have ha := a.isLt
  have hd := d.isLt
  have hn := stimWord_toNat kind siz sup a d
  refine ⟨extractLsb'_eq_of_toNat ?_, extractLsb'_eq_of_toNat ?_, ?_, extractLsb'_eq_of_toNat ?_,
    extractLsb'_eq_of_toNat ?_, fun n y hle hy => extractLsb'_eq_of_toNat ?_⟩
  · omega
  · omega
  · rw [getLsbD_eq_div, hn]
    cases sup <;> simp only [Bool.toNat_true, Bool.toNat_false, decide_eq_true_eq, decide_eq_false_iff_not] <;> omega
  · simp only [BitVec.toNat_ofNat]; omega
  · omega
  · have hdvd : 2 ^ n ∣ 2 ^ 32 := pow_dvd_pow 2 hle
    rw [hn, ← hy]
    have : kind.toNat * 2 ^ 62 + siz.toNat * 2 ^ 60 + sup.toNat * 2 ^ 59 + a.toNat * 2 ^ 32 + d.toNat =
      d.toNat + 2 ^ 32 * (kind.toNat * 2 ^ 30 + siz.toNat * 2 ^ 28 + sup.toNat * 2 ^ 27 + a.toNat) := by ring
    rw [this, pow_zero, Nat.div_one, ← Nat.mod_mod_of_dvd _ hdvd, Nat.add_mul_mod_self_left, Nat.mod_mod_of_dvd _ hdvd]

/-- A read word is read with its own mode and address (30 R121). -/
theorem decodeStim_read (siz : BitVec 2) (sup : Bool) (a : Addr) (d : BitVec 32) :
    decodeStim (stimWord 0#2 siz sup a d) = decodeRead (stimWord 0#2 siz sup a d) sup a := by
  obtain ⟨hkind, -, hsup, hzero, haddr, -⟩ := stimWord_fields 0#2 siz sup a d
  simp only [decodeStim, hkind, hsup, hzero, haddr, if_true, BitVec.toNat_ofNat, Nat.zero_mod]

/-- A write word is read with its own mode and address. -/
theorem decodeStim_write (siz : BitVec 2) (sup : Bool) (a : Addr) (d : BitVec 32) :
    decodeStim (stimWord 1#2 siz sup a d) = decodeWrite (stimWord 1#2 siz sup a d) sup a := by
  obtain ⟨hkind, -, hsup, hzero, haddr, -⟩ := stimWord_fields 1#2 siz sup a d
  simp only [decodeStim, hkind, hsup, hzero, haddr, if_true, BitVec.toNat_ofNat, Nat.one_mod_two_pow_eq_one.mpr two_pos]

/-- A register word is read as the register access it holds (30 R139). -/
theorem decode_regWord (v : BitVec 3) (b : Byte) : decode .fdcReg (regWord v b) = .ok (decodeFdcReg v b) := by
  have hv := v.isLt
  have hb := b.isLt
  have hn := regWord_toNat v b
  have hlow : (regWord v b).extractLsb' 3 5 = 0#5 := extractLsb'_eq_of_toNat (by simp only [BitVec.toNat_ofNat]; omega)
  have hhigh : (regWord v b).extractLsb' 16 48 = 0#48 :=
    extractLsb'_eq_of_toNat (by simp only [BitVec.toNat_ofNat]; omega)
  have hreg : (regWord v b).extractLsb' 0 3 = v := extractLsb'_eq_of_toNat (by omega)
  have hbyte : (regWord v b).extractLsb' 8 8 = b := extractLsb'_eq_of_toNat (by omega)
  simp only [decode, decodeRegWord, hlow, hhigh, hreg, hbyte, and_self, if_true]

/-- A command word is read as the command of its code (30 R137). -/
theorem decode_cmdWord (code lo : BitVec 4) :
    decode .fdcCmd (cmdWord code lo) = .ok ((FdcParams.decided.commands[code.toNat]'code.isLt).instr lo) := by
  have hc := code.isLt
  have hl := lo.isLt
  have hn := cmdWord_toNat code lo
  have hhigh : (cmdWord code lo).extractLsb' 8 56 = 0#56 :=
    extractLsb'_eq_of_toNat (by simp only [BitVec.toNat_ofNat]; omega)
  have hlo : (cmdWord code lo).extractLsb' 0 4 = lo := extractLsb'_eq_of_toNat (by omega)
  have hcode : ((cmdWord code lo).extractLsb' 0 8).extractLsb' 4 4 = code := extractLsb'_eq_of_toNat (by
    rw [BitVec.extractLsb'_toNat, Nat.shiftRight_eq_div_pow]
    omega)
  simp only [decode, decodeCmdWord, decodeCmd, hhigh, hlo, hcode, if_true]

/-- Data that fits its width is its own write operand (30 R121). -/
theorem writeOperand_of_fits {w : Width} {v : BitVec 32} (h : dataFits w (.write v) = true) : writeOperand w v = v := by
  apply BitVec.eq_of_toNat_eq
  cases w with
  | w8 =>
    simp only [dataFits, decide_eq_true_eq] at h
    simp only [writeOperand, BitVec.toNat_and, BitVec.toNat_ofNat]
    rw [show 0xFF % 2 ^ 32 = 2 ^ 8 - 1 by norm_num, Nat.and_two_pow_sub_one_eq_mod, Nat.mod_eq_of_lt h]
  | w16 =>
    simp only [dataFits, decide_eq_true_eq] at h
    simp only [writeOperand, BitVec.toNat_and, BitVec.toNat_ofNat]
    rw [show 0xFFFF % 2 ^ 32 = 2 ^ 16 - 1 by norm_num, Nat.and_two_pow_sub_one_eq_mod, Nat.mod_eq_of_lt h]
  | w32 => rfl

/-- An address word is read as the access it holds, at the row its address reaches (log 5). -/
theorem decode_accessWord {acc : Access} (h : dataFits acc.width acc.dir = true) :
    decode .addr (accessWord acc) = .ok ((decodeRow .decided acc.addr).instr acc) := by
  obtain ⟨dir, w, a⟩ := acc
  have hn := accessWord_toNat dir w a
  have hz := (encodeSiz w).isLt
  have hr := (isWriteDir dir).toNat_lt
  have ha := a.isLt
  have hd : (match dir with | .read => 0 | .write v => v.toNat) < 2 ^ 32 := by
    cases dir with
    | read => norm_num
    | write v => exact v.isLt
  have hzero : (accessWord ⟨dir, w, a⟩).extractLsb' 59 5 = 0#5 := by
    apply extractLsb'_eq_of_toNat
    have := encodeSiz_lt w
    simp only [BitVec.toNat_ofNat]
    omega
  have hsiz : (accessWord ⟨dir, w, a⟩).extractLsb' 57 2 = encodeSiz w := extractLsb'_eq_of_toNat (by omega)
  have haddr : (accessWord ⟨dir, w, a⟩).extractLsb' 0 24 = a := extractLsb'_eq_of_toNat (by omega)
  cases dir with
  | read =>
    have hdir : (accessWord ⟨.read, w, a⟩).getLsbD 56 = false := by
      rw [getLsbD_eq_div]
      simp only [isWriteDir, Bool.toNat_false] at hn
      simp only [decide_eq_false_iff_not]
      omega
    simp only [decode, decodeAccess, hzero, hsiz, decodeSiz_encodeSiz, hdir, haddr, if_true, if_false,
      Bool.false_eq_true]
  | write v =>
    have hdir : (accessWord ⟨.write v, w, a⟩).getLsbD 56 = true := by
      rw [getLsbD_eq_div]
      simp only [isWriteDir, Bool.toNat_true] at hn
      simp only [decide_eq_true_eq]
      omega
    have hdata : (accessWord ⟨.write v, w, a⟩).extractLsb' 24 32 = v := extractLsb'_eq_of_toNat (by
      simp only at hn
      omega)
    simp only [decode, decodeAccess, hzero, hsiz, decodeSiz_encodeSiz, hdir, haddr, hdata, writeOperand_of_fits h,
      if_true]

/-! ### Decoding what an operation encodes to, port by port -/

theorem decode_encode_stim {i : Instr} (h : (encode i).1 = .stim) : decode .stim (encode i).2 = .ok i := by
  cases i with
  | rdB sup a =>
    obtain ⟨-, hsiz, -⟩ := stimWord_fields 0#2 0#2 sup a 0#32
    simp only [decode, encode, decodeStim_read, decodeRead, hsiz, decodeSiz_zero]
  | rdW sup a =>
    obtain ⟨-, hsiz, -⟩ := stimWord_fields 0#2 1#2 sup a 0#32
    simp only [decode, encode, decodeStim_read, decodeRead, hsiz, decodeSiz_one]
  | rdL sup a =>
    obtain ⟨-, hsiz, -⟩ := stimWord_fields 0#2 2#2 sup a 0#32
    simp only [decode, encode, decodeStim_read, decodeRead, hsiz, decodeSiz_two]
  | wrB sup a d =>
    obtain ⟨-, hsiz, -, -, -, hdata⟩ := stimWord_fields 1#2 0#2 sup a (0#24 ++ d)
    have hd : (0#24 ++ d).toNat % 2 ^ 8 = d.toNat := by rw [toNat_append_eq]; simp only [BitVec.toNat_ofNat]; omega
    simp only [decode, encode, decodeStim_write, decodeWrite, hsiz, decodeSiz_zero, hdata 8 d (by norm_num) hd]
  | wrW sup a d =>
    obtain ⟨-, hsiz, -, -, -, hdata⟩ := stimWord_fields 1#2 1#2 sup a (0#16 ++ d)
    have hd : (0#16 ++ d).toNat % 2 ^ 16 = d.toNat := by rw [toNat_append_eq]; simp only [BitVec.toNat_ofNat]; omega
    simp only [decode, encode, decodeStim_write, decodeWrite, hsiz, decodeSiz_one, hdata 16 d (by norm_num) hd]
  | wrL sup a d =>
    obtain ⟨-, hsiz, -, -, -, hdata⟩ := stimWord_fields 1#2 2#2 sup a d
    have hd : d.toNat % 2 ^ 32 = d.toNat := Nat.mod_eq_of_lt d.isLt
    simp only [decode, encode, decodeStim_write, decodeWrite, hsiz, decodeSiz_two, hdata 32 d le_rfl hd]
  | reset => decide
  | dmaMiss => decide
  | imgLoad => decide
  | imgUnload => decide
  | _ => nomatch h

theorem decode_encode_fdcReg {i : Instr} (h : (encode i).1 = .fdcReg) : decode .fdcReg (encode i).2 = .ok i := by
  cases i with
  | fdcRdStatus => exact decode_regWord 0#3 0#8
  | fdcRdTrack => exact decode_regWord 1#3 0#8
  | fdcRdSector => exact decode_regWord 2#3 0#8
  | fdcRdData => exact decode_regWord 3#3 0#8
  | fdcWrCommand b => exact decode_regWord 4#3 b
  | fdcWrTrack b => exact decode_regWord 5#3 b
  | fdcWrSector b => exact decode_regWord 6#3 b
  | fdcWrData b => exact decode_regWord 7#3 b
  | _ => nomatch h

theorem decode_encode_fdcCmd {i : Instr} (h : (encode i).1 = .fdcCmd) : decode .fdcCmd (encode i).2 = .ok i := by
  cases i with
  | fdcRestore lo => exact decode_cmdWord 0#4 lo
  | fdcSeek lo => exact decode_cmdWord 1#4 lo
  | fdcStep lo => exact decode_cmdWord 2#4 lo
  | fdcStepU lo => exact decode_cmdWord 3#4 lo
  | fdcStepin lo => exact decode_cmdWord 4#4 lo
  | fdcStepinU lo => exact decode_cmdWord 5#4 lo
  | fdcStepout lo => exact decode_cmdWord 6#4 lo
  | fdcStepoutU lo => exact decode_cmdWord 7#4 lo
  | fdcRdsec lo => exact decode_cmdWord 8#4 lo
  | fdcRdsecM lo => exact decode_cmdWord 9#4 lo
  | fdcWrsec lo => exact decode_cmdWord 10#4 lo
  | fdcWrsecM lo => exact decode_cmdWord 11#4 lo
  | fdcRdaddr lo => exact decode_cmdWord 12#4 lo
  | fdcForceint lo => exact decode_cmdWord 13#4 lo
  | fdcRdtrk lo => exact decode_cmdWord 14#4 lo
  | fdcFmttrk lo => exact decode_cmdWord 15#4 lo
  | _ => nomatch h

theorem encode_row (r : AddrRow) (acc : Access) : encode (r.instr acc) = (.addr, accessWord acc) := by
  cases r <;> rfl

/-- The operations of port ADDR are the accesses of the thirty rows. -/
theorem eq_row_of_encode_addr {i : Instr} (h : (encode i).1 = .addr) : ∃ r acc, i = AddrRow.instr r acc := by
  cases i with
  | ram acc => exact ⟨.ram, acc, rfl⟩
  | rom acc => exact ⟨.rom, acc, rfl⟩
  | mapram acc => exact ⟨.mapram, acc, rfl⟩
  | vram acc => exact ⟨.vram, acc, rfl⟩
  | gsr acc => exact ⟨.gsr, acc, rfl⟩
  | bsr0 acc => exact ⟨.bsr0, acc, rfl⟩
  | bsr1 acc => exact ⟨.bsr1, acc, rfl⟩
  | stubPhoneStatus acc => exact ⟨.stubPhoneStatus, acc, rfl⟩
  | dmacnt acc => exact ⟨.dmacnt, acc, rfl⟩
  | stubLpStatus acc => exact ⟨.stubLpStatus, acc, rfl⟩
  | stubRtc acc => exact ⟨.stubRtc, acc, rfl⟩
  | stubPhone acc => exact ⟨.stubPhone, acc, rfl⟩
  | mcr acc => exact ⟨.mcr, acc, rfl⟩
  | stubDialer acc => exact ⟨.stubDialer, acc, rfl⟩
  | clrstat acc => exact ⟨.clrstat, acc, rfl⟩
  | dmaadr acc => exact ⟨.dmaadr, acc, rfl⟩
  | dcr acc => exact ⟨.dcr, acc, rfl⟩
  | stubLpData acc => exact ⟨.stubLpData, acc, rfl⟩
  | stubExpC acc => exact ⟨.stubExpC, acc, rfl⟩
  | stubExpD acc => exact ⟨.stubExpD, acc, rfl⟩
  | stubExpF acc => exact ⟨.stubExpF, acc, rfl⟩
  | stubHdc acc => exact ⟨.stubHdc, acc, rfl⟩
  | fdcwin acc => exact ⟨.fdcwin, acc, rfl⟩
  | stubMcr2 acc => exact ⟨.stubMcr2, acc, rfl⟩
  | stubRtcData acc => exact ⟨.stubRtcData, acc, rfl⟩
  | gcr acc => exact ⟨.gcr, acc, rfl⟩
  | stubSerial acc => exact ⟨.stubSerial, acc, rfl⟩
  | stubModem acc => exact ⟨.stubModem, acc, rfl⟩
  | stubKeyboard acc => exact ⟨.stubKeyboard, acc, rfl⟩
  | unmappedE acc => exact ⟨.unmappedE, acc, rfl⟩
  | _ => nomatch h

/-! ### The rows of the opcode table partition the address space (30 R146, 42 R247) -/

/-- The row of the high byte of an address, in the decided map. -/
def rowOfHighByte (b : BitVec 8) : AddrRow := decodeRow .decided (b ++ 0#16)

/-- A field above bit 16 is a field of the high byte. -/
theorem extractLsb'_highByte (a : Addr) (start len : Nat) (h : start + len ≤ 8) :
    a.extractLsb' (16 + start) len = (a.extractLsb' 16 8 ++ 0#16).extractLsb' (16 + start) len := by
  apply BitVec.eq_of_getLsbD_eq
  intro i hi
  simp only [BitVec.getLsbD_extractLsb', BitVec.getLsbD_append, hi]
  simp [show ¬16 + start + i < 16 by omega, show 16 + start + i - 16 < 8 by omega,
    show 16 + (16 + start + i - 16) = 16 + start + i by omega]

theorem decodeRow_highByte (a : Addr) : decodeRow .decided a = rowOfHighByte (a.extractLsb' 16 8) := by
  unfold rowOfHighByte decodeRow
  rw [extractLsb'_highByte a 6 2 (by norm_num), extractLsb'_highByte a 0 4 (by norm_num),
    extractLsb'_highByte a 4 2 (by norm_num)]

/-- Every high byte meets the row it reaches. -/
theorem rowOfHighByte_hits :
    ∀ b : BitVec 8, b &&& (rowOfHighByte b).mask.extractLsb' 16 8 = (rowOfHighByte b).pattern.extractLsb' 16 8 := by
  decide

/-- Masks and match values lie in the high byte. -/
theorem row_highByte (r : AddrRow) :
    r.mask = r.mask.extractLsb' 16 8 ++ 0#16 ∧ r.pattern = r.pattern.extractLsb' 16 8 ++ 0#16 := by
  cases r <;> decide

/-- An address meets the row it reaches. -/
theorem decodeRow_hits (a : Addr) : a &&& (decodeRow .decided a).mask = (decodeRow .decided a).pattern := by
  obtain ⟨hmask, hpattern⟩ := row_highByte (decodeRow .decided a)
  have hhits := rowOfHighByte_hits (a.extractLsb' 16 8)
  rw [← decodeRow_highByte] at hhits
  have hand : ∀ m : BitVec 8, a &&& (m ++ 0#16) = (a.extractLsb' 16 8 &&& m) ++ 0#16 := by
    intro m
    calc a &&& (m ++ 0#16) = (a.extractLsb' 16 8 ++ a.extractLsb' 0 16) &&& (m ++ 0#16) := by
          rw [BitVec.extractLsb'_append_extractLsb']
      _ = (a.extractLsb' 16 8 &&& m) ++ 0#16 := by rw [BitVec.and_append, BitVec.and_zero]
  rw [hmask, hpattern, hand, hhits]

/-- The thirty rows of format ADDR. -/
def addrRows : List AddrRow :=
  [.ram, .rom, .mapram, .vram, .gsr, .bsr0, .bsr1, .stubPhoneStatus, .dmacnt, .stubLpStatus, .stubRtc, .stubPhone,
    .mcr, .stubDialer, .clrstat, .dmaadr, .dcr, .stubLpData, .stubExpC, .stubExpD, .stubExpF, .stubHdc, .fdcwin,
    .stubMcr2, .stubRtcData, .gcr, .stubSerial, .stubModem, .stubKeyboard, .unmappedE]

theorem mem_addrRows (r : AddrRow) : r ∈ addrRows := by cases r <;> decide

/-- Two rows that share an address, so that their match values agree under both masks, are the same. -/
theorem addrRows_disjoint :
    ∀ r ∈ addrRows, ∀ r' ∈ addrRows, r.pattern &&& r'.mask = r'.pattern &&& r.mask → r = r' := by decide

/-- Settles O3: an address meets the row it reaches (`decodeRow_hits`), and no two rows share one. -/
theorem addressReachesTheRowOfTheTable : Obligations.AddressReachesTheRowOfTheTable := by
  intro a r
  constructor
  · rintro rfl
    exact decodeRow_hits a
  · intro h
    apply addrRows_disjoint _ (mem_addrRows _) _ (mem_addrRows _)
    rw [← h, ← decodeRow_hits a, BitVec.and_assoc, BitVec.and_assoc, BitVec.and_comm r.mask]

/-! ### Decoding and encoding -/

/-- An access of a row that its address reaches, with data that fits, is what its encoding decodes to. -/
theorem decode_encode_row {r : AddrRow} {acc : Access} (hrow : decodeRow .decided acc.addr = r)
    (hfits : dataFits acc.width acc.dir = true) : decode .addr (encode (r.instr acc)).2 = .ok (r.instr acc) := by
  rw [encode_row, decode_accessWord hfits, hrow]

/-- Settles O1, port by port: only the accesses of the address rows need well-formedness, for their row and their data. -/
theorem decodeOfEncodeIsIdentity : Obligations.DecodeOfEncodeIsIdentity := by
  intro i hwf
  cases hport : (encode i).1 with
  | stim => exact decode_encode_stim hport
  | fdcReg => exact decode_encode_fdcReg hport
  | fdcCmd => exact decode_encode_fdcCmd hport
  | addr =>
    obtain ⟨r, acc, rfl⟩ := eq_row_of_encode_addr hport
    obtain ⟨hhits, -, hfits⟩ := wellFormed_row hwf
    exact decode_encode_row ((addressReachesTheRowOfTheTable acc.addr r).mpr hhits) hfits

/-- What the bus decoder reads is an operation of port STIM. -/
theorem encode_port_of_decodeStim {w : BitVec 64} {i : Instr} (h : decodeStim w = .ok i) : (encode i).1 = .stim := by
  have hread : ∀ sup a, decodeRead w sup a = .ok i → (encode i).1 = .stim := by
    intro sup a hr
    unfold decodeRead at hr
    split at hr <;> cases hr <;> rfl
  have hwrite : ∀ sup a, decodeWrite w sup a = .ok i → (encode i).1 = .stim := by
    intro sup a hr
    unfold decodeWrite at hr
    split at hr <;> cases hr <;> rfl
  have hsignal : decodeSignal w = .ok i → (encode i).1 = .stim := by
    intro hr
    unfold decodeSignal at hr
    split at hr
    · split at hr <;> cases hr <;> rfl
    · cases hr
  unfold decodeStim at h
  split at h
  · split at h
    · exact hread _ _ h
    · cases h
  · split at h
    · exact hwrite _ _ h
    · cases h
  · exact hsignal h
  · cases h

/-- The data of a write operand fits its width. -/
theorem dataFits_writeOperand (w : Width) (v : BitVec 32) : dataFits w (.write (writeOperand w v)) = true := by
  cases w with
  | w8 =>
    have : v.toNat &&& 0xFF ≤ 0xFF := Nat.and_le_right
    simp only [dataFits, writeOperand, BitVec.toNat_and, BitVec.toNat_ofNat, Nat.reducePow, Nat.reduceMod,
      decide_eq_true_eq]
    omega
  | w16 =>
    have : v.toNat &&& 0xFFFF ≤ 0xFFFF := Nat.and_le_right
    simp only [dataFits, writeOperand, BitVec.toNat_and, BitVec.toNat_ofNat, Nat.reducePow, Nat.reduceMod,
      decide_eq_true_eq]
    omega
  | w32 => rfl

/-- What the address decoder reads is an access of the row its address reaches, with data that fits. -/
theorem decodeAccess_ok {w : BitVec 64} {i : Instr} (h : decodeAccess w = .ok i) :
    ∃ acc : Access, i = (decodeRow .decided acc.addr).instr acc ∧ dataFits acc.width acc.dir = true := by
  unfold decodeAccess at h
  split at h
  · split at h
    · next width _ =>
      refine ⟨⟨_, width, _⟩, (Decoded.ok.inj h).symm, ?_⟩
      dsimp only
      split
      · exact dataFits_writeOperand width _
      · cases width <;> rfl
    · cases h
  · cases h

theorem encode_port_of_decodeRegWord {w : BitVec 64} {i : Instr} (h : decodeRegWord w = .ok i) :
    (encode i).1 = .fdcReg := by
  unfold decodeRegWord at h
  split at h
  · cases h
    unfold decodeFdcReg
    split <;> rfl
  · cases h

theorem encode_port_of_decodeCmdWord {w : BitVec 64} {i : Instr} (h : decodeCmdWord w = .ok i) :
    (encode i).1 = .fdcCmd := by
  have hcmd : ∀ (c : FdcCmd) lo, (encode (c.instr lo)).1 = .fdcCmd := by
    intro c lo
    cases c <;> rfl
  unfold decodeCmdWord at h
  split at h
  · cases h
    exact hcmd _ _
  · cases h

/-- Settles O2: each port reads its own operations, and those decode again from their encoding. -/
theorem decodedOperationReencodes : Obligations.DecodedOperationReencodes := by
  intro p w i h
  cases p with
  | stim =>
    have hport := encode_port_of_decodeStim h
    exact ⟨hport, decode_encode_stim hport⟩
  | addr =>
    obtain ⟨acc, rfl, hfits⟩ := decodeAccess_ok h
    exact ⟨congrArg Prod.fst (encode_row _ acc), decode_encode_row rfl hfits⟩
  | fdcReg =>
    have hport := encode_port_of_decodeRegWord h
    exact ⟨hport, decode_encode_fdcReg hport⟩
  | fdcCmd =>
    have hport := encode_port_of_decodeCmdWord h
    exact ⟨hport, decode_encode_fdcCmd hport⟩

/-- Settles O4: each word is closed, so the decoder evaluates on it. -/
theorem specWordsDecodeAsWritten : Obligations.SpecWordsDecodeAsWritten := by
  refine ⟨?_, ?_, ?_, ?_, ?_, ?_⟩ <;> decide

/-! ### The front end of a step -/

/-- A step on a stimulus that decodes runs the operation. -/
theorem step_of_decode {s : State} {x : Stimulus} {xs : List Stimulus} {i : Instr} (hin : s.inputs = x :: xs)
    (hdec : decode x.port x.word = .ok i) : step s = exec i { s with inputs := xs, args := x.args } := by
  simp only [step, State.takeStimulus, hin, hdec]

/-- A step on a stimulus that the decoder refuses is refused by name. -/
theorem step_of_bad {s : State} {x : Stimulus} {xs : List Stimulus} {e : DecodeError} (hin : s.inputs = x :: xs)
    (hdec : decode x.port x.word = .bad e) : step s = .refused (.undecodable e) := by
  simp only [step, State.takeStimulus, hin, hdec]

/-- Settles O5. -/
theorem stepRunsTheDecodedOperation : Obligations.StepRunsTheDecodedOperation :=
  fun _ _ _ _ hin hdec => step_of_decode hin hdec

/-- The `kind` of a stimulus word as a number. -/
theorem kind_toNat (w : BitVec 64) : (w.extractLsb' 62 2).toNat = w.toNat / 2 ^ 62 := by
  have := w.isLt
  rw [BitVec.extractLsb'_toNat, Nat.shiftRight_eq_div_pow]
  omega

/-- A reserved `siz` is refused (30 R121). -/
theorem decodeSiz_reserved {w : BitVec 64} (h : w.toNat / 2 ^ 60 % 4 = 3) : decodeSiz (w.extractLsb' 60 2) = none := by
  rw [extractLsb'_eq_of_toNat (y := 3#2) (by simpa using h)]
  rfl

/-- A read or write word with a reserved `siz`, or a bit of 58:56 set, is refused (30 R121). -/
theorem decodeStim_bad_transaction {w : BitVec 64} (hkind : w.toNat / 2 ^ 62 ≤ 1)
    (h : w.toNat / 2 ^ 60 % 4 = 3 ∨ w.toNat / 2 ^ 56 % 8 ≠ 0) : ∃ e, decodeStim w = .bad e := by
  have hk := kind_toNat w
  have hbits : w.extractLsb' 56 3 = 0#3 → w.toNat / 2 ^ 56 % 8 = 0 := by
    intro hz
    have := congrArg BitVec.toNat hz
    rwa [BitVec.extractLsb'_toNat, Nat.shiftRight_eq_div_pow] at this
  by_cases hz : w.extractLsb' 56 3 = 0#3
  · have hsiz := decodeSiz_reserved (h.resolve_right (absurd (hbits hz)))
    obtain h0 | h1 : (w.extractLsb' 62 2).toNat = 0 ∨ (w.extractLsb' 62 2).toNat = 1 := by omega
    · exact ⟨.sizReserved, by simp only [decodeStim, h0, hz, if_true, decodeRead, hsiz]⟩
    · exact ⟨.sizReserved, by simp only [decodeStim, h1, hz, if_true, decodeWrite, hsiz]⟩
  · obtain h0 | h1 : (w.extractLsb' 62 2).toNat = 0 ∨ (w.extractLsb' 62 2).toNat = 1 := by omega
    · exact ⟨.reservedBitSet, by simp only [decodeStim, h0, hz, if_false]⟩
    · exact ⟨.reservedBitSet, by simp only [decodeStim, h1, hz, if_false]⟩

/-- A signal word with an unknown id, or another bit set below `kind`, is refused (30 R123). -/
theorem decodeSignal_bad {w : BitVec 64} (h : w.toNat / 2 ^ 40 % 2 ^ 22 ≠ 0 ∨ w.toNat % 2 ^ 32 ≠ 0 ∨
    4 ≤ w.toNat / 2 ^ 32 % 2 ^ 8) : ∃ e, decodeSignal w = .bad e := by
  have hid : (w.extractLsb' 32 8).toNat = w.toNat / 2 ^ 32 % 2 ^ 8 := by
    rw [BitVec.extractLsb'_toNat, Nat.shiftRight_eq_div_pow]
  unfold decodeSignal
  split
  · next hzero =>
    obtain ⟨hhigh, hlow⟩ := hzero
    have hhigh' := congrArg BitVec.toNat hhigh
    have hlow' := congrArg BitVec.toNat hlow
    simp only [BitVec.extractLsb'_toNat, Nat.shiftRight_eq_div_pow, BitVec.toNat_ofNat] at hhigh' hlow'
    split
    · omega
    · omega
    · omega
    · omega
    · exact ⟨_, rfl⟩
  · exact ⟨_, rfl⟩

/-- Settles O6, by the kind of the word. -/
theorem reservedStimulusWordsAreRefused : Obligations.ReservedStimulusWordsAreRefused := by
  intro s w a xs hin h
  have hbad : ∃ e, decodeStim w = .bad e := by
    rcases h with h | ⟨hk, h⟩ | ⟨hk, h⟩ | ⟨hk, h⟩
    · exact ⟨.kindReserved, by simp only [decodeStim, kind_toNat, h]⟩
    · exact decodeStim_bad_transaction hk (.inl h)
    · exact decodeStim_bad_transaction hk (.inr h)
    · obtain ⟨e, he⟩ := decodeSignal_bad h
      exact ⟨e, by simp only [decodeStim, kind_toNat, hk, he]⟩
  obtain ⟨e, he⟩ := hbad
  exact ⟨e, step_of_bad hin he⟩

/-- Outside the contract a row and a transaction are refused (20 R90). -/
theorem keepsContract_odd {acc : Access} (hw : acc.width ≠ .w8) (ho : acc.addr.toNat % 2 = 1) :
    ¬keepsContract acc.width acc.addr = true := by
  rw [keepsContract_iff]
  rintro (h | h)
  · exact hw h
  · omega

/-- Settles O7: both the dispatcher and every row test the contract first. -/
theorem oddWideAccessIsRefused : Obligations.OddWideAccessIsRefused := by
  intro s acc hw ho
  have hodd := keepsContract_odd hw ho
  constructor
  · intro i sup hi
    rw [exec_transaction hi, transact, if_neg hodd]
  · intro r
    rw [exec_row, runRow_eq, accessRow, if_neg hodd]

end Sys2Proof.Machine

/-! Proofs of what every step keeps (10 R52, R58; 43 R277; 30 R128 to R131): the invariant of the block, the shape of the
fault snapshot, and the configuration. -/

namespace Sys2Proof.Machine

/-! ### The stores keep their form and their bounds -/

/-- The size of a store that is written; ROM has no cell a write reaches. -/
def storeSize (cfg : Config) : Store → Nat
  | .base => cfg.baseRamSize
  | .exp => cfg.expRamSize
  | .rom => 0
  | .vram => cfg.params.vramSize
  | .map => 2048

/-- The four writable stores are canonical and within their sizes. -/
def StoresOk (s : State) : Prop :=
  ∀ st, st ≠ .rom → Memory.wf (s.store st) = true ∧ keysBelow (storeSize s.cfg st) (s.store st) = true

/-- The invariant of the block is that of its configuration, its stores, bit 0 of `DMA_ADDR`, and its controller. -/
theorem inv_iff (s : State) :
    s.Inv ↔ Config.Ok s.cfg ∧ StoresOk s ∧ s.dmaAddr.getLsbD 0 = false ∧ Fdc.Inv s.fdc := by
  constructor
  · intro h
    refine ⟨h.cfg, fun st hst => ?_, h.dmaAddr, h.fdc⟩
    cases st with
    | base => exact ⟨h.baseWf, h.baseIn⟩
    | exp => exact ⟨h.expWf, h.expIn⟩
    | rom => exact absurd rfl hst
    | vram => exact ⟨h.vramWf, h.vramIn⟩
    | map => exact ⟨h.mapWf, h.mapIn⟩
  · rintro ⟨hcfg, hst, hdma, hfdc⟩
    obtain ⟨hbase, hbaseIn⟩ := hst .base (by decide)
    obtain ⟨hexp, hexpIn⟩ := hst .exp (by decide)
    obtain ⟨hvram, hvramIn⟩ := hst .vram (by decide)
    obtain ⟨hmap, hmapIn⟩ := hst .map (by decide)
    exact ⟨hcfg, hmap, hbase, hexp, hvram, hmapIn, hbaseIn, hexpIn, hvramIn, hdma, hfdc⟩

theorem putByte_storesOk {s : State} {st : Store} {i : Nat} (v : Byte) (h : StoresOk s)
    (hi : st ≠ .rom → i < storeSize s.cfg st) : StoresOk (s.putByte st i v) := by
  intro st' hst'
  rw [(putByte_keepsRest s st i v).cfg]
  by_cases hne : st' = st
  · subst hne
    obtain ⟨hwf, hin⟩ := h st' hst'
    rw [State.putByte, store_setStore_same s _ hst']
    exact ⟨memSet_wf i v hwf, memSet_all_below v (hi hst') hin⟩
  · rw [State.putByte, store_setStore_other s _ hne]
    exact h st' hst'

/-- A cell that a write may reach lies within its store. -/
def CellOk (cfg : Config) (c : Option (Store × Nat)) : Prop :=
  ∀ st i, c = some (st, i) → st ≠ .rom → i < storeSize cfg st

theorem writeCell_storesOk {s : State} {c : Option (Store × Nat)} (v : Byte) (h : StoresOk s) (hc : CellOk s.cfg c) :
    StoresOk (s.writeCell c v) := by
  cases c with
  | none => exact h
  | some c => exact putByte_storesOk v h (hc c.1 c.2 rfl)

theorem writeFrom_storesOk {cell : Nat → Option (Store × Nat)} (vs : List Byte) :
    ∀ (s : State) (k : Nat), StoresOk s → (∀ j, CellOk s.cfg (cell j)) → StoresOk (s.writeFrom cell k vs) := by
  induction vs with
  | nil => exact fun s k h _ => h
  | cons v vs ih =>
    intro s k h hc
    refine ih _ _ (writeCell_storesOk v h (hc k)) fun j => ?_
    rw [(writeCell_keepsRest s (cell k) v).cfg]
    exact hc j

theorem writeBytes_storesOk {s : State} {cell : Nat → Option (Store × Nat)} (w : Width) (v : BitVec 32)
    (h : StoresOk s) (hc : ∀ j, CellOk s.cfg (cell j)) : StoresOk (s.writeBytes cell w v) :=
  writeFrom_storesOk _ s 0 h hc

theorem ramCell_ok (cfg : Config) (p : Nat) : CellOk cfg (ramCell cfg p) := by
  intro st i h _
  rcases ramCell_store h with ⟨rfl, rfl, _, hlt⟩ | ⟨rfl, rfl, _, _, hlt⟩
  · exact hlt
  · exact hlt

theorem mapCell_ok (cfg : Config) (a : Addr) (k : Nat) : CellOk cfg (mapCell a k) := by
  intro st i h _
  rw [mapCell_eq] at h
  cases h
  exact Nat.mod_lt _ (by norm_num)

theorem vramCell_ok {cfg : Config} (hcfg : Config.Ok cfg) (a : Addr) (k : Nat) : CellOk cfg (vramCell cfg a k) := by
  intro st i h _
  obtain ⟨n, _, _, hn⟩ := hcfg.vramPow
  rw [vramCell_eq hcfg] at h
  cases h
  exact Nat.mod_lt _ (by rw [hn]; positivity)

theorem setMapEntry_storesOk {s : State} (page : BitVec 10) (e : BitVec 16) (h : StoresOk s) :
    StoresOk (s.setMapEntry page e) := by
  have hp := page.isLt
  exact putByte_storesOk _ (putByte_storesOk _ h fun _ => by simp only [storeSize]; omega)
    fun _ => by simp only [storeSize]; omega

theorem touch_storesOk {s : State} (a : Addr) (isWrite : Bool) (h : StoresOk s) : StoresOk (s.touch a isWrite) := by
  unfold State.touch State.historyUpdate
  split
  · dsimp only
    split
    · exact setMapEntry_storesOk _ _ h
    · exact h
  · exact h

/-! ### The floppy controller keeps its invariant -/

namespace Fdc.Inv

variable {f g : Fdc}

/-- With no transfer open, the disc and the form of the buffer are enough. -/
theorem of_closed (h : f.Inv) (hd : SameDisc f g) (hbuf : Memory.wf g.buf = true) (hc : TransferClosed g) : g.Inv where
  bufWf := hbuf
  curLe := by rw [hc.cur, hc.len]
  wposFormat := fun _ => hc.formatting
  notCapable := fun _ => by rw [hc.cur, hc.len]
  lenFits := fun _ => by rw [hc.len]; exact Nat.zero_le _
  noImage := by
    rw [hd.image, hd.geom, hd.writable, hd.bufCap]
    intro hi
    obtain ⟨_, hgeom, hw, hcap⟩ := h.noImage hi
    exact ⟨hc, hgeom, hw, hcap⟩
  someImage := by
    rw [hd.image, hd.geom, hd.bufCap]
    exact h.someImage

/-- What holds of an open transfer of a DRQ-capable command with a disc in the drive. -/
theorem of_open (h : f.Inv) (hd : SameDisc f g) (himg : f.image ≠ none) (hbuf : Memory.wf g.buf = true)
    (hcur : g.cur ≤ g.len) (hw : g.wpos.isSome = true → g.formatting = false) (hcap : g.drqCapable = true)
    (hlen : g.formatting = false → g.len ≤ g.bufCap) : g.Inv where
  bufWf := hbuf
  curLe := hcur
  wposFormat := hw
  notCapable := fun hn => absurd hcap (by rw [hn]; decide)
  lenFits := hlen
  noImage := fun hi => absurd (hd.image.symm.trans hi) himg
  someImage := by
    rw [hd.image, hd.geom, hd.bufCap]
    exact h.someImage

/-- Where disc, transfer and buffer stay, the invariant does; a command may become DRQ-capable. -/
theorem of_same (h : f.Inv) (hd : SameDisc f g) (ht : SameTransfer f g) (hbuf : g.buf = f.buf)
    (hcap : g.drqCapable = false → f.drqCapable = false) : g.Inv where
  bufWf := by rw [hbuf]; exact h.bufWf
  curLe := by rw [ht.cur, ht.len]; exact h.curLe
  wposFormat := by rw [ht.wpos, ht.formatting]; exact h.wposFormat
  notCapable := fun hn => by rw [ht.cur, ht.len]; exact h.notCapable (hcap hn)
  lenFits := by rw [ht.formatting, ht.len, hd.bufCap]; exact h.lenFits
  noImage := by
    rw [hd.image, hd.geom, hd.writable, hd.bufCap]
    intro hi
    obtain ⟨⟨hcur, hlen, hwpos, hfmt⟩, hrest⟩ := h.noImage hi
    exact ⟨⟨ht.cur.trans hcur, ht.len.trans hlen, ht.wpos.trans hwpos, ht.formatting.trans hfmt⟩, hrest⟩
  someImage := by
    rw [hd.image, hd.geom, hd.bufCap]
    exact h.someImage

/-- An open transfer has a disc in the drive, and a DRQ-capable command. -/
theorem of_lt (h : f.Inv) (hlt : f.cur < f.len) : f.image ≠ none ∧ f.drqCapable = true := by
  constructor
  · intro hi
    obtain ⟨hclosed, -⟩ := h.noImage hi
    have := hclosed.len
    omega
  · by_contra hn
    have := h.notCapable (by simpa using hn)
    omega

theorem clearIrq (h : f.Inv) : f.clearIrq.Inv := h.of_same ⟨rfl, rfl, rfl, rfl⟩ ⟨rfl, rfl, rfl, rfl⟩ rfl id

theorem report (h : f.Inv) (x : Byte) : (f.report x).Inv := h.of_same ⟨rfl, rfl, rfl, rfl⟩ ⟨rfl, rfl, rfl, rfl⟩ rfl id

theorem markCapable (h : f.Inv) : f.markCapable.Inv :=
  h.of_same ⟨rfl, rfl, rfl, rfl⟩ ⟨rfl, rfl, rfl, rfl⟩ rfl nofun

theorem selectHead (h : f.Inv) (hd : Option (BitVec 1)) : (f.selectHead hd).Inv :=
  h.of_same ⟨rfl, rfl, rfl, rfl⟩ ⟨rfl, rfl, rfl, rfl⟩ rfl id

theorem close (h : f.Inv) : f.close.Inv := h.of_closed ⟨rfl, rfl, rfl, rfl⟩ h.bufWf (close_closed f)

theorem resetPosition (h : f.Inv) (p : FdcParams) : (f.resetPosition p).Inv :=
  h.of_closed ⟨rfl, rfl, rfl, rfl⟩ h.bufWf ⟨rfl, rfl, rfl, rfl⟩

theorem dmaMiss (h : f.Inv) (p : FdcParams) : (f.dmaMiss p).Inv :=
  h.of_closed ⟨rfl, rfl, rfl, rfl⟩ h.bufWf ⟨rfl, rfl, rfl, rfl⟩

/-! #### Register accesses -/

theorem rdData (h : f.Inv) : f.rdData.2.Inv := by
  unfold Fdc.rdData Fdc.readAtCursor
  split
  · next hlt =>
    obtain ⟨himg, hcap⟩ := h.of_lt hlt
    dsimp only
    split
    · exact h.of_open ⟨rfl, rfl, rfl, rfl⟩ himg h.bufWf hlt h.wposFormat hcap h.lenFits
    · exact h.of_open ⟨rfl, rfl, rfl, rfl⟩ himg h.bufWf hlt h.wposFormat hcap h.lenFits
  · exact h

theorem readReg (h : f.Inv) (p : FdcParams) (freg : BitVec 2) : (f.readReg p freg).2.Inv := by
  unfold Fdc.readReg
  split
  · exact h.clearIrq
  · exact h
  · exact h
  · exact h.rdData

/-- The flush keeps the size of the image (43 R268, 45 R332). -/
theorem flush (h : f.Inv) : f.flush.Inv := by
  unfold Fdc.flush
  split
  · exact h
  · next off _ =>
    refine ⟨h.bufWf, h.curLe, h.wposFormat, h.notCapable, h.lenFits, fun hi => ?_, fun img hi => ?_⟩
    · obtain ⟨hc, hrest⟩ := h.noImage (Option.map_eq_none_iff.mp hi)
      exact ⟨⟨hc.cur, hc.len, hc.wpos, hc.formatting⟩, hrest⟩
    · obtain ⟨img', himg', rfl⟩ := Option.map_eq_some_iff.mp hi
      rw [imgWrite_length]
      exact h.someImage img' himg'

theorem finishWrite (h : f.Inv) : f.finishWrite.Inv := by
  have hflush : (if f.formatting then f else f.flush).Inv := by
    split
    · exact h
    · exact h.flush
  exact hflush.of_closed ⟨rfl, rfl, rfl, rfl⟩ hflush.bufWf ⟨rfl, rfl, rfl, rfl⟩

theorem acceptByte (h : f.Inv) (b : Byte) (hlt : f.cur < f.len) : (f.acceptByte b).Inv := by
  obtain ⟨himg, hcap⟩ := h.of_lt hlt
  refine h.of_open ⟨rfl, rfl, rfl, rfl⟩ himg ?_ hlt h.wposFormat hcap h.lenFits
  simp only [Fdc.acceptByte]
  split
  · exact h.bufWf
  · exact memSet_wf _ _ h.bufWf

theorem wrData (h : f.Inv) (b : Byte) : (f.wrData b).Inv := by
  have hlatch : ({ f with dataReg := b } : Fdc).Inv := h.of_same ⟨rfl, rfl, rfl, rfl⟩ ⟨rfl, rfl, rfl, rfl⟩ rfl id
  unfold Fdc.wrData
  dsimp only
  split
  · next hopen =>
    obtain ⟨hlt, -⟩ := hopen
    split
    · exact (hlatch.acceptByte b hlt).finishWrite
    · exact hlatch.acceptByte b hlt
  · exact hlatch

/-! #### Commands -/

theorem class1Complete (h : f.Inv) (p : FdcParams) (e : Bool) : (f.class1Complete p e).Inv :=
  h.of_closed ⟨rfl, rfl, rfl, rfl⟩ h.bufWf ⟨rfl, rfl, rfl, rfl⟩

theorem stepAndComplete (h : f.Inv) (p : FdcParams) (u : Bool) : (f.stepAndComplete p u).Inv :=
  h.of_closed ⟨rfl, rfl, rfl, rfl⟩ h.bufWf ⟨rfl, rfl, rfl, rfl⟩

theorem seekMove (h : f.Inv) : f.seekMove.Inv := by
  unfold Fdc.seekMove
  split
  · exact h.of_same ⟨rfl, rfl, rfl, rfl⟩ ⟨rfl, rfl, rfl, rfl⟩ rfl id
  · exact h

theorem seek (h : f.Inv) (cfg : Config) : (f.seek cfg).Inv := by
  have hm := h.seekMove
  unfold Fdc.seek
  dsimp only
  split
  · exact hm.of_closed ⟨rfl, rfl, rfl, rfl⟩ hm.bufWf ⟨rfl, rfl, rfl, rfl⟩
  · exact hm.class1Complete _ _

/-- The buffer holds a whole track of sectors, and the record of Read Address (45 R333). -/
theorem track_fits (h : f.Inv) (himg : f.image ≠ none) :
    6 ≤ f.bufCap ∧ ∀ n, n = 1 ∨ n = f.geom.spt → n * f.geom.secsz ≤ f.bufCap := by
  obtain ⟨img, himg⟩ := Option.ne_none_iff_exists'.mp himg
  obtain ⟨_, hspt, _, _, _, hcap⟩ := h.someImage img himg
  rw [hcap]
  refine ⟨le_max_right _ _, ?_⟩
  rintro n (rfl | rfl)
  · rw [one_mul]
    exact (Nat.le_mul_of_pos_right _ hspt).trans (le_max_left _ _)
  · rw [mul_comm]
    exact le_max_left _ _

theorem openRead (h : f.Inv) (himg : f.image ≠ none) (hcap : f.drqCapable = true) {bs : List Byte}
    (hlen : bs.length ≤ f.bufCap) : (f.openRead bs).Inv :=
  h.of_open ⟨rfl, rfl, rfl, rfl⟩ himg (bufWrite_wf bs _ _ h.bufWf) (Nat.zero_le _) nofun hcap fun _ => hlen

theorem readSectors (h : f.Inv) (himg : f.image ≠ none) (hcap : f.drqCapable = true) (p : FdcParams) {n : Nat}
    (hn : n = 1 ∨ n = f.geom.spt) : (f.readSectors p n).Inv := by
  obtain ⟨-, hfits⟩ := h.track_fits himg
  unfold Fdc.readSectors
  split
  · refine h.openRead himg hcap ?_
    rw [imgRead_length]
    exact (min_le_left _ _).trans (hfits n hn)
  · exact h.report _

theorem writeSectors (h : f.Inv) (himg : f.image ≠ none) (hcap : f.drqCapable = true) {n : Nat}
    (hn : n = 1 ∨ n = f.geom.spt) : (f.writeSectors n).Inv := by
  obtain ⟨-, hfits⟩ := h.track_fits himg
  exact h.of_open ⟨rfl, rfl, rfl, rfl⟩ himg h.bufWf (Nat.zero_le _) (fun _ => rfl) hcap fun _ => hfits n hn

/-- The Class 2/3 prologue keeps the invariant when the body does, on a DRQ-capable command with a disc. -/
theorem class23 (h : f.Inv) (p : FdcParams) (wc : Bool) (head : Option (BitVec 1)) {body : Fdc → Fdc}
    (hbody : ∀ g : Fdc, g.Inv → g.image ≠ none → g.drqCapable = true → (body g).Inv) :
    (f.class23 p wc head body).Inv := by
  unfold Fdc.class23
  split
  · exact h.markCapable.report _
  · next img himg =>
    split
    · exact h.markCapable.report _
    · exact hbody _ (h.markCapable.selectHead head) (by simp [himg]) rfl

/-- Every command keeps the invariant of the controller. -/
theorem commandBody (h : f.Inv) (cfg : Config) (c : FdcCmd) (lo : BitVec 4) :
    (commandBody cfg c lo f).Inv := by
  have hdir : ∀ d, ({ f with lastStepDir := d } : Fdc).Inv := fun d =>
    h.of_same ⟨rfl, rfl, rfl, rfl⟩ ⟨rfl, rfl, rfl, rfl⟩ rfl id
  cases c with
  | restore => exact h.of_closed ⟨rfl, rfl, rfl, rfl⟩ h.bufWf ⟨rfl, rfl, rfl, rfl⟩
  | seek => exact h.seek cfg
  | step => exact h.stepAndComplete _ _
  | stepU => exact h.stepAndComplete _ _
  | stepin => exact (hdir _).stepAndComplete _ _
  | stepinU => exact (hdir _).stepAndComplete _ _
  | stepout => exact (hdir _).stepAndComplete _ _
  | stepoutU => exact (hdir _).stepAndComplete _ _
  | rdsec => exact h.class23 _ _ _ fun g hg himg hcap => hg.readSectors himg hcap _ (.inl rfl)
  | rdsecM => exact h.class23 _ _ _ fun g hg himg hcap => hg.readSectors himg hcap _ (.inr rfl)
  | wrsec => exact h.class23 _ _ _ fun g hg himg hcap => hg.writeSectors himg hcap (.inl rfl)
  | wrsecM => exact h.class23 _ _ _ fun g hg himg hcap => hg.writeSectors himg hcap (.inr rfl)
  | rdaddr =>
    simp only [Machine.commandBody, Fdc.rdaddr]
    refine h.class23 _ _ _ fun g hg himg hcap => ?_
    obtain ⟨hrecord, -⟩ := hg.track_fits himg
    exact hg.openRead himg hcap hrecord
  | forceint =>
    simp only [Machine.commandBody, Fdc.forceint]
    refine h.class23 _ _ _ fun g hg _ _ => ?_
    exact hg.of_closed ⟨rfl, rfl, rfl, rfl⟩ hg.bufWf ⟨rfl, rfl, rfl, rfl⟩
  | rdtrk => exact h.class23 _ _ _ fun g hg _ _ => hg.report _
  | fmttrk =>
    simp only [Machine.commandBody, Fdc.fmttrk]
    refine h.class23 _ _ _ fun g hg himg hcap => ?_
    exact hg.of_open ⟨rfl, rfl, rfl, rfl⟩ himg hg.bufWf (Nat.zero_le _) nofun hcap nofun

theorem command (h : f.Inv) (cfg : Config) (c : FdcCmd) (lo : BitVec 4) :
    (Fdc.command (Machine.commandBody cfg c lo) f).Inv := by
  unfold Fdc.command
  split
  · exact h.clearIrq.report _
  · exact h.clearIrq.commandBody cfg c lo

theorem writeReg (h : f.Inv) (cfg : Config) (freg : BitVec 2) (b : Byte) : (f.writeReg cfg freg b).Inv := by
  unfold Fdc.writeReg
  split
  · exact h.command cfg _ _
  · exact h.of_same ⟨rfl, rfl, rfl, rfl⟩ ⟨rfl, rfl, rfl, rfl⟩ rfl id
  · exact h.of_same ⟨rfl, rfl, rfl, rfl⟩ ⟨rfl, rfl, rfl, rfl⟩ rfl id
  · exact h.wrData b

/-! #### Loading and unloading an image -/

/-- What an unload leaves: an empty drive with no transfer (45 R335). -/
theorem unload_empty (h : f.Inv) : f.unload.image = none ∧ TransferClosed f.unload ∧ f.unload.geom = ⟨0, 0, 0, 0⟩ ∧
    f.unload.writable = false ∧ f.unload.bufCap = 0 := by
  unfold Fdc.unload
  split
  · next hi => exact ⟨hi, h.noImage hi⟩
  · exact ⟨rfl, ⟨rfl, rfl, rfl, rfl⟩, rfl, rfl, rfl⟩

theorem unload_bufWf (h : f.Inv) : Memory.wf f.unload.buf = true := by
  unfold Fdc.unload
  split
  · exact h.bufWf
  · rfl

theorem unload (h : f.Inv) : f.unload.Inv := by
  obtain ⟨himg, hc, hrest⟩ := h.unload_empty
  refine ⟨h.unload_bufWf, ?_, fun _ => hc.formatting, fun _ => ?_, fun _ => ?_, fun _ => ⟨hc, hrest⟩, fun img hi => ?_⟩
  · rw [hc.cur, hc.len]
  · rw [hc.cur, hc.len]
  · rw [hc.len]; exact Nat.zero_le _
  · rw [himg] at hi; cases hi

end Fdc.Inv

/-- What a geometry that an image fits says (45 R333). -/
theorem goodGeometry_iff (a : LoadArgs) : goodGeometry a = true ↔
    a.secsz * a.spt * a.heads ≠ 0 ∧ a.bytes ≠ [] ∧ a.bytes.length % (a.secsz * a.spt * a.heads) = 0 := by
  simp only [goodGeometry, ne_eq, decide_not, Bool.and_eq_true, Bool.not_eq_true', decide_eq_false_iff_not,
    decide_eq_true_eq, List.length_eq_zero_iff, and_assoc]

theorem Fdc.Inv.load {f : Fdc} (h : f.Inv) (a : LoadArgs) : (f.load a).2.Inv := by
  have hu := h.unload
  obtain ⟨-, hc, -⟩ := h.unload_empty
  unfold Fdc.load
  dsimp only
  split
  · next hgood =>
    obtain ⟨hcyl, hbytes, hmod⟩ := (goodGeometry_iff a).mp hgood
    have hdvd := Nat.dvd_of_mod_eq_zero hmod
    have hcylPos : 0 < a.secsz * a.spt * a.heads := Nat.pos_of_ne_zero hcyl
    have hlen : 0 < a.bytes.length := List.length_pos_iff.mpr hbytes
    simp only [ne_eq, mul_eq_zero, not_or] at hcyl
    obtain ⟨⟨hsecsz, hspt⟩, hheads⟩ := hcyl
    refine ⟨rfl, hu.curLe, hu.wposFormat, hu.notCapable, fun _ => ?_, nofun, fun img hi => ?_⟩
    · show f.unload.len ≤ _
      rw [hc.len]
      exact Nat.zero_le _
    · cases hi
      exact ⟨Nat.pos_of_ne_zero hsecsz, Nat.pos_of_ne_zero hspt, Nat.pos_of_ne_zero hheads,
        Nat.div_pos (Nat.le_of_dvd hlen hdvd) hcylPos, (Nat.mul_div_cancel' hdvd).symm, rfl⟩
  · exact hu

/-- Every move of the controller keeps its invariant. -/
theorem FdcMove.inv {cfg : Config} {args : LoadArgs} {f g : Fdc} (hm : FdcMove cfg args f g) (h : f.Inv) : g.Inv := by
  cases hm with
  | read freg => exact h.readReg _ freg
  | write freg b => exact h.writeReg cfg freg b
  | command c lo => exact h.command cfg c lo
  | dmaMiss => exact h.dmaMiss _
  | load => exact h.load args
  | unload => exact h.unload

/-! ### What the rows change -/

/-- What a read of a row leaves: the state but for the draw counter, the history of a page, or the controller after a
register read. -/
theorem rowRead_state (r : AddrRow) (w : Width) (a : Addr) (s : State) :
    (∃ n, (rowRead r w a s).2 = { s with stubDraws := n }) ∨ (rowRead r w a s).2 = s.touch a false ∨
      ∃ freg, (rowRead r w a s).2 = s.setFdc (s.fdc.readReg s.cfg.params.fdc freg).2 := by
  cases r with
  | ram => exact .inr (.inl rfl)
  | fdcwin => exact .inr (.inr ⟨fregOf a, rfl⟩)
  | _ => exact .inl ⟨_, rfl⟩

/-- A read of a row keeps the configuration and the fault registers. -/
theorem rowRead_frame (r : AddrRow) (w : Width) (a : Addr) (s : State) :
    (rowRead r w a s).2.cfg = s.cfg ∧ SameFaultRegs s (rowRead r w a s).2 := by
  rcases rowRead_state r w a s with ⟨n, h⟩ | h | ⟨freg, h⟩
  · rw [h]; exact ⟨rfl, rfl, rfl, rfl⟩
  · have hk := touch_keepsRest s a false
    rw [h]; exact ⟨hk.cfg, hk.gsr, hk.bsr0, hk.bsr1⟩
  · rw [h]; exact ⟨rfl, rfl, rfl, rfl⟩

theorem writeRam_keepsRest (v : BitVec 32) (w : Width) (a : Addr) (s : State) : KeepsRest s (writeRam v w a s) :=
  (touch_keepsRest s a true).trans (writeBytes_keepsRest _ _ w v)

/-- What a write of a row leaves: other bytes of the stores, idle fault registers, or other control registers and another
controller. -/
theorem rowWrite_state (r : AddrRow) (v : BitVec 32) (w : Width) (a : Addr) (s : State) :
    KeepsRest s (rowWrite r v w a s) ∨ (r = .clrstat ∧ rowWrite r v w a s = s.clearStatus) ∨
      rowWrite r v w a s = { s with
        dmaEn := (rowWrite r v w a s).dmaEn, dmaIdmarw := (rowWrite r v w a s).dmaIdmarw
        dmaCount := (rowWrite r v w a s).dmaCount, dmaDir := (rowWrite r v w a s).dmaDir
        led := (rowWrite r v w a s).led, dmaAddr := (rowWrite r v w a s).dmaAddr, dcr := (rowWrite r v w a s).dcr
        gcr := (rowWrite r v w a s).gcr, fdc := (rowWrite r v w a s).fdc } := by
  cases r with
  | ram => exact .inl (writeRam_keepsRest v w a s)
  | mapram => exact .inl (writeBytes_keepsRest s _ w v)
  | vram => exact .inl (writeBytes_keepsRest s _ w v)
  | clrstat => exact .inr (.inl ⟨rfl, rfl⟩)
  | dmacnt => exact .inr (.inr rfl)
  | fdcwin => exact .inr (.inr rfl)
  | mcr => refine .inr (.inr ?_); simp only [rowWrite, writeMcr]; split <;> rfl
  | dmaadr => refine .inr (.inr ?_); simp only [rowWrite, writeDmaadr]; split <;> rfl
  | gcr => refine .inr (.inr ?_); simp only [rowWrite, writeGcr]; split <;> rfl
  | dcr => refine .inr (.inr ?_); simp only [rowWrite, writeDcr]; split <;> [split; skip] <;> rfl
  | _ => exact .inl (KeepsRest.refl s)

/-- A write of a row keeps the configuration, and but for CLRSTAT the fault registers. -/
theorem rowWrite_frame (r : AddrRow) (v : BitVec 32) (w : Width) (a : Addr) (s : State) :
    (rowWrite r v w a s).cfg = s.cfg ∧ (r ≠ .clrstat → SameFaultRegs s (rowWrite r v w a s)) := by
  rcases rowWrite_state r v w a s with h | ⟨hr, h⟩ | h
  · exact ⟨h.cfg, fun _ => ⟨h.gsr, h.bsr0, h.bsr1⟩⟩
  · rw [h]; exact ⟨rfl, fun hn => absurd hr hn⟩
  · rw [h]; exact ⟨rfl, fun _ => ⟨rfl, rfl, rfl⟩⟩

/-! ### The invariant of the block, operation by operation -/

namespace State.Inv

variable {s : State}

theorem setOut (h : s.Inv) (o : Outputs) : (s.setOut o).Inv :=
  ⟨h.cfg, h.mapWf, h.baseWf, h.expWf, h.vramWf, h.mapIn, h.baseIn, h.expIn, h.vramIn, h.dmaAddr, h.fdc⟩

theorem setFdc (h : s.Inv) {f : Fdc} (hf : f.Inv) : (s.setFdc f).Inv :=
  ⟨h.cfg, h.mapWf, h.baseWf, h.expWf, h.vramWf, h.mapIn, h.baseIn, h.expIn, h.vramIn, h.dmaAddr, hf⟩

theorem of_keepsRest (h : s.Inv) {t : State} (hk : KeepsRest s t) (ht : StoresOk t) : t.Inv := by
  rw [inv_iff, hk.cfg, hk.dmaAddr, hk.fdc]
  exact ⟨h.cfg, ht, h.dmaAddr, h.fdc⟩

theorem storesOk (h : s.Inv) : StoresOk s := by
  obtain ⟨-, hst, -, -⟩ := (inv_iff s).mp h
  exact hst

theorem touch (h : s.Inv) (a : Addr) (isWrite : Bool) : (s.touch a isWrite).Inv :=
  h.of_keepsRest (touch_keepsRest s a isWrite) (touch_storesOk a isWrite h.storesOk)

theorem rowRead (h : s.Inv) (r : AddrRow) (w : Width) (a : Addr) : (rowRead r w a s).2.Inv := by
  rcases rowRead_state r w a s with ⟨n, hs⟩ | hs | ⟨freg, hs⟩
  · rw [hs]
    exact ⟨h.cfg, h.mapWf, h.baseWf, h.expWf, h.vramWf, h.mapIn, h.baseIn, h.expIn, h.vramIn, h.dmaAddr, h.fdc⟩
  · rw [hs]; exact h.touch a false
  · rw [hs]; exact h.setFdc (h.fdc.readReg _ freg)

/-- A word that ends in a zero bit. -/
theorem append_zero_bit0 {n : Nat} (x : BitVec n) : (x ++ 0#1).getLsbD 0 = false := by
  rw [BitVec.getLsbD_append]
  rfl

theorem rowWrite (h : s.Inv) (r : AddrRow) (v : BitVec 32) (w : Width) (a : Addr) : (rowWrite r v w a s).Inv := by
  have hregs : ∀ {t : State}, t.cfg = s.cfg → (∀ st, t.store st = s.store st) → t.dmaAddr.getLsbD 0 = false →
      t.fdc.Inv → t.Inv := by
    intro t hcfg hst hdma hfdc
    rw [inv_iff, hcfg]
    exact ⟨h.cfg, fun st hne => by rw [hst, hcfg]; exact h.storesOk st hne, hdma, hfdc⟩
  cases r with
  | ram =>
    refine h.of_keepsRest (writeRam_keepsRest v w a s) (writeBytes_storesOk w v (h.touch a true).storesOk fun k => ?_)
    rw [(touch_keepsRest s a true).cfg]
    exact ramCell_ok s.cfg _
  | mapram =>
    exact h.of_keepsRest (writeBytes_keepsRest s _ w v) (writeBytes_storesOk w v h.storesOk (mapCell_ok s.cfg a))
  | vram =>
    exact h.of_keepsRest (writeBytes_keepsRest s _ w v) (writeBytes_storesOk w v h.storesOk (vramCell_ok h.cfg a))
  | clrstat => exact hregs rfl (fun st => by cases st <;> rfl) h.dmaAddr h.fdc
  | dmacnt => exact hregs rfl (fun st => by cases st <;> rfl) h.dmaAddr h.fdc
  | fdcwin => exact h.setFdc (h.fdc.writeReg s.cfg _ _)
  | mcr =>
    simp only [Machine.rowWrite, writeMcr]
    split
    · exact hregs rfl (fun st => by cases st <;> rfl) h.dmaAddr h.fdc
    · exact h
  | dmaadr =>
    simp only [Machine.rowWrite, writeDmaadr]
    split
    · exact hregs rfl (fun st => by cases st <;> rfl) (append_zero_bit0 _) h.fdc
    · exact hregs rfl (fun st => by cases st <;> rfl) (append_zero_bit0 _) h.fdc
  | gcr =>
    simp only [Machine.rowWrite, writeGcr]
    split
    · exact hregs rfl (fun st => by cases st <;> rfl) h.dmaAddr h.fdc
    · exact h
  | dcr =>
    simp only [Machine.rowWrite, writeDcr]
    split
    · split
      · exact hregs rfl (fun st => by cases st <;> rfl) h.dmaAddr h.fdc
      · exact hregs rfl (fun st => by cases st <;> rfl) h.dmaAddr (h.fdc.resetPosition _)
    · exact h
  | _ => exact h

theorem deny (h : s.Inv) (c : FaultClass) (acc : Access) : (s.deny c acc).Inv := by
  have ht := h.touch acc.addr (isWriteDir acc.dir)
  exact ⟨ht.cfg, ht.mapWf, ht.baseWf, ht.expWf, ht.vramWf, ht.mapIn, ht.baseIn, ht.expIn, ht.vramIn, ht.dmaAddr, ht.fdc⟩

theorem powerOnReset (h : s.Inv) : s.powerOnReset.Inv :=
  ⟨h.cfg, h.mapWf, h.baseWf, h.expWf, h.vramWf, h.mapIn, h.baseIn, h.expIn, h.vramIn,
    BitVec.getLsbD_zero, h.fdc.resetPosition _⟩

/-- Every operation keeps the invariant. -/
theorem exec (h : s.Inv) {i : Instr} {t : State} (he : exec i s = .next t) : t.Inv := by
  rcases exec_next he with ⟨r, w, a, -, rfl⟩ | ⟨r, v, w, a, -, rfl⟩ | ⟨-, c, acc, -, rfl⟩ | ⟨f, o, hm, -, rfl⟩ | rfl
  · exact (h.rowRead r w a).setOut _
  · exact (h.rowWrite r v w a).setOut _
  · exact h.deny c acc
  · exact (h.setFdc (hm.inv h.fdc)).setOut o
  · exact h.powerOnReset.setOut _

end State.Inv

/-- Settles O8: taking the stimulus keeps the invariant, and so does the operation it decodes to. -/
theorem stepKeepsTheInvariant : Obligations.StepKeepsTheInvariant := by
  intro s t h hstep
  obtain ⟨x, xs, i, -, -, he⟩ := step_next hstep
  have htaken : State.Inv { s with inputs := xs, args := x.args } :=
    ⟨h.cfg, h.mapWf, h.baseWf, h.expWf, h.vramWf, h.mapIn, h.baseIn, h.expIn, h.vramIn, h.dmaAddr, h.fdc⟩
  exact htaken.exec he

/-! ### The state after the first power-on -/

theorem installed_baseRamSize : Config.installed.baseRamSize = (Config.basePagesLessOne.val + 1) * 4096 := rfl
theorem installed_expRamSize : Config.installed.expRamSize = Config.expPages.val * 4096 := rfl
theorem installed_params : Config.installed.params = .decided := rfl
theorem installed_ok : Config.Ok Config.installed where
  basePos := by rw [installed_baseRamSize]; omega
  splitLe := by rw [installed_params, decided_ramSplit]; norm_num
  baseLe := by
    have := Config.basePagesLessOne.isLt
    rw [installed_baseRamSize, installed_params, decided_ramSplit]
    omega
  basePages := by rw [installed_baseRamSize, Nat.mul_mod_left]
  expLe := by
    have := Config.expPages.isLt
    rw [installed_expRamSize, installed_params, decided_ramSplit]
    omega
  expPages := by rw [installed_expRamSize, Nat.mul_mod_left]
  romPow := ⟨Config.romLog.val, Nat.le_of_lt_succ Config.romLog.isLt, rfl⟩
  romWf := rfl
  vramPow := ⟨15, by norm_num, by norm_num, rfl⟩
  formatPos := Nat.succ_pos _

/-- The controller of an empty drive meets its invariant (10 R58, D37). -/
theorem fdcReset_inv (p : FdcParams) : (Fdc.reset p).Inv where
  bufWf := rfl
  curLe := le_rfl
  wposFormat := nofun
  notCapable := fun _ => rfl
  lenFits := fun _ => le_rfl
  noImage := fun _ => ⟨⟨rfl, rfl, rfl, rfl⟩, rfl, rfl, rfl⟩
  someImage := nofun

/-- Settles O9: the stores are empty and the configuration is the installed one. -/
theorem resetMeetsTheInvariant : Obligations.ResetMeetsTheInvariant :=
  ⟨⟨installed_ok, rfl, rfl, rfl, rfl, rfl, rfl, rfl, rfl, rfl, fdcReset_inv _⟩, rfl⟩

/-! ### Configuration and ROM -/

theorem exec_cfg {i : Instr} {s t : State} (he : exec i s = .next t) : t.cfg = s.cfg := by
  rcases exec_next he with ⟨r, w, a, -, rfl⟩ | ⟨r, v, w, a, -, rfl⟩ | ⟨-, c, acc, -, rfl⟩ | ⟨f, o, -, -, rfl⟩ | rfl
  · exact (rowRead_frame r w a s).1
  · exact (rowWrite_frame r v w a s).1
  · exact (touch_keepsRest s _ _).cfg
  · rfl
  · rfl

/-- A byte of ROM is the configuration's (10 R43). -/
theorem byteAt_rom_eq {s t : State} (h : t.cfg = s.cfg) (i : Nat) : t.byteAt .rom i = s.byteAt .rom i := by
  simp only [State.byteAt, store_rom, h]

/-- Settles O11: the configuration is kept, and ROM is part of it. -/
theorem noStepChangesConfigurationOrRom : Obligations.NoStepChangesConfigurationOrRom := by
  intro s t hstep
  obtain ⟨x, xs, i, -, -, he⟩ := step_next hstep
  have hcfg := exec_cfg he
  exact ⟨hcfg, byteAt_rom_eq hcfg⟩

/-! ### The outputs -/

/-- Settles O14: of the forms of a next state only the bus error has `buserr`, and it has no `resched`. -/
theorem busErrorAndReschedNeverTogether : Obligations.BusErrorAndReschedNeverTogether := by
  rintro s t i he ⟨hbus, hres⟩
  rcases exec_next he with ⟨r, w, a, -, rfl⟩ | ⟨r, v, w, a, -, rfl⟩ | ⟨-, c, acc, -, rfl⟩ | ⟨f, o, -, ho, rfl⟩ | rfl
  · cases hbus
  · cases hbus
  · cases hres
  · exact absurd (ho.symm.trans hbus) (by decide)
  · cases hbus

/-! ### The fault snapshot -/

/-- The high byte of a recorded fault as a number (30 R128, D8). -/
def faultHighNat (c : FaultClass) (w : Width) (odd pie : Bool) : Nat :=
  (if w = .w8 then (if odd then 0x02 else 0x01) else 0x80) + 0x10 * classNumber c + (if pie then 0x04 else 0)

theorem faultHigh_toNat (c : FaultClass) (w : Width) (odd pie : Bool) :
    (BusFaultCodes.decided.high c w odd pie).toNat = 256 * faultHighNat c w odd pie := by
  cases c <;> cases w <;> cases odd <;> cases pie <;> rfl

theorem faultHighNat_lt (c : FaultClass) (w : Width) (odd pie : Bool) : faultHighNat c w odd pie < 256 := by
  have := (BusFaultCodes.decided.high c w odd pie).isLt
  rw [faultHigh_toNat] at this
  omega

/-- Two bytes, one above the other, joined by an or. -/
theorem or_of_bytes {h x : BitVec 16} {n m : Nat} (hn : h.toNat = 256 * n) (hx : x.toNat = m) (hm : m < 256) :
    (h ||| x).toNat = 256 * n + m := by
  rw [BitVec.toNat_or, hn, hx]
  have := Nat.two_pow_add_eq_or_of_lt (show m < 2 ^ 8 by omega) n
  rw [← this]

theorem bsr0OnFault_toNat (c : FaultClass) (w : Width) (a : Addr) (pie : Bool) :
    (bsr0OnFault .decided c w a pie).toNat = 256 * faultHighNat c w (a.getLsbD 0) pie + a.toNat / 0x10000 := by
  have ha := a.isLt
  refine or_of_bytes (faultHigh_toNat c w _ pie) ?_ (by omega)
  rw [toNat_append_eq, BitVec.extractLsb'_toNat, Nat.shiftRight_eq_div_pow]
  simp only [BitVec.toNat_ofNat]
  omega

/-- The high-byte bits lie in the high byte. -/
theorem faultHigh_and (c : FaultClass) (w : Width) (odd pie : Bool) :
    BusFaultCodes.decided.high c w odd pie &&& 0xFF00#16 = BusFaultCodes.decided.high c w odd pie := by
  cases c <;> cases w <;> cases odd <;> cases pie <;> rfl

theorem gsrOnFault_toNat (c : FaultClass) (w : Width) (a : Addr) (pie : Bool) :
    (gsrOnFault decidedGsrOnFault c w a pie).toNat = 256 * faultHighNat c w (a.getLsbD 0) pie + 0xFF := by
  rw [gsrOnFault_decided, faultHigh_and]
  exact or_of_bytes (faultHigh_toNat c w _ pie) rfl (by norm_num)

/-- The bits of the high byte that have the recorded shape: 6 and 3 are 0, and `LANE` goes with `W16`. -/
theorem faultHighNat_shape (c : FaultClass) (w : Width) (odd pie : Bool) :
    faultHighNat c w odd pie / 64 % 2 = 0 ∧ faultHighNat c w odd pie / 8 % 2 = 0 ∧
      (faultHighNat c w odd pie / 128 % 2 = 1 → faultHighNat c w odd pie % 4 = 0) ∧
      (faultHighNat c w odd pie / 128 % 2 = 0 → faultHighNat c w odd pie % 4 = 1 ∨ faultHighNat c w odd pie % 4 = 2) := by
  cases c <;> cases w <;> cases odd <;> cases pie <;> decide

/-- What a fault records has the recorded shape (30 R128, D8). -/
theorem recordedBsr0_onFault (c : FaultClass) (w : Width) (a : Addr) (pie : Bool) :
    RecordedBsr0 (bsr0OnFault .decided c w a pie) := by
  have ha := a.isLt
  have hn := bsr0OnFault_toNat c w a pie
  obtain ⟨h14, h11, hwide, hbyte⟩ := faultHighNat_shape c w (a.getLsbD 0) pie
  have hlane : ∀ y : BitVec 2, faultHighNat c w (a.getLsbD 0) pie % 4 = y.toNat →
      (bsr0OnFault .decided c w a pie).extractLsb' 8 2 = y := fun y hy => extractLsb'_eq_of_toNat (by omega)
  simp only [RecordedBsr0, getLsbD_eq_div, decide_eq_true_eq, decide_eq_false_iff_not]
  refine ⟨by omega, by omega, fun h15 => hlane 0#2 (hwide (by omega)), fun h15 => ?_⟩
  exact (hbyte (by omega)).imp (hlane 1#2) (hlane 2#2)

/-- `GSR` after a fault is the high byte of `BSR0` above 0xFF (30 R130, D9). -/
theorem gsrOnFault_eq (c : FaultClass) (w : Width) (a : Addr) (pie : Bool) :
    gsrOnFault decidedGsrOnFault c w a pie = (bsr0OnFault .decided c w a pie).extractLsb' 8 8 ++ 0xFF#8 := by
  have ha := a.isLt
  have hF := faultHighNat_lt c w (a.getLsbD 0) pie
  apply BitVec.eq_of_toNat_eq
  rw [gsrOnFault_toNat, toNat_append_eq, BitVec.extractLsb'_toNat, bsr0OnFault_toNat, Nat.shiftRight_eq_div_pow]
  simp only [BitVec.toNat_ofNat]
  omega

theorem State.FaultSnapshot.of_same {s t : State} (h : s.FaultSnapshot) (hs : SameFaultRegs s t) : t.FaultSnapshot := by
  unfold State.FaultSnapshot
  rw [hs.gsr, hs.bsr0, hs.bsr1]
  exact h

theorem State.FaultSnapshot.setOut {s : State} (h : s.FaultSnapshot) (o : Outputs) : (s.setOut o).FaultSnapshot := h

/-- A denied access leaves a recorded fault (60 R347). -/
theorem deny_faultSnapshot {s : State} (hp : s.cfg.params = .decided) (c : FaultClass) (acc : Access) :
    (s.deny c acc).FaultSnapshot := by
  have hcfg := (touch_keepsRest s acc.addr (isWriteDir acc.dir)).cfg
  right
  simp only [State.deny, raiseBusError_bsr0, raiseBusError_gsr, hcfg, hp, decided_faultCodes, decided_gsrOnFault]
  exact ⟨recordedBsr0_onFault c _ _ _, gsrOnFault_eq c _ _ _⟩

/-- An operation keeps the fault registers, makes them idle, or records a fault. -/
theorem exec_faultSnapshot {i : Instr} {s t : State} (hp : s.cfg.params = .decided) (h : s.FaultSnapshot)
    (he : exec i s = .next t) : t.FaultSnapshot := by
  rcases exec_next he with ⟨r, w, a, -, rfl⟩ | ⟨r, v, w, a, -, rfl⟩ | ⟨-, c, acc, -, rfl⟩ | ⟨f, o, -, -, rfl⟩ | rfl
  · obtain ⟨-, hregs⟩ := rowRead_frame r w a s
    exact (h.of_same hregs).setOut _
  · by_cases hr : r = .clrstat
    · subst hr
      exact .inl ⟨rfl, rfl, rfl⟩
    · obtain ⟨-, hregs⟩ := rowWrite_frame r v w a s
      exact (h.of_same (hregs hr)).setOut _
  · exact deny_faultSnapshot hp c acc
  · exact h
  · exact .inl ⟨rfl, rfl, rfl⟩

/-- Settles O10: taking the stimulus leaves the registers, and the operation keeps their shape. -/
theorem stepKeepsTheFaultSnapshotShape : Obligations.StepKeepsTheFaultSnapshotShape := by
  refine ⟨fun s t hp h hstep => ?_, .inl ⟨rfl, rfl, rfl⟩⟩
  obtain ⟨x, xs, i, -, -, he⟩ := step_next hstep
  exact exec_faultSnapshot (by exact hp) (by exact h) he

end Sys2Proof.Machine

/-! Proofs about the MMU and the four memory windows (40 §2, §3; 41 §3): translation, the permission check, and the reads
and writes of paged RAM, ROM, Map RAM and video RAM. -/

namespace Sys2Proof.Machine

/-! ### Translation (40 §2) -/

/-- The physical address as a number, at the decided layout (40 R171, D4). -/
theorem physicalOf_toNat {s : State} (hp : s.cfg.params = .decided) (a : Addr) :
    (s.physicalOf a).toNat = (s.mapEntry (pageOf a)).toNat % 1024 * 4096 + a.toNat % 4096 := by
  rw [State.physicalOf, pte_decided hp, physical, ptePpn_decided, toNat_append_eq, offsetOf]
  simp only [BitVec.extractLsb'_toNat, Nat.shiftRight_zero, Nat.reducePow]

/-- History leaves the translation of every address as it was (40 R174). -/
theorem physicalOf_touch {s : State} (hp : s.cfg.params = .decided) {a : Addr} (isWrite : Bool)
    (ha : a.toNat < 0x400000) : (s.touch a isWrite).physicalOf a = s.physicalOf a := by
  obtain ⟨hist, -, -⟩ := touch_spec s a isWrite
  have hcfg := (touch_keepsRest s a isWrite).cfg
  simp only [State.physicalOf, State.pte, hcfg, hp, decided_pte, physical, (hist hp ha).entry, ptePpn_historyAfter]

/-- Settles O16, from what a translation touches (`touch_spec`) and what history leaves. -/
theorem translationSetsHistoryAndRepeats : Obligations.TranslationSetsHistoryAndRepeats := by
  intro s a isWrite hp
  obtain ⟨hist, hother, hnone⟩ := touch_spec s a isWrite
  refine ⟨fun ha => ⟨physicalOf_toNat hp a, hist hp ha, hother, physicalOf_touch hp isWrite ha, ?_⟩, hnone⟩
  have hp' : (s.touch a isWrite).cfg.params = .decided := by rw [(touch_keepsRest s a isWrite).cfg, hp]
  obtain ⟨hist', -, -⟩ := touch_spec (s.touch a isWrite) a isWrite
  rw [(hist' hp' ha).entry, (hist hp ha).entry, historyAfter_idem]

/-! ### The permission check (40 §3) -/

/-- Settles O15: the verdict is the first of the five tests that applies (40 R181). -/
theorem checkFollowsThePrecedence : Obligations.CheckFollowsThePrecedence := by
  intro s a isWrite hp
  have hpresent : ptePresent s.pte (s.mapEntry (pageOf a)) = true ↔
      (s.mapEntry (pageOf a)).getLsbD 14 = true ∨ (s.mapEntry (pageOf a)).getLsbD 13 = true := by
    rw [pte_decided hp, ptePresent_decided, Bool.or_eq_true]
  have hwritable : pteWritable s.pte (s.mapEntry (pageOf a)) = (s.mapEntry (pageOf a)).getLsbD 15 := by
    rw [pte_decided hp, pteWritable_decided]
  refine ⟨rfl, fun ha => ?_, fun ha => ⟨fun h => ?_, fun h hk => ?_, fun h hk hw he => ?_, fun h hk hw => ?_⟩⟩
  · simp [State.checkAccess, belowBoundary, ramBoundary, Nat.not_lt.mpr ha]
  · have hf := Bool.not_eq_true _ ▸ mt hpresent.mp h
    simp [State.checkAccess, belowBoundary, ramBoundary, ha, hf]
  · simp [State.checkAccess, belowBoundary, ramBoundary, ha, hpresent.mpr h, inKernelWindow_iff a ha, hk]
  · have hnot : pteWritable s.pte (s.mapEntry (pageOf a)) = false := hwritable.trans he
    simp [State.checkAccess, belowBoundary, ramBoundary, ha, hpresent.mpr h, inKernelWindow_iff a ha, Nat.not_lt.mpr hk,
      hw, hnot]
  · rw [checkAccess_user_allowed, inKernelWindow_iff a ha, hwritable]
    refine ⟨ha, hpresent.mpr h, decide_eq_false (Nat.not_lt.mpr hk), fun hw' => ?_⟩
    exact hw.resolve_left (by rw [hw']; decide)

/-! ### Paged RAM (41 R198, R199) -/

/-- What is said of the history holds of every state with the same Map RAM bytes. -/
theorem HistoryOnly.congr {s t u : State} {page : BitVec 10} {isWrite : Bool} (h : HistoryOnly s t page isWrite)
    (hu : ∀ i, u.byteAt .map i = t.byteAt .map i) : HistoryOnly s u page isWrite where
  entry := by
    have : u.mapEntry page = t.mapEntry page := by simp only [State.mapEntry, hu]
    rw [this, h.entry]
  others := fun i hi => (hu i).trans (h.others i hi)

/-- A cell of RAM is in no other store. -/
theorem ramCell_ne {cfg : Config} {p : Nat} {st : Store} {j : Nat} (h1 : st ≠ .base) (h2 : st ≠ .exp) :
    ramCell cfg p ≠ some (st, j) := by
  intro h
  rcases ramCell_store h with ⟨rfl, -⟩ | ⟨rfl, -⟩
  · exact h1 rfl
  · exact h2 rfl

/-- A write of RAM leaves the bytes of the other stores as the translation does. -/
theorem byteAt_writeRam_other (v : BitVec 32) (w : Width) (a : Addr) (s : State) {st : Store} {j : Nat}
    (h : ∀ k, k < widthBytes w → ramCell s.cfg ((s.physicalOf a).toNat + k) ≠ some (st, j)) :
    (writeRam v w a s).byteAt st j = (s.touch a true).byteAt st j :=
  writeBytes_frame _ _ w v st j h

/-- A write of RAM stores byte `k` of the data in the cell of the physical address that many bytes up (20 R87). -/
theorem byteAt_writeRam_stored (v : BitVec 32) (w : Width) (a : Addr) (s : State) {st : Store} {j k : Nat}
    (hk : k < widthBytes w) (hc : ramCell s.cfg ((s.physicalOf a).toNat + k) = some (st, j)) :
    (writeRam v w a s).byteAt st j = beByte v.toNat (widthBytes w) k := by
  have hst : st ≠ .rom := by
    rintro rfl
    exact ramCell_ne (by decide) (by decide) hc
  refine writeBytes_stored _ (s.ramWindow a) w v st j k hst hk hc fun k' _ hne hc' => hne ?_
  have := ramCell_injective hc hc'
  omega

/-- Of Map RAM a write of RAM changes only the history of the page. -/
theorem writeRam_history (v : BitVec 32) (w : Width) {a : Addr} {s : State} (hp : s.cfg.params = .decided)
    (ha : a.toNat < 0x400000) : HistoryOnly s (writeRam v w a s) (pageOf a) true := by
  obtain ⟨hist, -, -⟩ := touch_spec s a true
  exact (hist hp ha).congr fun i => byteAt_writeRam_other v w a s fun k _ => ramCell_ne (by decide) (by decide)

/-- Settles O21. -/
theorem ramRowReadsPhysicalBytes : Obligations.RamRowReadsPhysicalBytes := by
  intro s w a hp hwf
  obtain ⟨hrow, hc, -⟩ := wellFormed_row (r := .ram) hwf
  obtain ⟨hist, hother, -⟩ := touch_spec s a false
  obtain ⟨hwidth, hbytes⟩ := readBytes_spec s (s.ramWindow a) w
  refine ⟨_, _, exec_row_read .ram s hc, rfl, hwidth, fun k hk => ?_, ?_, fun st i hst => ?_, ?_⟩
  · rw [ramByteShown_eq]
    exact hbytes k hk
  · exact (hist hp (ram_addr_lt hrow)).congr fun i => byteAt_setOut _ _ _ _
  · exact (byteAt_setOut _ _ _ _).trans (hother st i hst)
  · exact (touch_keepsRest s a false).onlyMemory _

/-- Settles O22. -/
theorem ramRowStoresPhysicalBytes : Obligations.RamRowStoresPhysicalBytes := by
  intro s v w a hp hwf
  obtain ⟨hrow, hc, -⟩ := wellFormed_row (r := .ram) hwf
  obtain ⟨-, hother, -⟩ := touch_spec s a true
  refine ⟨_, exec_row_write .ram v s hc, rfl, fun k hk st j hcell => ?_, fun st j hst hnone => ?_, ramByteShown_eq s, ?_, ?_⟩
  · exact (byteAt_setOut _ _ _ _).trans (byteAt_writeRam_stored v w a s hk hcell)
  · exact (byteAt_setOut _ _ _ _).trans ((byteAt_writeRam_other v w a s hnone).trans (hother st j hst))
  · exact (writeRam_history v w hp (ram_addr_lt hrow)).congr fun i => byteAt_setOut _ _ _ _
  · exact (writeRam_keepsRest v w a s).onlyMemory _

/-! ### ROM (41 R196, R197) -/

/-- Settles O23. -/
theorem romRowReadsImageAndIgnoresWrites : Obligations.RomRowReadsImageAndIgnoresWrites := by
  intro s w a hok
  refine ⟨fun hwf => ?_, fun d hwf => ?_⟩
  · obtain ⟨-, hc, -⟩ := wellFormed_row (r := .rom) hwf
    obtain ⟨hwidth, hbytes⟩ := readBytes_spec s (romCell s.cfg a) w
    refine ⟨_, _, exec_row_read .rom s hc, rfl, hwidth, fun k hk => ?_, setOut_unchanged s _⟩
    rw [show (rowRead .rom w a s).1 = s.readBytes (romCell s.cfg a) w from rfl, hbytes k hk, romCell_eq hok]
    rfl
  · obtain ⟨-, hc, -⟩ := wellFormed_row (r := .rom) hwf
    exact ⟨_, exec_row_write .rom d s hc, rfl, setOut_unchanged s _⟩

/-! ### Windows that wrap at their size (41 R202 to R204) -/

/-- The bytes of one access in a window of a size of at least four are at distinct positions. -/
theorem window_distinct {size x k k' : Nat} {w : Width} (hsize : 4 ≤ size) (hk : k < widthBytes w)
    (hk' : k' < widthBytes w) (h : (x + k) % size = (x + k') % size) : k = k' := by
  have hw : widthBytes w ≤ 4 := by cases w <;> decide
  exact Nat.ModEq.eq_of_lt_of_lt (Nat.ModEq.add_left_cancel' x h) (by omega) (by omega)

/-- A write to a window that wraps at its size stores its bytes there and changes no other byte. -/
theorem writeBytes_window (s : State) {cell : Nat → Option (Store × Nat)} {st : Store} {size x : Nat} (w : Width)
    (v : BitVec 32) (hst : st ≠ .rom) (hsize : 4 ≤ size) (hcell : ∀ k, cell k = some (st, (x + k) % size)) :
    (∀ k, k < widthBytes w →
      (s.writeBytes cell w v).byteAt st ((x + k) % size) = beByte v.toNat (widthBytes w) k) ∧
    ∀ st' j, (∀ k, k < widthBytes w → ¬(st' = st ∧ j = (x + k) % size)) →
      (s.writeBytes cell w v).byteAt st' j = s.byteAt st' j := by
  constructor
  · intro k hk
    refine writeBytes_stored s cell w v st _ k hst hk (hcell k) fun k' hk' hne hc => hne ?_
    rw [hcell k'] at hc
    simp only [Option.some.injEq, Prod.mk.injEq, true_and] at hc
    exact window_distinct hsize hk' hk hc
  · intro st' j h
    refine writeBytes_frame s cell w v st' j fun k hk hc => h k hk ?_
    rw [hcell k] at hc
    cases hc
    exact ⟨rfl, rfl⟩

/-- Settles O24. -/
theorem mapRamRowMovesRawBytes : Obligations.MapRamRowMovesRawBytes := by
  intro s w a
  refine ⟨fun hwf => ?_, fun d hwf => ?_⟩
  · obtain ⟨-, hc, -⟩ := wellFormed_row (r := .mapram) hwf
    obtain ⟨hwidth, hbytes⟩ := readBytes_spec s (mapCell a) w
    refine ⟨_, _, exec_row_read .mapram s hc, rfl, hwidth, fun k hk => ?_, setOut_unchanged s _⟩
    rw [show (rowRead .mapram w a s).1 = s.readBytes (mapCell a) w from rfl, hbytes k hk, mapCell_eq]
    rfl
  · obtain ⟨-, hc, -⟩ := wellFormed_row (r := .mapram) hwf
    obtain ⟨hstored, hframe⟩ := writeBytes_window s w d (st := .map) (by decide) (by norm_num) (mapCell_eq a)
    refine ⟨_, exec_row_write .mapram d s hc, rfl, fun k hk => ?_, fun j hj => ?_, fun st i hst => ?_, ?_⟩
    · exact (byteAt_setOut _ _ _ _).trans (hstored k hk)
    · exact (byteAt_setOut _ _ _ _).trans (hframe .map j fun k hk h => hj k hk h.2)
    · exact (byteAt_setOut _ _ _ _).trans (hframe st i fun k _ h => hst h.1)
    · exact (writeBytes_keepsRest s (mapCell a) w d).onlyMemory _

/-- The position in Map RAM of the entry that an even address of the row names (30 R124). -/
theorem mapRam_position {a : Addr} (ha : a.toNat % 2 = 0) :
    2 * (a.extractLsb' 1 10).toNat = a.toNat % 2048 ∧
      2 * (a.extractLsb' 1 10 + 1#10).toNat = (a.toNat + 2) % 2048 := by
  simp only [BitVec.toNat_add, BitVec.extractLsb'_toNat, Nat.shiftRight_eq_div_pow, BitVec.toNat_ofNat]
  omega

/-- Two neighbouring bytes of the data are one field of it. -/
theorem beByte_append_beByte (v : BitVec 32) (n k : Nat) (hk : k + 2 ≤ n) :
    beByte v.toNat n k ++ beByte v.toNat n (k + 1) = v.extractLsb' (8 * (n - 2 - k)) 16 := by
  apply BitVec.eq_of_toNat_eq
  have h1 : v.toNat / 256 ^ (n - 1 - k) = v.toNat / 256 ^ (n - 2 - k) / 256 := by
    rw [show n - 1 - k = (n - 2 - k) + 1 by omega, pow_succ, Nat.div_div_eq_div_mul]
  have h2 : (2 : Nat) ^ (8 * (n - 2 - k)) = 256 ^ (n - 2 - k) := by rw [pow_mul]; norm_num
  rw [toNat_append_eq, beByte, beByte, h1, show n - 1 - (k + 1) = n - 2 - k by omega, BitVec.extractLsb'_toNat,
    Nat.shiftRight_eq_div_pow, h2]
  simp only [BitVec.toNat_ofNat]
  omega

/-- The entry at an even position of Map RAM, wrapped at the end of the window. -/
theorem mapEntry_at (s : State) {p : BitVec 10} {x : Nat} (hp : 2 * p.toNat = x % 2048) :
    s.mapEntry p = s.byteAt .map (x % 2048) ++ s.byteAt .map ((x + 1) % 2048) := by
  rw [State.mapEntry, hp, show (x + 1) % 2048 = x % 2048 + 1 by omega]

/-- An entry whose two bytes are as before is as before. -/
theorem mapEntry_congr {s t : State} {p : BitVec 10} (h : ∀ j, j / 2 = p.toNat → t.byteAt .map j = s.byteAt .map j) :
    t.mapEntry p = s.mapEntry p := by
  rw [State.mapEntry, State.mapEntry, h _ (by omega), h _ (by omega)]

theorem append_four_bytes (b0 b1 b2 b3 : Byte) :
    (b0 ++ b1 ++ b2 ++ b3 : BitVec 32) = ((b0 ++ b1 : BitVec 16) ++ (b2 ++ b3 : BitVec 16) : BitVec 32) := by
  have h : (b0 ++ b1 ++ b2 ++ b3).toNat = ((b0 ++ b1) ++ (b2 ++ b3)).toNat := by
    simp only [toNat_append_eq]
    omega
  exact BitVec.eq_of_toNat_eq h

/-- Settles O25: the entry of an even address, and the one after it, are at the positions the access covers. -/
theorem wideMapRamAccessMovesWholeEntries : Obligations.WideMapRamAccessMovesWholeEntries := by
  intro s a
  have heven : ∀ {w : Width} {dir : Dir}, w ≠ .w8 → wellFormed (.mapram ⟨dir, w, a⟩) = true →
      keepsContract w a = true ∧ a.toNat % 2 = 0 := by
    intro w dir hw hwf
    obtain ⟨-, hc, -⟩ := wellFormed_row (r := .mapram) hwf
    exact ⟨hc, ((keepsContract_iff w a).mp hc).resolve_left hw⟩
  have hcell : ∀ k, s.readCell (mapCell a k) = s.byteAt .map ((a.toNat + k) % 2048) := by
    intro k
    rw [mapCell_eq]
    rfl
  refine ⟨fun hwf => ?_, fun hwf => ?_, fun d hwf => ?_, fun d hwf => ?_⟩
  · obtain ⟨hc, ha⟩ := heven (by decide) hwf
    obtain ⟨hpos, -⟩ := mapRam_position ha
    refine ⟨_, exec_row_read .mapram s hc, ?_⟩
    show some (ReadValue.v16 (s.readCell (mapCell a 0) ++ s.readCell (mapCell a 1))) = _
    rw [hcell, hcell, mapEntry_at s hpos]
    rfl
  · obtain ⟨hc, ha⟩ := heven (by decide) hwf
    obtain ⟨hpos, hpos'⟩ := mapRam_position ha
    refine ⟨_, exec_row_read .mapram s hc, ?_⟩
    show some (ReadValue.v32 (s.readCell (mapCell a 0) ++ s.readCell (mapCell a 1) ++ s.readCell (mapCell a 2) ++
      s.readCell (mapCell a 3))) = _
    rw [hcell, hcell, hcell, hcell, mapEntry_at s hpos, mapEntry_at s hpos']
    exact congrArg (fun v => some (ReadValue.v32 v)) (append_four_bytes _ _ _ _)
  · obtain ⟨hc, ha⟩ := heven (by decide) hwf
    obtain ⟨hpos, -⟩ := mapRam_position ha
    obtain ⟨hstored, hframe⟩ := writeBytes_window s .w16 d (st := .map) (by decide) (by norm_num) (mapCell_eq a)
    refine ⟨_, exec_row_write .mapram d s hc, ?_, fun p hpe => ?_⟩
    · exact (mapEntry_at _ hpos).trans ((congrArg₂ (· ++ ·) (hstored 0 (by decide)) (hstored 1 (by decide))).trans
        (beByte_append_beByte d 2 0 (by norm_num)))
    · refine mapEntry_congr fun j hj => hframe .map j fun k hk h => hpe (BitVec.eq_of_toNat_eq ?_)
      obtain ⟨-, hj'⟩ := h
      simp only [widthBytes] at hk
      omega
  · obtain ⟨hc, ha⟩ := heven (by decide) hwf
    obtain ⟨hpos, hpos'⟩ := mapRam_position ha
    obtain ⟨hstored, hframe⟩ := writeBytes_window s .w32 d (st := .map) (by decide) (by norm_num) (mapCell_eq a)
    refine ⟨_, exec_row_write .mapram d s hc, ?_, ?_, fun p hpe hpe' => ?_⟩
    · exact (mapEntry_at _ hpos).trans ((congrArg₂ (· ++ ·) (hstored 0 (by decide)) (hstored 1 (by decide))).trans
        (beByte_append_beByte d 4 0 (by norm_num)))
    · exact (mapEntry_at _ hpos').trans ((congrArg₂ (· ++ ·) (hstored 2 (by decide)) (hstored 3 (by decide))).trans
        (beByte_append_beByte d 4 2 (by norm_num)))
    · refine mapEntry_congr fun j hj => hframe .map j fun k hk h => ?_
      obtain ⟨-, hj'⟩ := h
      simp only [widthBytes] at hk
      obtain hk | hk : k < 2 ∨ 2 ≤ k := by omega
      · exact hpe (BitVec.eq_of_toNat_eq (by omega))
      · exact hpe' (BitVec.eq_of_toNat_eq (by omega))

/-- Settles O26. -/
theorem vramRowMovesBufferBytes : Obligations.VramRowMovesBufferBytes := by
  intro s w a hok
  have hsize : 4 ≤ s.cfg.params.vramSize := by
    obtain ⟨n, hn, -, hpow⟩ := hok.vramPow
    rw [hpow]
    exact Nat.pow_le_pow_right (n := 2) two_pos hn
  refine ⟨fun hwf => ?_, fun d hwf => ?_⟩
  · obtain ⟨-, hc, -⟩ := wellFormed_row (r := .vram) hwf
    obtain ⟨hwidth, hbytes⟩ := readBytes_spec s (vramCell s.cfg a) w
    refine ⟨_, _, exec_row_read .vram s hc, rfl, hwidth, fun k hk => ?_, setOut_unchanged s _⟩
    rw [show (rowRead .vram w a s).1 = s.readBytes (vramCell s.cfg a) w from rfl, hbytes k hk, vramCell_eq hok]
    rfl
  · obtain ⟨-, hc, -⟩ := wellFormed_row (r := .vram) hwf
    obtain ⟨hstored, hframe⟩ := writeBytes_window s w d (st := .vram) (by decide) hsize (vramCell_eq hok a)
    refine ⟨_, exec_row_write .vram d s hc, rfl, fun k hk => ?_, fun st j hj => ?_, ?_⟩
    · exact (byteAt_setOut _ _ _ _).trans (hstored k hk)
    · exact (byteAt_setOut _ _ _ _).trans (hframe st j hj)
    · exact (writeBytes_keepsRest s (vramCell s.cfg a) w d).onlyMemory _

end Sys2Proof.Machine

/-! Proofs about the six bus transactions (41 §1, §2; 60 §1, §3, §5): the overlay, the bus error, and the row an allowed
transaction reaches. -/

namespace Sys2Proof.Machine

/-! ### The overlay (41 R192) -/

/-- The overlay moves an address below the boundary into the ROM window, and leaves every other. -/
theorem overlay_toNat (ovl : Bool) (a : Addr) :
    (overlay ovl a).toNat = if ovl = true ∧ a.toNat < 0x400000 then a.toNat + 0x800000 else a.toNat := by
  unfold overlay belowBoundary ramBoundary
  by_cases h : ovl = true ∧ a.toNat < 0x400000
  · rw [if_pos (by simpa using h), if_pos h, BitVec.toNat_or]
    have := Nat.two_pow_add_eq_or_of_lt (show a.toNat < 2 ^ 23 by omega) 1
    rw [Nat.or_comm, Nat.add_comm]
    exact this.symm
  · rw [if_neg (by simpa using h), if_neg h]

theorem overlay_eq_self {ovl : Bool} {a : Addr} (h : ¬(ovl = true ∧ a.toNat < 0x400000)) : overlay ovl a = a :=
  BitVec.eq_of_toNat_eq (by rw [overlay_toNat, if_neg h])

/-- The overlay keeps the parity of an address, so the contract. -/
theorem keepsContract_overlay (w : Width) (ovl : Bool) (a : Addr) :
    keepsContract w (overlay ovl a) = true ↔ keepsContract w a = true := by
  rw [keepsContract_iff, keepsContract_iff, overlay_toNat]
  split
  · have : (a.toNat + 0x800000) % 2 = a.toNat % 2 := by omega
    rw [this]
  · rfl

/-- What lies below the boundary after the overlay did before, and the overlay is off. -/
theorem overlay_lt {ovl : Bool} {a : Addr} (h : (overlay ovl a).toNat < 0x400000) :
    ovl = false ∧ a.toNat < 0x400000 ∧ overlay ovl a = a := by
  have hn : ¬(ovl = true ∧ a.toNat < 0x400000) := by
    intro hc
    rw [overlay_toNat, if_pos hc] at h
    omega
  have heq := overlay_eq_self hn
  rw [heq] at h
  refine ⟨?_, h, heq⟩
  by_contra ho
  exact hn ⟨by simpa using ho, h⟩

/-! ### The row an address reaches, in every map (20 R81) -/

theorem decodeRow_ram (m : AddressMap) {a : Addr} (h : a.toNat < 0x400000) : decodeRow m a = .ram := by
  have : (a.extractLsb' 22 2).toNat = 0 := by
    rw [BitVec.extractLsb'_toNat, Nat.shiftRight_eq_div_pow]
    omega
  simp only [decodeRow, this]

theorem decodeRow_rom (m : AddressMap) {a : Addr} (h : 0x800000 ≤ a.toNat) (h' : a.toNat < 0xC00000) :
    decodeRow m a = .rom := by
  have : (a.extractLsb' 22 2).toNat = 2 := by
    rw [BitVec.extractLsb'_toNat, Nat.shiftRight_eq_div_pow]
    omega
  simp only [decodeRow, this]

/-! ### The two ways a transaction ends -/

theorem transact_denied {sup : Bool} {acc : Access} {s : State} {c : FaultClass}
    (hc : keepsContract acc.width acc.addr = true)
    (hv : s.checkAccess (overlay s.ovl acc.addr) (isWriteDir acc.dir) sup = .denied c) :
    transact sup acc s = .next (s.deny c (s.overlaid acc)) := by
  have hv' : s.checkAccess (s.overlaid acc).addr (isWriteDir (s.overlaid acc).dir) sup = .denied c := hv
  simp only [transact, hc, if_true, hv']

theorem transact_allowed {sup : Bool} {acc : Access} {s : State} (hc : keepsContract acc.width acc.addr = true)
    (hv : s.checkAccess (overlay s.ovl acc.addr) (isWriteDir acc.dir) sup = .allowed) :
    transact sup acc s = runRow (decodeRow s.cfg.params.map (overlay s.ovl acc.addr)) (s.overlaid acc) s := by
  have hv' : s.checkAccess (s.overlaid acc).addr (isWriteDir (s.overlaid acc).dir) sup = .allowed := hv
  simp only [transact, hc, if_true, hv']
  rfl

theorem SameFaultRegs.setOut {s t : State} (h : SameFaultRegs s t) (o : Outputs) : SameFaultRegs s (t.setOut o) :=
  ⟨h.gsr, h.bsr0, h.bsr1⟩

/-- A row completes under the contract, without a bus error; only CLRSTAT writes the fault registers. -/
theorem runRow_completes (r : AddrRow) {acc : Access} (s : State) (hc : keepsContract acc.width acc.addr = true) :
    ∃ t, runRow r acc s = .next t ∧ t.out.buserr = false ∧ (r ≠ .clrstat → SameFaultRegs s t) := by
  obtain ⟨dir, w, a⟩ := acc
  rw [← exec_row]
  cases dir with
  | read =>
    obtain ⟨-, hregs⟩ := rowRead_frame r w a s
    exact ⟨_, exec_row_read r s hc, rfl, fun _ => hregs.setOut _⟩
  | write v =>
    obtain ⟨-, hregs⟩ := rowWrite_frame r v w a s
    exact ⟨_, exec_row_write r v s hc, rfl, fun hr => (hregs hr).setOut _⟩

/-- Settles O18. -/
theorem allowedTransactionRunsTheRowItReaches : Obligations.AllowedTransactionRunsTheRowItReaches := by
  intro s i sup acc hi hal hv
  have hc := (keepsContract_iff _ _).mpr hal
  have hc' : keepsContract (s.overlaid acc).width (s.overlaid acc).addr = true :=
    (keepsContract_overlay _ _ _).mpr hc
  obtain ⟨t, ht, -, -⟩ := runRow_completes (decodeRow s.cfg.params.map (overlay s.ovl acc.addr)) s hc'
  refine ⟨t, ?_, ?_⟩
  · rw [exec_transaction hi, transact_allowed hc hv, ht]
  · rw [exec_row]
    exact ht

/-- Settles O13: the supervisor bypass allows the transaction, and the row completes. -/
theorem supervisorTransactionIsNeverDenied : Obligations.SupervisorTransactionIsNeverDenied := by
  intro s i acc hi hal
  have hc := (keepsContract_iff _ _).mpr hal
  have hc' : keepsContract (s.overlaid acc).width (s.overlaid acc).addr = true :=
    (keepsContract_overlay _ _ _).mpr hc
  obtain ⟨t, ht, hbus, hregs⟩ := runRow_completes (decodeRow s.cfg.params.map (overlay s.ovl acc.addr)) s hc'
  refine ⟨t, ?_, hbus, hregs⟩
  rw [exec_transaction hi, transact_allowed hc (checkAccess_supervisor s _ _), ht]

/-! ### The bus error (60 R347) -/

/-- `ones(w)` has the width, with every bit set (00 R14). -/
theorem onesOf_spec (w : Width) : hasWidth (onesOf w) w = true ∧ valueNat (onesOf w) = onesNat w := by
  cases w <;> exact ⟨rfl, rfl⟩

/-- A denied access leaves the history of the page, and changes nothing else but the fault registers and the outputs. -/
theorem deny_frame (s : State) (c : FaultClass) (acc : Access) :
    (s.cfg.params = .decided → acc.addr.toNat < 0x400000 →
      HistoryOnly s (s.deny c acc) (pageOf acc.addr) (isWriteDir acc.dir)) ∧
    (0x400000 ≤ acc.addr.toNat → SameMemory s (s.deny c acc)) ∧ SameMemoryButMap s (s.deny c acc) ∧
    SameControl s (s.deny c acc) ∧ SameModel s (s.deny c acc) ∧ (s.deny c acc).fdc = s.fdc := by
  obtain ⟨hist, hother, hnone⟩ := touch_spec s acc.addr (isWriteDir acc.dir)
  have hk := touch_keepsRest s acc.addr (isWriteDir acc.dir)
  refine ⟨fun hp ha => (hist hp ha).congr fun i => byteAt_raiseBusError _ _ _ _ _, fun ha st i => ?_, fun st i hst => ?_,
    ⟨hk.gcr, hk.led, hk.dmaDir, hk.dmaCount, hk.dmaEn, hk.dmaIdmarw, hk.dmaAddr, hk.dcr⟩,
    ⟨hk.cfg, hk.args, hk.inputs, hk.stubDraws⟩, hk.fdc⟩
  · rw [State.deny, hnone ha, byteAt_raiseBusError]
  · exact (byteAt_raiseBusError _ _ _ _ _).trans (hother st i hst)

/-- The fault registers of a denied access, as numbers, at the decided constants (60 R347; D8, D9). -/
theorem deny_registers {s : State} (hp : s.cfg.params = .decided) (c : FaultClass) (acc : Access) :
    (s.deny c acc).bsr0.toNat =
      256 * faultHighNat c acc.width (acc.addr.getLsbD 0) s.pie + acc.addr.toNat / 0x10000 ∧
    (s.deny c acc).bsr1.toNat = acc.addr.toNat % 0x10000 ∧
    (s.deny c acc).gsr.toNat = 256 * faultHighNat c acc.width (acc.addr.getLsbD 0) s.pie + 0xFF := by
  have hk := touch_keepsRest s acc.addr (isWriteDir acc.dir)
  simp only [State.deny, raiseBusError_bsr0, raiseBusError_bsr1, raiseBusError_gsr, hk.cfg, hk.pie, hp,
    decided_faultCodes, decided_gsrOnFault]
  refine ⟨bsr0OnFault_toNat c _ _ _, ?_, gsrOnFault_toNat c _ _ _⟩
  rw [bsr1OnFault, BitVec.extractLsb'_toNat, Nat.shiftRight_zero]

/-- Settles O17. -/
theorem deniedTransactionTakesTheBusError : Obligations.DeniedTransactionTakesTheBusError := by
  intro s i sup acc c hp hi hal hv a
  have hc := (keepsContract_iff _ _).mpr hal
  obtain ⟨hbsr0, hbsr1, hgsr⟩ := deny_registers hp c (s.overlaid acc)
  obtain ⟨hist, hsame, hother, hcontrol, hmodel, hfdc⟩ := deny_frame s c (s.overlaid acc)
  obtain ⟨hwidth, hones⟩ := onesOf_spec acc.width
  have ha := a.isLt
  refine ⟨_, (exec_transaction hi s).trans (transact_denied hc hv), ?_, hbsr1, ?_, rfl, rfl, rfl, fun hw => ?_,
    fun hw => ⟨_, ?_, hwidth, hones⟩, hist hp, hsame, hother, hcontrol, hmodel, hfdc⟩
  · rw [hbsr0]
    show 256 * faultHighNat c acc.width (a.getLsbD 0) s.pie + a.toNat / 0x10000 = _
    rw [faultHighNat, addr_bit0]
    simp only [decide_eq_true_eq]
    split_ifs <;> omega
  · rw [hbsr0, hgsr]
    show _ = (256 * _ + a.toNat / 0x10000) / 256 * 256 + 0xFF
    omega
  · show (if isWriteDir acc.dir then none else some (onesOf acc.width)) = none
    rw [hw, if_pos rfl]
  · show (if isWriteDir acc.dir then none else some (onesOf acc.width)) = some (onesOf acc.width)
    rw [hw]
    rfl

/-! ### User transactions (40 R177, 60 R363) -/

/-- The overlay keeps the page index: it sets bit 23 only. -/
theorem pageOf_overlay (ovl : Bool) (a : Addr) : pageOf (overlay ovl a) = pageOf a := by
  apply BitVec.eq_of_toNat_eq
  simp only [pageOf, BitVec.extractLsb'_toNat, Nat.shiftRight_eq_div_pow, overlay_toNat]
  split <;> omega

/-- What a user transaction that is allowed says: the overlay is off, and the address and its entry pass the tests. -/
theorem user_allowed {s : State} {a : Addr} {isWrite : Bool} (hp : s.cfg.params = .decided)
    (h : s.checkAccess (overlay s.ovl a) isWrite false = .allowed) :
    overlay s.ovl a = a ∧ s.ovl = false ∧ 0x080000 ≤ a.toNat ∧ a.toNat < 0x400000 ∧
      ((s.mapEntry (pageOf a)).getLsbD 14 = true ∨ (s.mapEntry (pageOf a)).getLsbD 13 = true) ∧
      (isWrite = true → (s.mapEntry (pageOf a)).getLsbD 15 = true) := by
  obtain ⟨hlt, hpresent, hwindow, hwrite⟩ := (checkAccess_user_allowed _ _ _).mp h
  obtain ⟨hovl, ha, heq⟩ := overlay_lt hlt
  rw [heq] at hpresent hwindow hwrite
  rw [pte_decided hp] at hpresent hwrite
  rw [inKernelWindow_iff a ha, decide_eq_false_iff_not, not_lt] at hwindow
  rw [ptePresent_decided, Bool.or_eq_true] at hpresent
  exact ⟨heq, hovl, hwindow, ha, hpresent, hwrite⟩

/-- A user transaction that is allowed is the access of the RAM row at its own address. -/
theorem user_allowed_runs {s t : State} {acc : Access} (hp : s.cfg.params = .decided)
    (hv : s.checkAccess (overlay s.ovl acc.addr) (isWriteDir acc.dir) false = .allowed)
    (ht : transact false acc s = .next t) :
    (acc.dir = .read ∧ t = (readRam acc.width acc.addr s).2.setOut (readOut (readRam acc.width acc.addr s).1 false)) ∨
      ∃ v, acc.dir = .write v ∧ t = (writeRam v acc.width acc.addr s).setOut (writeOut false) := by
  obtain ⟨heq, -, -, ha, -, -⟩ := user_allowed hp hv
  obtain ⟨hc, -⟩ := transact_next ht
  rw [transact_allowed hc hv, State.overlaid, heq, decodeRow_ram _ ha] at ht
  obtain ⟨-, h⟩ := accessRow_next ht
  exact h

/-- Settles O12: a denied transaction changes the history and the fault registers, an allowed one is an access of RAM. -/
theorem userTransactionReachesOnlyPagedRam : Obligations.UserTransactionReachesOnlyPagedRam := by
  intro s t i acc hp hi he
  rw [exec_transaction hi] at he
  obtain ⟨hc, ⟨c, hv, rfl⟩ | ⟨hv, -⟩⟩ := transact_next he
  · obtain ⟨hist, hsame, hother, hcontrol, hmodel, hfdc⟩ := deny_frame s c (s.overlaid acc)
    refine ⟨nofun, hcontrol, hmodel, hfdc, rfl, fun j => ⟨hother _ j (by decide), hother _ j (by decide)⟩, ?_, nofun,
      fun st j hst hne => absurd (hother st j hst) hne⟩
    by_cases ha : (overlay s.ovl acc.addr).toNat < 0x400000
    · rw [← pageOf_overlay s.ovl]
      exact .inr (hist hp ha)
    · exact .inl (hsame (not_lt.mp ha))
  · obtain ⟨-, hovl, hlo, hhi, hpresent, hwrite⟩ := user_allowed hp hv
    have hreach : t.out.buserr = false → s.ovl = false ∧ 0x080000 ≤ acc.addr.toNat ∧ acc.addr.toNat < 0x400000 ∧
        ((s.mapEntry (pageOf acc.addr)).getLsbD 14 = true ∨ (s.mapEntry (pageOf acc.addr)).getLsbD 13 = true) ∧
        (isWriteDir acc.dir = true → (s.mapEntry (pageOf acc.addr)).getLsbD 15 = true) :=
      fun _ => ⟨hovl, hlo, hhi, hpresent, hwrite⟩
    rcases user_allowed_runs hp hv he with ⟨hd, rfl⟩ | ⟨v, hd, rfl⟩
    · obtain ⟨hist, hother, -⟩ := touch_spec s acc.addr false
      have hframe := (touch_keepsRest s acc.addr false).onlyMemory (readOut (readRam acc.width acc.addr s).1 false)
      have hbyte : ∀ st j, st ≠ .map →
          ((readRam acc.width acc.addr s).2.setOut (readOut (readRam acc.width acc.addr s).1 false)).byteAt st j =
            s.byteAt st j := fun st j hst => (byteAt_setOut _ _ _ _).trans (hother st j hst)
      refine ⟨hreach, hframe.control, hframe.model, hframe.fdc, rfl, fun j => ⟨hbyte _ j (by decide), hbyte _ j (by decide)⟩,
        .inr ?_, fun _ => hframe.faultRegs, fun st j hst hne => absurd (hbyte st j hst) hne⟩
      rw [hd]
      exact (hist hp hhi).congr fun i => byteAt_setOut _ _ _ _
    · obtain ⟨-, hother, -⟩ := touch_spec s acc.addr true
      have hframe := (writeRam_keepsRest v acc.width acc.addr s).onlyMemory (writeOut false)
      have hbyte : ∀ st j, st ≠ .map → st ≠ .base → st ≠ .exp →
          ((writeRam v acc.width acc.addr s).setOut (writeOut false)).byteAt st j = s.byteAt st j :=
        fun st j hmap hbase hexp => (byteAt_setOut _ _ _ _).trans
          ((byteAt_writeRam_other v _ _ s fun k _ => ramCell_ne hbase hexp).trans (hother st j hmap))
      refine ⟨hreach, hframe.control, hframe.model, hframe.fdc, rfl,
        fun j => ⟨hbyte _ j (by decide) (by decide) (by decide), hbyte _ j (by decide) (by decide) (by decide)⟩,
        .inr ?_, fun _ => hframe.faultRegs, fun st j _ _ => ⟨by rw [hd]; rfl, rfl⟩⟩
      rw [hd]
      exact (writeRam_history v acc.width hp hhi).congr fun i => byteAt_setOut _ _ _ _

/-! ### The overlay serves low memory from ROM (20 §6) -/

/-- The ROM repeats from the boundary of its window as from 0. -/
theorem rom_mod_overlay {cfg : Config} (hok : Config.Ok cfg) (x : Nat) : (x + 0x800000) % cfg.romSize = x % cfg.romSize := by
  obtain ⟨k, hk, hsize⟩ := hok.romPow
  have hdvd : cfg.romSize ∣ 0x800000 := by
    rw [hsize]
    exact (pow_dvd_pow 2 (show k ≤ 23 by omega))
  obtain ⟨m, hm⟩ := hdvd
  rw [hm, Nat.add_mul_mod_self_left]

/-- Settles O19. -/
theorem overlayServesLowMemoryFromRom : Obligations.OverlayServesLowMemoryFromRom := by
  intro s i acc hi hal hok hovl ha
  obtain ⟨dir, w, a⟩ := acc
  have hc := (keepsContract_iff w a).mpr hal
  have haddr : (overlay s.ovl a).toNat = a.toNat + 0x800000 := by rw [overlay_toNat, if_pos ⟨hovl, ha⟩]
  have hrow : decodeRow s.cfg.params.map (overlay s.ovl a) = .rom :=
    decodeRow_rom _ (by omega) (by simp only at ha; omega)
  have hc' : keepsContract w (overlay s.ovl a) = true := (keepsContract_overlay w _ a).mpr hc
  have hrun : exec i s = runRow .rom ⟨dir, w, overlay s.ovl a⟩ s := by
    rw [exec_transaction hi, transact_allowed hc (checkAccess_supervisor s _ _), hrow]
    rfl
  cases dir with
  | read =>
    obtain ⟨hwidth, hbytes⟩ := readBytes_spec s (romCell s.cfg (overlay s.ovl a)) w
    refine ⟨_, hrun.trans (exec_row_read .rom s hc'), setOut_unchanged s _, rfl, rfl, nofun,
      fun _ => ⟨_, rfl, hwidth, fun k hk => ?_⟩⟩
    rw [show (rowRead .rom w (overlay s.ovl a) s).1 = s.readBytes (romCell s.cfg (overlay s.ovl a)) w from rfl,
      hbytes k hk, romCell_eq hok, haddr, Nat.add_right_comm, rom_mod_overlay hok]
    rfl
  | write v => exact ⟨_, hrun.trans (exec_row_write .rom v s hc'), setOut_unchanged s _, rfl, rfl, fun _ => rfl, nofun⟩

/-! ### Read after write in base RAM (41 §3) -/

/-- The bytes of the data assemble to the data again, in its width. -/
theorem assemble_beByte (v : BitVec 32) (w : Width) :
    assemble (fun k => beByte v.toNat (widthBytes w) k) w = truncateTo v w := by
  cases w with
  | w8 =>
    refine congrArg ReadValue.v8 (BitVec.eq_of_toNat_eq ?_)
    simp [beByte, widthBytes]
  | w16 => exact congrArg ReadValue.v16 (beByte_append_beByte v 2 0 (by norm_num))
  | w32 =>
    have hhigh := beByte_append_beByte v 4 0 (by norm_num)
    have hlow := beByte_append_beByte v 4 2 (by norm_num)
    exact congrArg ReadValue.v32 ((append_four_bytes _ _ _ _).trans
      ((congrArg₂ (· ++ ·) hhigh hlow).trans BitVec.extractLsb'_append_extractLsb'))

/-- An assembled value depends on the bytes of its width only. -/
theorem assemble_congr {f g : Nat → Byte} {w : Width} (h : ∀ k, k < widthBytes w → f k = g k) :
    assemble f w = assemble g w := by
  cases w with
  | w8 => simp only [assemble, h 0 (by decide)]
  | w16 => simp only [assemble, h 0 (by decide), h 1 (by decide)]
  | w32 => simp only [assemble, h 0 (by decide), h 1 (by decide), h 2 (by decide), h 3 (by decide)]

/-- History takes no permission away: what may be written may then be read. -/
theorem checkAccess_read_after_write {s t : State} {a : Addr} {sup : Bool} (hp : s.cfg.params = .decided)
    (hcfg : t.cfg = s.cfg) (hentry : t.mapEntry (pageOf a) = historyAfter (s.mapEntry (pageOf a)) true)
    (h : s.checkAccess a true sup = .allowed) : t.checkAccess a false sup = .allowed := by
  cases sup with
  | true => rfl
  | false =>
    obtain ⟨hlt, hpresent, hwindow, -⟩ := (checkAccess_user_allowed _ _ _).mp h
    refine (checkAccess_user_allowed _ _ _).mpr ⟨hlt, ?_, hwindow, nofun⟩
    rw [pte_decided hp, ptePresent_decided] at hpresent
    rw [pte_decided (hcfg ▸ hp), hentry, ptePresent_decided, historyAfter, if_pos hpresent]
    simp

/-- A write of base RAM that is allowed, then the same read: the value written, in its width. -/
theorem ram_read_after_write {s : State} {sup : Bool} {a : Addr} (w : Width) (v : BitVec 32)
    (hp : s.cfg.params = .decided) (hovl : s.ovl = false) (ha : a.toNat < 0x400000)
    (hv : s.checkAccess a true sup = .allowed) (hc : keepsContract w a = true)
    (hlt : ∀ k, k < widthBytes w → (s.physicalOf a).toNat + k < 0x200000 ∧ (s.physicalOf a).toNat + k < s.cfg.baseRamSize) :
    ∃ t u, transact sup ⟨.write v, w, a⟩ s = .next t ∧ transact sup ⟨.read, w, a⟩ t = .next u ∧
      u.out = readOut (truncateTo v w) false := by
  have hover : ∀ {s' : State}, s'.ovl = false → overlay s'.ovl a = a := fun h => overlay_eq_self (by simp [h])
  have hk := writeRam_keepsRest v w a s
  set t := (writeRam v w a s).setOut (writeOut false) with ht
  have hcfg : t.cfg = s.cfg := hk.cfg
  have hovl' : t.ovl = false := hk.ovl.trans hovl
  have hentry : t.mapEntry (pageOf a) = historyAfter (s.mapEntry (pageOf a)) true := (writeRam_history v w hp ha).entry
  have hphys : t.physicalOf a = s.physicalOf a := by
    simp only [State.physicalOf, State.pte, hcfg, hp, decided_pte, physical, hentry, ptePpn_historyAfter]
  have hcell : ∀ k, k < widthBytes w → ramCell s.cfg ((s.physicalOf a).toNat + k) =
      some (.base, (s.physicalOf a).toNat + k) := by
    intro k hk
    obtain ⟨hsplit, hbase⟩ := hlt k hk
    rw [ramCell, hp, decided_ramSplit, if_pos hsplit, if_pos hbase]
  have hbyte : ∀ k, k < widthBytes w → t.readCell (t.ramWindow a k) = beByte v.toNat (widthBytes w) k := by
    intro k hk
    rw [State.ramWindow, hphys, hcfg, hcell k hk]
    exact byteAt_writeRam_stored v w a s hk (hcell k hk)
  have hread : (readRam w a t).1 = truncateTo v w := (assemble_congr hbyte).trans (assemble_beByte v w)
  refine ⟨t, (readRam w a t).2.setOut (readOut (readRam w a t).1 false), ?_, ?_, by rw [hread]; rfl⟩
  · rw [transact_allowed hc (by rw [hover hovl]; exact hv), State.overlaid, hover hovl, decodeRow_ram _ ha]
    exact accessRow_write false readRam writeRam s hc
  · have hv' := checkAccess_read_after_write hp hcfg hentry hv
    rw [transact_allowed hc (by rw [hover hovl']; exact hv'), State.overlaid, hover hovl', decodeRow_ram _ ha]
    exact accessRow_read false readRam writeRam t hc

/-- Settles O20, one width at a time. -/
theorem baseRamReadAfterWriteRoundTrip : Obligations.BaseRamReadAfterWriteRoundTrip := by
  intro s sup a hp hovl ha hv
  refine ⟨fun d h1 h2 => ?_, fun d hal h1 h2 => ?_, fun d hal h1 h2 => ?_⟩
  · obtain ⟨t, u, ht, hu, hout⟩ := ram_read_after_write .w8 (0#24 ++ d) hp hovl ha hv rfl
      (fun k hk => by simp only [widthBytes] at hk; omega)
    exact ⟨t, u, ht, hu, hout.trans
      (congrArg (fun x => readOut (.v8 x) false) BitVec.extractLsb'_append_eq_right)⟩
  · obtain ⟨t, u, ht, hu, hout⟩ := ram_read_after_write .w16 (0#16 ++ d) hp hovl ha hv
      ((keepsContract_iff _ _).mpr (.inr hal)) (fun k hk => by simp only [widthBytes] at hk; omega)
    exact ⟨t, u, ht, hu, hout.trans
      (congrArg (fun x => readOut (.v16 x) false) BitVec.extractLsb'_append_eq_right)⟩
  · exact ram_read_after_write .w32 d hp hovl ha hv
      ((keepsContract_iff _ _).mpr (.inr hal)) (fun k hk => by simp only [widthBytes] at hk; omega)

end Sys2Proof.Machine

/-! Proofs about the register rows of zones A and B (42 §1 to §3): what their reads show through the lanes, what their
writes load, and the FDC window. -/

namespace Sys2Proof.Machine

/-! ### Rows that share a read or a write -/

theorem discardRows_write {r : AddrRow} (hr : r ∈ discardRows) : rowWrite r = discardWrite ∧ rowResched r = false := by
  simp only [discardRows, List.mem_cons, List.not_mem_nil, or_false] at hr
  rcases hr with rfl | rfl | rfl | rfl | rfl <;> exact ⟨rfl, rfl⟩

theorem onesRows_read {r : AddrRow} (hr : r ∈ onesRows) : rowRead r = readOnes ∧ rowResched r = false := by
  simp only [onesRows, List.mem_cons, List.not_mem_nil, or_false] at hr
  rcases hr with rfl | rfl | rfl | rfl | rfl | rfl <;> exact ⟨rfl, rfl⟩

theorem stubRows_access {r : AddrRow} (hr : r ∈ stubRows) :
    rowRead r = readStub ∧ rowWrite r = discardWrite ∧ rowResched r = false := by
  simp only [stubRows, List.mem_cons, List.not_mem_nil, or_false] at hr
  rcases hr with rfl | rfl | rfl | rfl | rfl | rfl | rfl | rfl | rfl | rfl | rfl | rfl | rfl | rfl | rfl <;>
    exact ⟨rfl, rfl, rfl⟩

/-- A write that a row discards changes nothing but the outputs. -/
theorem exec_discard {r : AddrRow} {w : Width} {a : Addr} (d : BitVec 32) (s : State)
    (hr : rowWrite r = discardWrite ∧ rowResched r = false) (hwf : wellFormed (r.instr ⟨.write d, w, a⟩) = true) :
    ∃ t, exec (r.instr ⟨.write d, w, a⟩) s = .next t ∧ t.out = writeOut false ∧ Unchanged s t := by
  obtain ⟨-, hc, -⟩ := wellFormed_row hwf
  obtain ⟨hwrite, hresched⟩ := hr
  have he := exec_row_write r d s hc
  rw [hwrite, hresched] at he
  exact ⟨_, he, rfl, setOut_unchanged s _⟩

/-- Settles O28. -/
theorem readOnlyRowsDiscardWrites : Obligations.ReadOnlyRowsDiscardWrites :=
  fun s _ d _ _ hr hwf => exec_discard d s (discardRows_write hr) hwf

/-- Settles O29. -/
theorem unmappedReadsReturnAllOnes : Obligations.UnmappedReadsReturnAllOnes := by
  intro s r w a hr hwf
  obtain ⟨-, hc, -⟩ := wellFormed_row hwf
  obtain ⟨hread, hresched⟩ := onesRows_read hr
  obtain ⟨hwidth, hones⟩ := onesOf_spec w
  have he := exec_row_read r s hc
  rw [hread, hresched] at he
  exact ⟨_, _, he, rfl, hwidth, hones, setOut_unchanged s _⟩

theorem truncateTo_hasWidth (v : BitVec 32) (w : Width) : hasWidth (truncateTo v w) w = true := by cases w <;> rfl

/-- Settles O30. -/
theorem stubRowsCompleteWithoutSideEffect : Obligations.StubRowsCompleteWithoutSideEffect := by
  intro s r w a hr
  obtain ⟨hread, hwrite, hresched⟩ := stubRows_access hr
  refine ⟨fun hwf => ?_, fun d hwf => exec_discard d s ⟨hwrite, hresched⟩ hwf⟩
  obtain ⟨-, hc, -⟩ := wellFormed_row hwf
  have he := exec_row_read r s hc
  rw [hread, hresched] at he
  exact ⟨_, _, he, rfl, truncateTo_hasWidth _ w, rfl, setOut_unchanged _ _⟩

/-! ### Fault status registers (42 R222 to R227) -/

/-- Settles O27. -/
theorem faultRegisterReadsShowTheSnapshot : Obligations.FaultRegisterReadsShowTheSnapshot := by
  intro s r x w a hr hwf
  obtain ⟨-, hc, -⟩ := wellFormed_row hwf
  obtain ⟨hwidth, hseen⟩ := laneRead_spec x w a
  have hread : (rowRead r w a s) = (laneRead x w a, s) ∧ rowResched r = false := by
    rcases hr with ⟨rfl, rfl⟩ | ⟨rfl, rfl⟩ | ⟨rfl, rfl⟩ <;> exact ⟨rfl, rfl⟩
  obtain ⟨hread, hresched⟩ := hread
  have he := exec_row_read r s hc
  rw [hread, hresched] at he
  exact ⟨_, _, he, rfl, hwidth, hseen, setOut_unchanged s _⟩

/-- Settles O31. -/
theorem clearStatusResetsAllThree : Obligations.ClearStatusResetsAllThree := by
  intro s d w a hwf
  obtain ⟨-, hc, -⟩ := wellFormed_row (r := .clrstat) hwf
  exact ⟨_, exec_row_write .clrstat d s hc, rfl, rfl, rfl, rfl,
    fun st i => (byteAt_setOut _ _ _ _).trans (byteAt_clearStatus s st i),
    ⟨rfl, rfl, rfl, rfl, rfl, rfl, rfl, rfl⟩, ⟨rfl, rfl, rfl, rfl⟩, rfl⟩

/-! ### Writes of control registers -/

/-- The parts of the state that no control register and no controller holds: bytes, fault registers, model fields. -/
structure KeepsBlock (s t : State) : Prop where
  stores : ∀ st, t.store st = s.store st
  faultRegs : SameFaultRegs s t
  model : SameModel s t

theorem KeepsBlock.memory {s t : State} (h : KeepsBlock s t) : SameMemory s t :=
  fun st i => by rw [State.byteAt, State.byteAt, h.stores]

theorem keepsBlock_of_control (s : State) (gcr dcr : BitVec 8) (led : BitVec 4) (dmaDir : Bool) (dmaCount : BitVec 14)
    (dmaEn dmaIdmarw : Bool) (dmaAddr : BitVec 22) (fdc : Fdc) (o : Outputs) :
    KeepsBlock s { s with gcr := gcr, dcr := dcr, led := led, dmaDir := dmaDir, dmaCount := dmaCount, dmaEn := dmaEn,
                          dmaIdmarw := dmaIdmarw, dmaAddr := dmaAddr, fdc := fdc, out := o } where
  stores := fun st => by cases st <;> rfl
  faultRegs := ⟨rfl, rfl, rfl⟩
  model := ⟨rfl, rfl, rfl, rfl⟩

/-! ### DMA registers (42 R228 to R232) -/

/-- The high lane of `DMACNT` after a load: `DMA_EN`, `DMA_IDMARW` and six bits of the count (42 R230). -/
theorem loadDmacnt_high (s : State) (x : LaneWrite) :
    (if (s.loadDmacnt x).dmaEn then 128 else 0) + (if (s.loadDmacnt x).dmaIdmarw then 64 else 0) +
      (s.loadDmacnt x).dmaCount.toNat / 256 = if x.high then x.d.toNat / 256 else s.dmacnt.toNat / 256 := by
  obtain ⟨d, high, low⟩ := x
  have hd := d.isLt
  have hcount := s.dmaCount.isLt
  have hreg := dmacnt_toNat s
  have hlow := (if low then d.extractLsb' 0 8 else s.dmaCount.extractLsb' 0 8).isLt
  simp only [loadDmacnt_dmaEn, loadDmacnt_dmaIdmarw, loadDmacnt_dmaCount, toNat_append_eq]
  cases high with
  | true =>
    simp only [if_true, getLsbD_eq_div, BitVec.extractLsb'_toNat, Nat.shiftRight_eq_div_pow, decide_eq_true_eq]
    split_ifs <;> omega
  | false =>
    simp only [Bool.false_eq_true, if_false, BitVec.extractLsb'_toNat, Nat.shiftRight_eq_div_pow]
    split_ifs at hreg ⊢ <;> omega

/-- The low lane of `DMACNT` after a load: the low byte of the count. -/
theorem loadDmacnt_low (s : State) (x : LaneWrite) :
    (s.loadDmacnt x).dmaCount.toNat % 256 = if x.low then x.d.toNat % 256 else s.dmacnt.toNat % 256 := by
  obtain ⟨d, high, low⟩ := x
  have hreg := dmacnt_toNat s
  simp only [loadDmacnt_dmaCount, toNat_append_eq]
  cases low with
  | true =>
    simp only [if_true, BitVec.extractLsb'_toNat, Nat.shiftRight_eq_div_pow]
    omega
  | false =>
    simp only [Bool.false_eq_true, if_false, BitVec.extractLsb'_toNat, Nat.shiftRight_eq_div_pow]
    split_ifs at hreg <;> omega

/-- The register after a write through its lanes, as a number (42 R228, R230). -/
theorem loadDmacnt_toNat (s : State) (v : BitVec 32) (w : Width) (a : Addr) :
    (s.loadDmacnt (laneWrite v w a)).dmacnt.toNat = laneLoaded s.dmacnt.toNat v w a := by
  have hhigh := loadDmacnt_high s (laneWrite v w a)
  have hlow := loadDmacnt_low s (laneWrite v w a)
  have hhigh' : (if drivesHigh w a then (laneWrite v w a).d.toNat / 256 else s.dmacnt.toNat / 256) =
      if drivesHigh w a then highByte v w else s.dmacnt.toNat / 256 := by
    split
    · next h => exact laneWrite_highByte v w a h
    · rfl
  have hlow' : (if drivesLow w a then (laneWrite v w a).d.toNat % 256 else s.dmacnt.toNat % 256) =
      if drivesLow w a then lowByte v else s.dmacnt.toNat % 256 := by
    split
    · next h => exact laneWrite_lowByte v w a h
    · rfl
  rw [laneWrite_high, hhigh'] at hhigh
  rw [laneWrite_low, hlow'] at hlow
  rw [dmacnt_toNat, laneLoaded, ← hhigh, ← hlow]
  split_ifs <;> omega

/-- The three fields of `DMACNT` from its number (42 R230). -/
theorem dmacnt_fields (s : State) : s.dmaEn = decide (s.dmacnt.toNat / 32768 % 2 = 1) ∧
    s.dmaIdmarw = decide (s.dmacnt.toNat / 16384 % 2 = 1) ∧ s.dmaCount.toNat = s.dmacnt.toNat % 16384 := by
  have hcount := s.dmaCount.isLt
  have hreg := dmacnt_toNat s
  refine ⟨?_, ?_, ?_⟩
  · cases hen : s.dmaEn <;> rw [hen] at hreg <;> simp only [Bool.false_eq_true, if_true, if_false] at hreg
    · exact (decide_eq_false (by split_ifs at hreg <;> omega)).symm
    · exact (decide_eq_true (by split_ifs at hreg <;> omega)).symm
  · cases hidm : s.dmaIdmarw <;> rw [hidm] at hreg <;> simp only [Bool.false_eq_true, if_true, if_false] at hreg
    · exact (decide_eq_false (by split_ifs at hreg <;> omega)).symm
    · exact (decide_eq_true (by split_ifs at hreg <;> omega)).symm
  · split_ifs at hreg <;> omega

/-- Settles O32: the register is loaded lane by lane, then the dummy cycle moves the count. -/
theorem dmaCountRowLoadsAndRunsTheDummyCycle : Obligations.DmaCountRowLoadsAndRunsTheDummyCycle := by
  intro s w a hp r
  have hr : s.dmacnt.toNat = r := dmacnt_toNat s
  refine ⟨fun hwf => ?_, fun d hwf => ?_⟩
  · obtain ⟨-, hc, -⟩ := wellFormed_row (r := .dmacnt) hwf
    obtain ⟨hwidth, hseen⟩ := laneRead_spec s.dmacnt w a
    exact ⟨_, _, exec_row_read .dmacnt s hc, rfl, hwidth, hr ▸ hseen, setOut_unchanged s _⟩
  · obtain ⟨-, hc, -⟩ := wellFormed_row (r := .dmacnt) hwf
    obtain ⟨hen, hidm, hcount⟩ := dmacnt_fields (s.loadDmacnt (laneWrite d w a))
    have hdummy := dummyCycle_decided (s := s.loadDmacnt (laneWrite d w a)) hp
    rw [loadDmacnt_toNat, hr] at hen hidm hcount
    have hk := keepsBlock_of_control s s.gcr s.dcr s.led s.dmaDir (s.loadDmacnt (laneWrite d w a)).dummyCycle.dmaCount
      (s.loadDmacnt (laneWrite d w a)).dmaEn (s.loadDmacnt (laneWrite d w a)).dmaIdmarw s.dmaAddr s.fdc (writeOut false)
    refine ⟨_, exec_row_write .dmacnt d s hc, rfl, hen, hidm, ?_, rfl, rfl, rfl, rfl, rfl, hk.memory, hk.faultRegs,
      hk.model, rfl⟩
    show (s.loadDmacnt (laneWrite d w a)).dummyCycle.dmaCount.toNat = _
    rw [hdummy, loadDmacnt_dmaDir]
    split_ifs
    · rw [hcount, Nat.add_zero]
    · rw [BitVec.toNat_add, hcount]
      simp only [BitVec.toNat_ofNat]
      omega

/-- Settles O33. -/
theorem miscControlWriteLoadsDirectionAndLeds : Obligations.MiscControlWriteLoadsDirectionAndLeds := by
  intro s d w a hwf
  obtain ⟨-, hc, -⟩ := wellFormed_row (r := .mcr) hwf
  have he := exec_row_write .mcr d s hc
  simp only [rowWrite, writeMcr, laneWrite_high] at he
  have hx := (laneWrite d w a).d.isLt
  by_cases hh : drivesHigh w a = true
  · have hbyte := laneWrite_highByte d w a hh
    rw [if_pos hh] at he
    have hk := keepsBlock_of_control s s.gcr s.dcr ((laneWrite d w a).d.extractLsb' 8 4) ((laneWrite d w a).d.getLsbD 14)
      s.dmaCount s.dmaEn s.dmaIdmarw s.dmaAddr s.fdc (writeOut false)
    refine ⟨_, he, rfl, ?_, ?_, rfl, rfl, rfl, rfl, rfl, rfl, hk.memory, hk.faultRegs, hk.model, rfl⟩
    · show (laneWrite d w a).d.getLsbD 14 = _
      rw [if_pos hh, getLsbD_eq_div, decide_eq_decide, ← hbyte]
      omega
    · show ((laneWrite d w a).d.extractLsb' 8 4).toNat = _
      rw [if_pos hh, BitVec.extractLsb'_toNat, Nat.shiftRight_eq_div_pow, ← hbyte]
  · rw [if_neg hh] at he
    obtain ⟨⟨hmem, hregs, -, hmodel⟩, hfdc⟩ := setOut_unchanged s (writeOut false)
    exact ⟨_, he, rfl, (if_neg hh).symm, (if_neg hh).symm, rfl, rfl, rfl, rfl, rfl, rfl, hmem, hregs, hmodel, hfdc⟩

/-- The DMA address after a write of its row, as a number (42 R231). -/
theorem writeDmaadr_toNat (v : BitVec 32) (w : Width) (a : Addr) (s : State) :
    (writeDmaadr v w a s).dmaAddr.toNat =
      if a.toNat / 16384 % 2 = 1 then a.toNat / 2 % 8192 * 512 + s.dmaAddr.toNat % 512 / 2 * 2
      else s.dmaAddr.toNat / 512 * 512 + a.toNat / 2 % 256 * 2 := by
  have hdma := s.dmaAddr.isLt
  have hbit : a.getLsbD 14 = true ↔ a.toNat / 16384 % 2 = 1 := by
    simp only [getLsbD_eq_div, decide_eq_true_eq, Nat.reducePow]
  have hhigh : (a.extractLsb' 1 13 ++ s.dmaAddr.extractLsb' 1 8 ++ 0#1).toNat =
      a.toNat / 2 % 8192 * 512 + s.dmaAddr.toNat % 512 / 2 * 2 := by
    simp only [toNat_append_eq, BitVec.extractLsb'_toNat, Nat.shiftRight_eq_div_pow, BitVec.toNat_ofNat]
    omega
  have hlow : (s.dmaAddr.extractLsb' 9 13 ++ a.extractLsb' 1 8 ++ 0#1).toNat =
      s.dmaAddr.toNat / 512 * 512 + a.toNat / 2 % 256 * 2 := by
    simp only [toNat_append_eq, BitVec.extractLsb'_toNat, Nat.shiftRight_eq_div_pow, BitVec.toNat_ofNat]
    omega
  unfold writeDmaadr
  by_cases h : a.toNat / 16384 % 2 = 1
  · rw [if_pos (hbit.mpr h), if_pos h]
    exact hhigh
  · rw [if_neg (mt hbit.mp h), if_neg h]
    exact hlow

/-- Settles O34. -/
theorem dmaAddressWriteLoadsAHalfFromTheAddress : Obligations.DmaAddressWriteLoadsAHalfFromTheAddress := by
  intro s d w a hwf
  obtain ⟨-, hc, -⟩ := wellFormed_row (r := .dmaadr) hwf
  have hrest : writeDmaadr d w a s = { s with dmaAddr := (writeDmaadr d w a s).dmaAddr } := by
    unfold writeDmaadr
    split <;> rfl
  have he := exec_row_write .dmaadr d s hc
  rw [show rowWrite .dmaadr d w a s = { s with dmaAddr := (writeDmaadr d w a s).dmaAddr } from hrest] at he
  have hk := keepsBlock_of_control s s.gcr s.dcr s.led s.dmaDir s.dmaCount s.dmaEn s.dmaIdmarw
    (writeDmaadr d w a s).dmaAddr s.fdc (writeOut false)
  exact ⟨_, he, rfl, writeDmaadr_toNat d w a s, rfl, rfl, rfl, rfl, rfl, rfl, rfl, hk.memory, hk.faultRegs, hk.model, rfl⟩

/-! ### Disc control and general control (42 R233, R234, R237 to R239) -/

/-- Settles O35. -/
theorem discControlWriteResetsTheFdc : Obligations.DiscControlWriteResetsTheFdc := by
  intro s d w a hp hwf
  obtain ⟨-, hc, -⟩ := wellFormed_row (r := .dcr) hwf
  have he := exec_row_write .dcr d s hc
  simp only [rowWrite, writeDcr, laneWrite_low] at he
  by_cases hl : drivesLow w a = true
  · have hbyte := laneWrite_lowByte d w a hl
    have hdcr : ((laneWrite d w a).d.extractLsb' 0 8).toNat = lowByte d := by
      rw [BitVec.extractLsb'_toNat, Nat.shiftRight_zero, ← hbyte]
    have hbit : (laneWrite d w a).d.getLsbD 7 = true ↔ 128 ≤ lowByte d := by
      rw [getLsbD_eq_div, decide_eq_true_eq]
      omega
    rw [if_pos hl] at he
    by_cases h7 : 128 ≤ lowByte d
    · rw [if_pos (hbit.mpr h7)] at he
      have hk := keepsBlock_of_control s s.gcr ((laneWrite d w a).d.extractLsb' 0 8) s.led s.dmaDir s.dmaCount s.dmaEn
        s.dmaIdmarw s.dmaAddr s.fdc (writeOut false)
      exact ⟨_, he, rfl, hk.memory, hk.faultRegs, hk.model, rfl, rfl, rfl, rfl, rfl, rfl, rfl,
        hdcr.trans (if_pos hl).symm, fun _ => rfl, fun _ h => absurd h (not_lt.mpr h7)⟩
    · rw [if_neg (mt hbit.mp h7)] at he
      have hk := keepsBlock_of_control s s.gcr ((laneWrite d w a).d.extractLsb' 0 8) s.led s.dmaDir s.dmaCount s.dmaEn
        s.dmaIdmarw s.dmaAddr (s.fdc.resetPosition s.cfg.params.fdc) (writeOut false)
      exact ⟨_, he, rfl, hk.memory, hk.faultRegs, hk.model, rfl, rfl, rfl, rfl, rfl, rfl, rfl,
        hdcr.trans (if_pos hl).symm, fun h => absurd h (by simp [hl, h7]),
        fun _ _ => ⟨rfl, rfl, rfl, rfl, rfl, rfl, rfl, rfl, by rw [setOut_fdc, setFdc_fdc, resetPosition_lastStepDir, hp]; rfl,
          ⟨rfl, rfl, rfl, rfl⟩, ⟨rfl, rfl, rfl, rfl⟩, ⟨rfl, rfl, rfl⟩⟩⟩
  · rw [if_neg hl] at he
    obtain ⟨⟨hmem, hregs, -, hmodel⟩, hfdc⟩ := setOut_unchanged s (writeOut false)
    exact ⟨_, he, rfl, hmem, hregs, hmodel, rfl, rfl, rfl, rfl, rfl, rfl, rfl, (if_neg hl).symm, fun _ => hfdc,
      fun h => absurd h hl⟩

/-- Settles O36. -/
theorem generalControlWriteSetsOneToggle : Obligations.GeneralControlWriteSetsOneToggle := by
  intro s d w a hwf
  obtain ⟨-, hc, -⟩ := wellFormed_row (r := .gcr) hwf
  have he := exec_row_write .gcr d s hc
  simp only [rowWrite, writeGcr, laneWrite_high] at he
  have hx := (laneWrite d w a).d.isLt
  by_cases hh : drivesHigh w a = true
  · have hbyte := laneWrite_highByte d w a hh
    have hsel : (gselOf a).toNat = a.toNat / 4096 % 8 := by
      rw [gselOf, BitVec.extractLsb'_toNat, Nat.shiftRight_eq_div_pow]
    have hbit : (laneWrite d w a).d.getLsbD 15 = decide (128 ≤ highByte d w) := by
      rw [getLsbD_eq_div, decide_eq_decide, ← hbyte]
      omega
    rw [if_pos hh] at he
    have hk := keepsBlock_of_control s (setToggle s.gcr (gselOf a) ((laneWrite d w a).d.getLsbD 15)) s.dcr s.led s.dmaDir
      s.dmaCount s.dmaEn s.dmaIdmarw s.dmaAddr s.fdc (writeOut false)
    refine ⟨_, he, rfl, fun k hk' => ?_, rfl, rfl, rfl, rfl, rfl, rfl, rfl, rfl, rfl, hk.memory, hk.faultRegs, hk.model, rfl⟩
    refine (setToggle_getLsbD s.gcr (gselOf a) _ k hk').trans ?_
    simp only [hsel, hbit, hh, true_and]
  · rw [if_neg hh] at he
    obtain ⟨⟨hmem, hregs, -, hmodel⟩, hfdc⟩ := setOut_unchanged s (writeOut false)
    exact ⟨_, he, rfl, fun k _ => (if_neg fun h => hh h.1).symm, rfl, rfl, rfl, rfl, rfl, rfl, rfl, rfl, rfl, hmem, hregs,
      hmodel, hfdc⟩

/-! ### The FDC window (42 R240, R241) -/

/-- The two words of an FDC register run its read and its write (30 R139). -/
theorem exec_decodeFdcReg (f : BitVec 2) (b : Byte) (s : State) :
    exec (decodeFdcReg (0#1 ++ f) b) s = fdcReadOp (fun g => g.readReg s.cfg.params.fdc f) s ∧
      exec (decodeFdcReg (1#1 ++ f) b) s = fdcWriteOp (fun g => g.writeReg s.cfg f b) s := by
  have hf : ∀ f : BitVec 2, f = 0#2 ∨ f = 1#2 ∨ f = 2#2 ∨ f = 3#2 := by decide
  rcases hf f with rfl | rfl | rfl | rfl <;> exact ⟨rfl, rfl⟩

theorem widenByte_spec (v : Byte) (w : Width) : hasWidth (widenByte v w) w = true ∧ valueNat (widenByte v w) = v.toNat := by
  cases w with
  | w8 => exact ⟨rfl, rfl⟩
  | w16 => exact ⟨rfl, by simp only [widenByte, valueNat]; rw [toNat_append_eq]; simp⟩
  | w32 => exact ⟨rfl, by simp only [widenByte, valueNat]; rw [toNat_append_eq]; simp⟩

/-- Settles O37. -/
theorem fdcWindowIsOneRegisterAccess : Obligations.FdcWindowIsOneRegisterAccess := by
  intro s w a
  refine ⟨fun hwf => ?_, fun d hwf => ?_⟩
  · obtain ⟨-, hc, -⟩ := wellFormed_row (r := .fdcwin) hwf
    obtain ⟨hread, -⟩ := exec_decodeFdcReg (fregOf a) 0#8 s
    obtain ⟨hwidth, hvalue⟩ := widenByte_spec (s.fdc.readReg s.cfg.params.fdc (fregOf a)).1 w
    exact ⟨_, _, _, _, exec_row_read .fdcwin s hc, hread, rfl, rfl, hwidth, hvalue, rfl⟩
  · obtain ⟨-, hc, -⟩ := wellFormed_row (r := .fdcwin) hwf
    obtain ⟨-, hwrite⟩ := exec_decodeFdcReg (fregOf a) (d.extractLsb' 0 8) s
    exact ⟨_, exec_row_write .fdcwin d s hc, hwrite, rfl⟩

end Sys2Proof.Machine

/-! Proofs about the FDC registers and the signals (43 §2, §4; 45; 70 §1): the status and data registers, the write of the
command register, RESET, DMA_MISS, and the load and unload of an image. -/

namespace Sys2Proof.Machine

/-! ### Operations of the controller alone -/

/-- An operation of the controller alone changes nothing else but the outputs (43 R260, R261). -/
theorem setFdc_onlyFdc (s : State) (f : Fdc) (o : Outputs) : OnlyFdcDiffers s ((s.setFdc f).setOut o) where
  memory := fun st i => by rw [byteAt_setOut, byteAt_setFdc]
  faultRegs := ⟨rfl, rfl, rfl⟩
  control := ⟨rfl, rfl, rfl, rfl, rfl, rfl, rfl, rfl⟩
  model := ⟨rfl, rfl, rfl, rfl⟩

/-! ### The status register (43 R263, R264) -/

/-- After a DRQ-capable command the two low bits are live (D27); a fact about bytes, by evaluation. -/
theorem statusValue_capable :
    ∀ (x : Byte) (live : Bool), (statusValue .decided x true live).toNat = x.toNat / 4 * 4 + 3 * live.toNat := by decide

/-- After any other command bit 0 is live (D27). -/
theorem statusValue_notCapable :
    ∀ (x : Byte) (live : Bool), (statusValue .decided x false live).toNat = x.toNat / 2 * 2 + live.toNat := by decide

/-- Settles O38. -/
theorem statusReadComposesAndClearsIrq : Obligations.StatusReadComposesAndClearsIrq := by
  intro s hp
  refine ⟨_, _, rfl, rfl, ?_, rfl, setFdc_onlyFdc s _ _⟩
  have hlive : (if s.fdc.cur < s.fdc.len then 1 else 0) = s.fdc.drq.toNat := by
    by_cases h : s.fdc.cur < s.fdc.len <;> simp [Fdc.drq, h]
  show (statusValue s.cfg.params.fdc.status s.fdc.status s.fdc.drqCapable s.fdc.drq).toNat = _
  rw [fdcParams_decided hp, decided_status]
  dsimp only
  rw [hlive]
  cases s.fdc.drqCapable with
  | true => rw [statusValue_capable, if_pos rfl]
  | false => rw [statusValue_notCapable, if_neg (by decide)]

/-! ### The data register (43 R266, R268) -/

/-- A data read of an open transfer: what moves is the cursor, the IRQ and the draw counter. -/
theorem rdData_open {f : Fdc} (h : f.cur < f.len) : f.rdData.2 =
    { f with cur := f.cur + 1, irq := f.irq || decide (f.cur + 1 = f.len), draws := f.readAtCursor.2.draws } := by
  unfold Fdc.rdData Fdc.readAtCursor
  rw [if_pos h]
  split <;> rfl

/-- Within the capacity of the buffer a data read takes the byte at the cursor (43 R266 case a). -/
theorem readAtCursor_within {f : Fdc} (h : f.cur < f.bufCap) : f.readAtCursor = (f.bufByte f.cur, f) := if_pos h

/-- With no transfer open a data read returns the register and changes nothing (43 R266 case c). -/
theorem rdData_closed {f : Fdc} (h : f.len ≤ f.cur) : f.rdData = (f.dataReg, f) := if_neg (not_lt.mpr h)

/-- Settles O41. -/
theorem dataReadTakesTheByteAtTheCursor : Obligations.DataReadTakesTheByteAtTheCursor := by
  intro s
  refine ⟨fun h => ?_, fun h => ?_⟩
  · have he : exec .fdcRdData s =
        .next ((s.setFdc s.fdc.rdData.2).setOut (readOut (.v8 s.fdc.readAtCursor.1) true)) := by
      show fdcReadOp Fdc.rdData s = _
      rw [fdcReadOp, show s.fdc.rdData.1 = s.fdc.readAtCursor.1 by rw [Fdc.rdData, if_pos h]]
    rw [rdData_open h] at he
    refine ⟨_, _, he, rfl, fun hcap => ?_, rfl, rfl, rfl, rfl, rfl, rfl, rfl, rfl, rfl, ⟨rfl, rfl, rfl, rfl, rfl, rfl⟩,
      ⟨rfl, rfl, rfl, rfl⟩, setFdc_onlyFdc s _ _⟩
    rw [readAtCursor_within hcap]
    exact ⟨rfl, rfl⟩
  · have he : exec .fdcRdData s = .next ((s.setFdc s.fdc).setOut (readOut (.v8 s.fdc.dataReg) true)) := by
      show fdcReadOp Fdc.rdData s = _
      rw [fdcReadOp, rdData_closed h]
    exact ⟨_, he, rfl, setFdc_onlyFdc s _ _, rfl⟩

/-- A write transfer or a format transfer is open (43 R268). -/
def Fdc.accepts (f : Fdc) : Prop := f.cur < f.len ∧ (f.wpos ≠ none ∨ f.formatting = true)

theorem accepts_iff (f : Fdc) : f.accepts ↔ f.cur < f.len ∧ (f.wpos.isSome = true ∨ f.formatting = true) := by
  rw [Fdc.accepts, ne_eq, ← Option.not_isSome_iff_eq_none, not_not]

/-- A data write with no write or format transfer open latches the byte. -/
theorem wrData_latch {f : Fdc} (b : Byte) (h : ¬f.accepts) : f.wrData b = { f with dataReg := b } :=
  if_neg (mt (accepts_iff f).mpr h)

/-- A data write before the last byte: the byte is latched and stored, unless formatting, and the cursor advances. -/
theorem wrData_more {f : Fdc} (b : Byte) (h : f.accepts) (hne : f.cur + 1 ≠ f.len) : f.wrData b =
    { f with dataReg := b, buf := if f.formatting then f.buf else memSet f.buf f.cur b, cur := f.cur + 1 } := by
  rw [Fdc.wrData, if_pos ((accepts_iff f).mp h), if_neg hne]
  rfl

theorem flush_eq (f : Fdc) : f.flush = { f with image := f.flush.image } := by
  unfold Fdc.flush
  split <;> rfl

/-- The image after the last byte of a write or format transfer (43 R268). -/
def Fdc.flushed (f : Fdc) (b : Byte) : Option (List Byte) :=
  if f.formatting then f.image else (({ f with dataReg := b } : Fdc).acceptByte b).flush.image

/-- A data write of the last byte: the image is flushed, the IRQ raised, the transfer closed. -/
theorem wrData_last {f : Fdc} (b : Byte) (h : f.accepts) (heq : f.cur + 1 = f.len) : f.wrData b =
    { f with dataReg := b, buf := if f.formatting then f.buf else memSet f.buf f.cur b, image := f.flushed b, irq := true
             cur := 0, len := 0, wpos := none, formatting := false } := by
  rw [Fdc.wrData, if_pos ((accepts_iff f).mp h), if_pos heq, Fdc.finishWrite, Fdc.flushed,
    show (({ f with dataReg := b } : Fdc).acceptByte b).formatting = f.formatting from rfl]
  by_cases hfmt : f.formatting = true
  · rw [if_pos hfmt, if_pos hfmt]
    rfl
  · rw [if_neg hfmt, if_neg hfmt, flush_eq]
    rfl

/-- A position of the buffer after a data write of an open transfer (43 R268). -/
def Fdc.accepted (f : Fdc) (b : Byte) (p : Nat) : Byte := if f.formatting = false ∧ p = f.cur then b else f.bufByte p

theorem bufByte_accepted (f : Fdc) (b : Byte) (p : Nat) :
    (memGet (if f.formatting then f.buf else memSet f.buf f.cur b) p).getD (Config.bufferByte f.bufGen p) =
      f.accepted b p := by
  unfold Fdc.accepted
  cases f.formatting with
  | true => rw [if_pos rfl, if_neg fun h => nomatch h.1]; rfl
  | false =>
    rw [if_neg (by decide), memGet_memSet]
    by_cases hp : p = f.cur
    · rw [if_pos hp, if_pos ⟨rfl, hp⟩]; rfl
    · rw [if_neg hp, if_neg fun h => hp h.2]; rfl

theorem flush_image {f : Fdc} {off : Nat} (h : f.wpos = some off) :
    f.flush.image = f.image.map fun img => imgWrite img off ((List.range f.len).map f.bufByte) := by
  simp only [Fdc.flush, h]

/-- The image after the flush of a write transfer (43 R268). -/
theorem flushed_write {f : Fdc} {off : Nat} {img : List Byte} (b : Byte) (hfmt : f.formatting = false)
    (hwpos : f.wpos = some off) (himg : f.image = some img) :
    f.flushed b = some (imgWrite img off ((List.range f.len).map (f.accepted b))) := by
  have hbuf : (({ f with dataReg := b } : Fdc).acceptByte b).bufByte = f.accepted b := funext (bufByte_accepted f b)
  have hflush := flush_image (f := ({ f with dataReg := b } : Fdc).acceptByte b) hwpos
  rw [Fdc.flushed, if_neg (by rw [hfmt]; decide), hflush, hbuf]
  exact congrArg (Option.map _) himg

/-- The bytes of an image after a write of the first `n` bytes of a buffer (45 R332). -/
theorem imgWrite_range_get (img : List Byte) (off n : Nat) (byte : Nat → Byte) {k : Nat} (hk : k < img.length) :
    (imgWrite img off ((List.range n).map byte))[k]? =
      if off ≤ k ∧ k < off + n then some (byte (k - off)) else img[k]? := by
  rw [imgWrite_get img off _ k hk, List.length_map, List.length_range]
  split
  · next h => rw [List.getElem?_map, List.getElem?_range (by omega)]; rfl
  · rfl

/-- Settles O42, by the three cases of a data write. -/
theorem dataWriteLatchesStoresAndFlushes : Obligations.DataWriteLatchesStoresAndFlushes := by
  intro s b
  have he : exec (.fdcWrData b) s = .next ((s.setFdc (s.fdc.wrData b)).setOut (writeOut true)) := rfl
  have honly := setFdc_onlyFdc s (s.fdc.wrData b) (writeOut true)
  by_cases hacc : s.fdc.accepts
  · obtain ⟨hlt, hopen⟩ := hacc
    by_cases hlast : s.fdc.cur + 1 = s.fdc.len
    · rw [wrData_last b ⟨hlt, hopen⟩ hlast] at he honly
      refine ⟨_, he, rfl, honly, fun h => absurd ⟨hlt, hopen⟩ h, fun _ _ => ⟨rfl, rfl, rfl, rfl, rfl, rfl, rfl, rfl, rfl, rfl,
        rfl, rfl, rfl, bufByte_accepted s.fdc b, fun h => absurd hlast (by omega), fun _ => ⟨⟨rfl, rfl, rfl, rfl⟩, rfl,
          fun hfmt => if_pos hfmt, fun off img hfmt hwpos himg => ⟨_, flushed_write b hfmt hwpos himg, imgWrite_length _ _ _,
            fun k hk => ?_⟩⟩⟩⟩
      rw [imgWrite_range_get img off _ _ hk, ← bufByte_accepted]
      rfl
    · rw [wrData_more b ⟨hlt, hopen⟩ hlast] at he honly
      exact ⟨_, he, rfl, honly, fun h => absurd ⟨hlt, hopen⟩ h, fun _ _ => ⟨rfl, rfl, rfl, rfl, rfl, rfl, rfl, rfl, rfl, rfl,
        rfl, rfl, rfl, bufByte_accepted s.fdc b, fun _ => ⟨rfl, rfl, rfl, rfl, rfl, rfl⟩, fun h => absurd h hlast⟩⟩
  · rw [wrData_latch b hacc] at he honly
    exact ⟨_, he, rfl, honly, fun _ => rfl, fun h1 h2 => absurd ⟨h1, h2⟩ hacc⟩

/-! ### The command register (43 R265, 44 R290) -/

/-- Settles O45: the write of a command byte and the command it names are the same write of the controller. -/
theorem commandWriteRunsTheNamedCommand : Obligations.CommandWriteRunsTheNamedCommand :=
  fun s _ => ⟨_, rfl, rfl, setFdc_onlyFdc s _ _, exec_cmd _ _ s⟩

/-- A command starts by clearing the IRQ, so it does not see whether it was pending (44 R290). -/
theorem command_irq (body : Fdc → Fdc) (f : Fdc) (p : Bool) : Fdc.command body { f with irq := p } = Fdc.command body f := rfl

/-- Settles O46. -/
theorem commandClearsIrqAndWithoutImageReportsNotReady : Obligations.CommandClearsIrqAndWithoutImageReportsNotReady := by
  intro s c lo
  refine ⟨fun hnone => ?_, fun p => ?_⟩
  · exact ⟨_, exec_cmd c lo s, rfl, command_noImage _ _ hnone, setFdc_onlyFdc s _ _⟩
  · rw [exec_cmd, exec_cmd, fdcWriteOp, command_irq]
    rfl

/-! ### RESET and DMA_MISS (70 R390, 43 R273) -/

/-- Settles O57. -/
theorem resetSignalRestoresTheRegisters : Obligations.ResetSignalRestoresTheRegisters := by
  intro s hp
  have hgcr : s.powerOnReset.gcr = 0x08#8 := by rw [powerOnReset_gcr, hp]; rfl
  have hdir : (s.fdc.resetPosition s.cfg.params.fdc).lastStepDir = .outward := by rw [resetPosition_lastStepDir, hp]; rfl
  refine ⟨_, rfl, rfl, rfl, rfl, rfl, fun k hk => ?_, ?_, ?_, rfl, rfl, rfl, rfl, rfl, rfl, rfl, rfl, rfl, rfl, rfl, rfl, rfl,
    rfl, rfl, hdir, ⟨rfl, rfl, rfl, rfl⟩, ⟨rfl, rfl, rfl, rfl⟩, ⟨rfl, rfl, rfl⟩, fun st i => ?_, ⟨rfl, rfl, rfl, rfl⟩⟩
  · rw [setOut_gcr, hgcr]
    revert k
    decide
  · rw [State.ovl, setOut_gcr, hgcr]
    rfl
  · rw [State.pie, setOut_gcr, hgcr]
    rfl
  · rw [byteAt_setOut, byteAt_powerOnReset]

/-- Settles O58. -/
theorem dmaMissClosesWithLostData : Obligations.DmaMissClosesWithLostData := by
  intro s hp
  have hstatus : (s.fdc.dmaMiss s.cfg.params.fdc).status = 0x04#8 := by rw [dmaMiss_status, hp]; rfl
  exact ⟨_, rfl, rfl, ⟨rfl, rfl, rfl, rfl⟩, hstatus, rfl, rfl, ⟨rfl, rfl, rfl, rfl, rfl, rfl⟩, ⟨rfl, rfl, rfl, rfl⟩,
    ⟨rfl, rfl, rfl⟩, setFdc_onlyFdc s _ _⟩

/-! ### Loading and unloading an image (45 R333, R335) -/

theorem unload_none {f : Fdc} (h : f.image = none) : f.unload = f := by simp only [Fdc.unload, h]

theorem unload_some {f : Fdc} (h : f.image ≠ none) : f.unload =
    { f.close with image := none, writable := false, geom := ⟨0, 0, 0, 0⟩, buf := [], bufCap := 0 } := by
  unfold Fdc.unload
  split
  · next h' => exact absurd h' h
  · rfl

/-- What an unload keeps: position, registers, status, IRQ, and the model's counters (45 R335). -/
theorem unload_keeps (f : Fdc) : SamePosition f f.unload ∧ f.unload.status = f.status ∧ f.unload.irq = f.irq ∧
    f.unload.drqCapable = f.drqCapable ∧ f.unload.draws = f.draws := by
  by_cases h : f.image = none
  · rw [unload_none h]
    exact ⟨⟨rfl, rfl, rfl, rfl, rfl, rfl⟩, rfl, rfl, rfl, rfl⟩
  · rw [unload_some h]
    exact ⟨⟨rfl, rfl, rfl, rfl, rfl, rfl⟩, rfl, rfl, rfl, rfl⟩

/-- What an unload drops: the disc, and the transfer if there was one (45 R335). -/
theorem unload_drops (f : Fdc) : f.unload.image = none ∧ (f.image ≠ none →
    f.unload.geom = ⟨0, 0, 0, 0⟩ ∧ f.unload.writable = false ∧ f.unload.bufCap = 0 ∧ f.unload.buf = [] ∧
      TransferClosed f.unload) := by
  by_cases h : f.image = none
  · rw [unload_none h]
    exact ⟨h, absurd h⟩
  · rw [unload_some h]
    exact ⟨rfl, fun _ => ⟨rfl, rfl, rfl, rfl, ⟨rfl, rfl, rfl, rfl⟩⟩⟩

/-- Settles O60. -/
theorem imageUnloadDropsTheDisc : Obligations.ImageUnloadDropsTheDisc := by
  intro s
  obtain ⟨hpos, hstatus, hirq, hcap, -⟩ := unload_keeps s.fdc
  obtain ⟨hnone, hdrops⟩ := unload_drops s.fdc
  exact ⟨_, rfl, rfl, hnone, hdrops, unload_none, hpos, hstatus, hirq, hcap, setFdc_onlyFdc s _ _⟩

theorem load_good {f : Fdc} {a : LoadArgs} (h : goodGeometry a = true) : f.load a = (.ok, { f.unload with
    image := some a.bytes, writable := a.writable
    geom := ⟨a.secsz, a.spt, a.heads, a.bytes.length / (a.secsz * a.spt * a.heads)⟩
    buf := [], bufCap := max (a.secsz * a.spt) 6, bufGen := f.unload.draws, draws := f.unload.draws + 1 }) := if_pos h

theorem load_bad {f : Fdc} {a : LoadArgs} (h : ¬goodGeometry a = true) : f.load a = (.badGeometry, f.unload) := if_neg h

theorem exec_imgLoad {s : State} {r : LoadResult} {f : Fdc} (h : s.fdc.load s.args = (r, f)) : exec .imgLoad s =
    .next ((s.setFdc f).setOut { value := none, buserr := false, resched := false, load := some r }) := by
  show execImgLoad s = _
  rw [execImgLoad, h]

/-- Settles O59: the image is unloaded, and replaced when it fits its geometry. -/
theorem imageLoadChecksTheGeometry : Obligations.ImageLoadChecksTheGeometry := by
  intro s a cyl
  obtain ⟨hpos, hstatus, hirq, hcap, hdraws⟩ := unload_keeps s.fdc
  obtain ⟨hnone, hdrops⟩ := unload_drops s.fdc
  refine ⟨fun hcyl hbytes hmod => ?_, fun hbad => ?_⟩
  · have hgood : goodGeometry s.args = true := (goodGeometry_iff s.args).mpr ⟨hcyl, hbytes, hmod⟩
    refine ⟨_, exec_imgLoad (load_good hgood), rfl, rfl, rfl, rfl, rfl, fun p => ?_, ?_,
      ⟨hpos.track, hpos.head, hpos.trackReg, hpos.sectorReg, hpos.dataReg, hpos.lastStepDir⟩, hstatus, hirq, hcap,
      fun h => ?_, fun h => ?_, setFdc_onlyFdc s _ _⟩
    · show Config.bufferByte s.fdc.unload.draws p = _
      rw [hdraws]
    · show s.fdc.unload.draws + 1 = _
      rw [hdraws]
    · obtain ⟨-, -, -, -, hclosed⟩ := hdrops h
      exact ⟨hclosed.cur, hclosed.len, hclosed.wpos, hclosed.formatting⟩
    · rw [unload_none h]
      exact ⟨rfl, rfl, rfl, rfl⟩
  · have hnot : ¬goodGeometry s.args = true := by
      rw [goodGeometry_iff]
      rintro ⟨hcyl, hbytes, hmod⟩
      rcases hbad with h | h | h
      · exact hcyl h
      · exact hbytes h
      · exact h hmod
    exact ⟨_, exec_imgLoad (load_bad hnot), rfl, hnone, unload_none, hdrops, hpos, hstatus, hirq, hcap,
      setFdc_onlyFdc s _ _⟩

end Sys2Proof.Machine

/-! Proofs about the sixteen FDC commands (44 §2, §3), with an image in the drive. -/

namespace Sys2Proof.Machine

/-! ### Commands with an image in the drive -/

/-- With an image a command runs its body, the pending IRQ cleared (44 R290). -/
theorem exec_cmd_image (c : FdcCmd) (lo : BitVec 4) {s : State} (h : s.fdc.image ≠ none) : exec (c.instr lo) s =
    .next ((s.setFdc (commandBody s.cfg c lo s.fdc.clearIrq)).setOut (writeOut true)) := by
  rw [exec_cmd, fdcWriteOp, command_image _ _ h]

/-- The same, where the controller after the body is known. -/
theorem exec_cmd_body {c : FdcCmd} {lo : BitVec 4} {s : State} {g : Fdc} (h : s.fdc.image ≠ none)
    (hg : commandBody s.cfg c lo s.fdc.clearIrq = g) : exec (c.instr lo) s = .next ((s.setFdc g).setOut (writeOut true)) := by
  rw [exec_cmd_image c lo h, hg]

/-! ### Class 1 commands (44 R292 to R300) -/

/-- The status of a Class 1 completion, at the decided bits (44 R302). -/
theorem class1Status_decided {s : State} (hp : s.cfg.params = .decided) (track : Nat) (e : Bool) :
    (class1Status s.cfg.params.fdc.status track e).toNat =
      0x20 + (if track = 0 then 0x04 else 0) + (if e then 0x10 else 0) := by
  rw [fdcParams_decided hp, decided_status, class1Status_toNat]

/-- Settles O47. -/
theorem restoreGoesToTrackZero : Obligations.RestoreGoesToTrackZero := by
  intro s lo hp himg
  have hstatus : class1Status s.cfg.params.fdc.status 0 false = 0x24#8 :=
    BitVec.eq_of_toNat_eq (class1Status_decided hp 0 false)
  exact ⟨_, exec_cmd_image .restore lo himg, rfl, rfl, rfl, hstatus, rfl, rfl, ⟨rfl, rfl, rfl, rfl⟩, rfl, rfl, rfl, rfl,
    ⟨rfl, rfl, rfl, rfl⟩, ⟨rfl, rfl, rfl⟩, setFdc_onlyFdc s _ _⟩

/-- The move of Seek as one update (44 R293). -/
theorem seekMove_eq (f : Fdc) : f.seekMove = { f with
    track := if f.dataReg.toNat < f.geom.tracks then f.dataReg.toNat else f.track
    trackReg := if f.dataReg.toNat < f.geom.tracks then f.dataReg else f.trackReg } := by
  unfold Fdc.seekMove
  split <;> rfl

theorem seek_alone {cfg : Config} (h : cfg.seekFallthrough = false) (f : Fdc) : f.seek cfg =
    f.seekMove.class1Complete cfg.params.fdc (!decide (f.dataReg.toNat < f.geom.tracks)) := by
  rw [Fdc.seek, h]
  rfl

theorem seek_fallthrough {cfg : Config} (h : cfg.seekFallthrough = true) (f : Fdc) : f.seek cfg =
    (f.seekMove.stepCommon true).1.class1Complete cfg.params.fdc
      (!decide (f.dataReg.toNat < f.geom.tracks) || (f.seekMove.stepCommon true).2) := by
  rw [Fdc.seek, h]
  rfl

/-- Settles O48, without and with the fall-through into a step. -/
theorem seekMovesWithinTheGeometry : Obligations.SeekMovesWithinTheGeometry := by
  intro s lo hp himg htracks moved stepped seekerr
  obtain ⟨htrack, hclamp⟩ := stepTarget_spec moved s.fdc.geom.tracks s.fdc.lastStepDir htracks
  cases hft : s.cfg.seekFallthrough with
  | false =>
    have hbody := seek_alone hft s.fdc.clearIrq
    have herr : (!decide (s.fdc.dataReg.toNat < s.fdc.geom.tracks)) = seekerr := by
      simp only [seekerr, hft, Bool.false_and, Bool.or_false]
    rw [seekMove_eq] at hbody
    refine ⟨_, exec_cmd_body (c := .seek) himg hbody, rfl, fun _ => ⟨rfl, rfl⟩, nofun, ?_, rfl, rfl, ⟨rfl, rfl, rfl, rfl⟩, rfl,
      rfl, rfl, rfl, ⟨rfl, rfl, rfl, rfl⟩, ⟨rfl, rfl, rfl⟩, setFdc_onlyFdc s _ _⟩
    rw [← herr]
    exact class1Status_decided hp moved _
  | true =>
    have hbody := seek_fallthrough hft s.fdc.clearIrq
    have herr : (!decide (s.fdc.dataReg.toNat < s.fdc.geom.tracks) ||
        (stepTarget moved s.fdc.geom.tracks s.fdc.lastStepDir).2) = seekerr := by
      rw [hclamp]
      simp only [seekerr, hft, Bool.true_and, stepped]
    rw [seekMove_eq] at hbody
    refine ⟨_, exec_cmd_body (c := .seek) himg hbody, rfl, nofun, fun _ => ⟨htrack, rfl⟩, ?_, rfl, rfl, ⟨rfl, rfl, rfl, rfl⟩,
      rfl, rfl, rfl, rfl, ⟨rfl, rfl, rfl, rfl⟩, ⟨rfl, rfl, rfl⟩, setFdc_onlyFdc s _ _⟩
    rw [← herr]
    exact class1Status_decided hp _ _

/-- The six step commands: the direction is set, then the head steps (44 R294 to R300). -/
theorem commandBody_step {c : FdcCmd} {u : Bool} {d : Option StepDir} (h : stepForm c = some (u, d)) (cfg : Config)
    (lo : BitVec 4) (f : Fdc) : commandBody cfg c lo f =
      ({ f with lastStepDir := d.getD f.lastStepDir } : Fdc).stepAndComplete cfg.params.fdc u := by
  cases c <;> simp only [stepForm, Option.some.injEq, Prod.mk.injEq, reduceCtorEq] at h <;> obtain ⟨rfl, rfl⟩ := h <;> rfl

/-- Settles O49. -/
theorem stepCommandsMoveOneTrackWithClamping : Obligations.StepCommandsMoveOneTrackWithClamping := by
  intro s c u d lo hp hform himg htracks dir target
  obtain ⟨htrack, hclamp⟩ := stepTarget_spec s.fdc.track s.fdc.geom.tracks dir htracks
  refine ⟨_, exec_cmd_body himg (commandBody_step hform s.cfg lo _), rfl, htrack, rfl, rfl, ?_, rfl, rfl,
    ⟨rfl, rfl, rfl, rfl⟩, rfl, rfl, rfl, ⟨rfl, rfl, rfl, rfl⟩, ⟨rfl, rfl, rfl⟩, setFdc_onlyFdc s _ _⟩
  refine (class1Status_decided hp _ (stepTarget s.fdc.track s.fdc.geom.tracks dir).2).trans ?_
  rw [hclamp]
  simp only [decide_eq_true_eq]
  rfl

/-! ### Class 2 and 3 commands (44 R301 to R313) -/

/-- The head a Class 2/3 command selects, at the decided bit (30 R138, D25). -/
theorem headSelect_toNat (lo : BitVec 4) :
    headSelect .decided lo = some (BitVec.ofNat 1 (lo.toNat / 2)) ∧ (BitVec.ofNat 1 (lo.toNat / 2)).toNat = lo.toNat / 2 % 2 := by
  refine ⟨?_, by rw [BitVec.toNat_ofNat, pow_one]⟩
  rw [headSelect_decided]
  revert lo
  decide

/-- The controller as the body of a Class 2/3 command sees it, at the decided parameters (44 R301). -/
def Fdc.selected (lo : BitVec 4) (f : Fdc) : Fdc := { f with drqCapable := true, head := BitVec.ofNat 1 (lo.toNat / 2) }

theorem ready_decided {s : State} (hp : s.cfg.params = .decided) (lo : BitVec 4) (f : Fdc) :
    Fdc.ready s.cfg.params.fdc lo f = f.selected lo := by
  obtain ⟨hhead, -⟩ := headSelect_toNat lo
  rw [Fdc.ready, fdcParams_decided hp, hhead]
  rfl

/-- Settles O50. -/
theorem writeProtectTurnsWriteCommandsAway : Obligations.WriteProtectTurnsWriteCommandsAway := by
  intro s c lo hp hc himg hw
  have hprot : s.cfg.params.fdc.status.wrProt = 0x40#8 := by rw [hp]; rfl
  have hbody : commandBody s.cfg c lo s.fdc.clearIrq =
      { s.fdc with drqCapable := true, status := s.cfg.params.fdc.status.wrProt, irq := true } := by
    rcases hc with rfl | rfl | rfl
    · exact class23_protected s.cfg.params.fdc _ (fun g => g.writeSectors 1) s.fdc.clearIrq himg hw
    · exact class23_protected s.cfg.params.fdc _ (fun g => g.writeSectors g.geom.spt) s.fdc.clearIrq himg hw
    · exact class23_protected s.cfg.params.fdc _ (fun g => g.openTransfer s.cfg.formatStreamLen none true) s.fdc.clearIrq himg hw
  rw [hprot] at hbody
  exact ⟨_, exec_cmd_body himg hbody, rfl, rfl, setFdc_onlyFdc s _ _⟩

/-- Settles O51. -/
theorem readAddressOpensTheIdRecord : Obligations.ReadAddressOpensTheIdRecord := by
  intro s lo hp himg
  obtain ⟨-, hhead⟩ := headSelect_toNat lo
  have hbody := rdaddr_runs s.cfg.params.fdc lo s.fdc.clearIrq himg
  rw [ready_decided hp] at hbody
  have hbyte := bufByte_openRead (s.fdc.clearIrq.selected lo) (s.fdc.clearIrq.selected lo).idRecord
  refine ⟨_, exec_cmd_body (c := .rdaddr) himg hbody, rfl, hhead, rfl, rfl, rfl, rfl, rfl, rfl, rfl, hbyte 0, ?_, hbyte 2,
    hbyte 3, hbyte 4, hbyte 5, fun p h => ?_, rfl, rfl, rfl, rfl, rfl, rfl, rfl, ⟨rfl, rfl, rfl, rfl⟩, setFdc_onlyFdc s _ _⟩
  · refine (congrArg BitVec.toNat (hbyte 1)).trans ?_
    show (0#7 ++ BitVec.ofNat 1 (lo.toNat / 2)).toNat = _
    rw [toNat_append_eq, hhead]
    simp only [BitVec.toNat_ofNat]
    omega
  · exact (hbyte p).trans (dif_neg (not_lt.mpr h))

/-- The block address as an integer: track, head and sector, less one (44 R306). -/
theorem byteOffset_eq (f : Fdc) : f.byteOffset =
    (((f.track : Int) * f.geom.heads + f.head.toNat) * f.geom.spt + f.sectorReg.toNat - 1) * f.geom.secsz := by
  rw [Fdc.byteOffset, Fdc.lba]
  ring

/-- The block address of a sector numbered from 1 (44 R306). -/
theorem byteOffset_toNat {f : Fdc} (h : 1 ≤ f.sectorReg.toNat) : f.byteOffset =
    (((f.track * f.geom.heads + f.head.toNat) * f.geom.spt + (f.sectorReg.toNat - 1)) * f.geom.secsz : Nat) := by
  rw [byteOffset_eq]
  push_cast [h]
  ring

/-- The position names a sector of the image (44 R304). -/
theorem sectorExists_iff (f : Fdc) : f.sectorExists = true ↔ f.track < f.geom.tracks ∧ f.head.toNat < f.geom.heads ∧
    1 ≤ f.sectorReg.toNat ∧ f.sectorReg.toNat ≤ f.geom.spt := by
  simp only [Fdc.sectorExists, Bool.and_eq_true, decide_eq_true_eq, and_assoc]

/-- The body of a read command with an image in the drive. -/
theorem commandBody_read {s : State} (hp : s.cfg.params = .decided) {c : FdcCmd} {n : Nat} (lo : BitVec 4)
    (hc : (c = .rdsec ∧ n = 1) ∨ (c = .rdsecM ∧ n = s.fdc.geom.spt)) (himg : s.fdc.image ≠ none) :
    commandBody s.cfg c lo s.fdc.clearIrq = (s.fdc.clearIrq.selected lo).readSectors s.cfg.params.fdc n := by
  rw [← ready_decided hp]
  rcases hc with ⟨rfl, rfl⟩ | ⟨rfl, rfl⟩
  · exact rdsec_runs s.cfg.params.fdc lo s.fdc.clearIrq himg
  · exact rdsecM_runs s.cfg.params.fdc lo s.fdc.clearIrq himg

/-- The body of a write command with a writable image in the drive. -/
theorem commandBody_write {s : State} (hp : s.cfg.params = .decided) {c : FdcCmd} {n : Nat} (lo : BitVec 4)
    (hc : (c = .wrsec ∧ n = 1) ∨ (c = .wrsecM ∧ n = s.fdc.geom.spt)) (himg : s.fdc.image ≠ none)
    (hw : s.fdc.writable = true) :
    commandBody s.cfg c lo s.fdc.clearIrq = (s.fdc.clearIrq.selected lo).writeSectors n := by
  rw [← ready_decided hp]
  rcases hc with ⟨rfl, rfl⟩ | ⟨rfl, rfl⟩
  · exact wrsec_runs s.cfg.params.fdc lo s.fdc.clearIrq himg hw
  · exact wrsecM_runs s.cfg.params.fdc lo s.fdc.clearIrq himg hw

/-- A position of the geometry, with the head that the command selects (44 R304). -/
theorem selected_sectorExists (f : Fdc) (lo : BitVec 4) : (f.clearIrq.selected lo).sectorExists = true ↔
    f.track < f.geom.tracks ∧ lo.toNat / 2 % 2 < f.geom.heads ∧ 1 ≤ f.sectorReg.toNat ∧ f.sectorReg.toNat ≤ f.geom.spt := by
  obtain ⟨-, hhead⟩ := headSelect_toNat lo
  rw [sectorExists_iff, ← hhead]
  rfl

/-- The block address with the head that the command selects. -/
theorem selected_byteOffset (f : Fdc) (lo : BitVec 4) (h : 1 ≤ f.sectorReg.toNat) :
    (f.clearIrq.selected lo).byteOffset.toNat =
      ((f.track * f.geom.heads + lo.toNat / 2 % 2) * f.geom.spt + (f.sectorReg.toNat - 1)) * f.geom.secsz := by
  obtain ⟨-, hhead⟩ := headSelect_toNat lo
  rw [byteOffset_toNat (f := f.clearIrq.selected lo) h, Int.toNat_natCast, ← hhead]
  rfl

/-- A read command at a position of the geometry opens the transfer of the image's bytes (44 R304). -/
theorem exec_read {s : State} (hp : s.cfg.params = .decided) {c : FdcCmd} {n : Nat} {lo : BitVec 4} {img : List Byte}
    (hc : (c = .rdsec ∧ n = 1) ∨ (c = .rdsecM ∧ n = s.fdc.geom.spt)) (himg : s.fdc.image = some img)
    (ht : s.fdc.track < s.fdc.geom.tracks) (hh : lo.toNat / 2 % 2 < s.fdc.geom.heads) (h1 : 1 ≤ s.fdc.sectorReg.toNat)
    (h2 : s.fdc.sectorReg.toNat ≤ s.fdc.geom.spt) : exec (c.instr lo) s =
      .next ((s.setFdc ((s.fdc.clearIrq.selected lo).openRead (imgRead img
        (((s.fdc.track * s.fdc.geom.heads + lo.toNat / 2 % 2) * s.fdc.geom.spt + (s.fdc.sectorReg.toNat - 1)) *
          s.fdc.geom.secsz) (n * s.fdc.geom.secsz)))).setOut (writeOut true)) := by
  have hsome : s.fdc.image ≠ none := by rw [himg]; exact Option.some_ne_none img
  have hbytes : (s.fdc.clearIrq.selected lo).imageBytes = img := by
    show s.fdc.image.getD [] = img
    rw [himg, Option.getD_some]
  refine exec_cmd_body hsome ((commandBody_read hp lo hc hsome).trans ?_)
  rw [Fdc.readSectors, if_pos ((selected_sectorExists s.fdc lo).mpr ⟨ht, hh, h1, h2⟩), selected_byteOffset s.fdc lo h1, hbytes]
  rfl

/-- Settles O52. -/
theorem readSectorOpensTheImageBytes : Obligations.ReadSectorOpensTheImageBytes := by
  intro s c n lo img hp hc himg ht hh h1 h2 off
  obtain ⟨-, hhead⟩ := headSelect_toNat lo
  have hbyte := bufByte_openRead (s.fdc.clearIrq.selected lo) (imgRead img off (n * s.fdc.geom.secsz))
  refine ⟨_, exec_read hp hc himg ht hh h1 h2, rfl, hhead, rfl, imgRead_length _ _ _, rfl, rfl, rfl, rfl, rfl, fun p h => ?_,
    fun p h => (hbyte p).trans (dif_neg (not_lt.mpr h)), rfl, rfl, rfl, rfl, rfl, rfl, rfl, ⟨rfl, rfl, rfl, rfl⟩,
    setFdc_onlyFdc s _ _⟩
  have hlen : p < (imgRead img off (n * s.fdc.geom.secsz)).length := h
  have hn : p < n * s.fdc.geom.secsz := by
    rw [imgRead_length] at hlen
    exact lt_of_lt_of_le hlen (min_le_left _ _)
  refine Eq.trans ?_ (congrArg some (hbyte p).symm)
  rw [dif_pos hlen, ← List.getElem?_eq_getElem hlen, imgRead_get, if_pos hn]

/-- Settles O53. -/
theorem recordNotFoundLeavesTheTransfer : Obligations.RecordNotFoundLeavesTheTransfer := by
  intro s c lo hp himg hc
  have hrnf : s.cfg.params.fdc.status.rnf = 0x10#8 := by rw [hp]; rfl
  have hbody : commandBody s.cfg c lo s.fdc.clearIrq = (s.fdc.clearIrq.selected lo).report s.cfg.params.fdc.status.rnf := by
    have hread : ∀ n, ((c = .rdsec ∧ n = 1) ∨ (c = .rdsecM ∧ n = s.fdc.geom.spt)) →
        ¬(s.fdc.clearIrq.selected lo).sectorExists = true →
        commandBody s.cfg c lo s.fdc.clearIrq = (s.fdc.clearIrq.selected lo).report s.cfg.params.fdc.status.rnf := by
      intro n hc hnot
      rw [commandBody_read hp lo hc himg, Fdc.readSectors, if_neg hnot]
    rcases hc with rfl | ⟨hc | hc, hnot⟩
    · exact (rdtrk_runs s.cfg.params.fdc lo s.fdc.clearIrq himg).trans (by rw [ready_decided hp])
    · exact hread 1 (.inl ⟨hc, rfl⟩) (mt (selected_sectorExists s.fdc lo).mp hnot)
    · exact hread _ (.inr ⟨hc, rfl⟩) (mt (selected_sectorExists s.fdc lo).mp hnot)
  rw [hrnf] at hbody
  exact ⟨_, exec_cmd_body himg hbody, rfl, rfl, setFdc_onlyFdc s _ _⟩

/-- Settles O54. -/
theorem writeSectorOpensAWriteTransfer : Obligations.WriteSectorOpensAWriteTransfer := by
  intro s c n lo hp hc himg hw off
  obtain ⟨-, hhead⟩ := headSelect_toNat lo
  have hoff : (s.fdc.clearIrq.selected lo).byteOffset = off := by
    rw [byteOffset_eq]
    simp only [off, ← hhead]
    rfl
  have hbody := commandBody_write hp lo hc himg hw
  rw [Fdc.writeSectors, hoff] at hbody
  exact ⟨_, exec_cmd_body himg hbody, rfl, hhead, rfl, rfl, fun h => ⟨_, if_pos h, Int.toNat_of_nonneg h⟩,
    fun h => if_neg (not_le.mpr h), rfl, rfl, rfl, rfl, rfl, rfl, rfl, rfl, rfl, ⟨rfl, rfl, rfl⟩, ⟨rfl, rfl, rfl, rfl⟩,
    setFdc_onlyFdc s _ _⟩

/-- Settles O55. -/
theorem formatTrackOpensAFormatTransfer : Obligations.FormatTrackOpensAFormatTransfer := by
  intro s lo hp himg hw
  obtain ⟨-, hhead⟩ := headSelect_toNat lo
  have hbody := fmttrk_runs s.cfg lo s.fdc.clearIrq himg hw
  rw [ready_decided hp] at hbody
  exact ⟨_, exec_cmd_body (c := .fmttrk) himg hbody, rfl, hhead, rfl, rfl, rfl, rfl, rfl, rfl, rfl, rfl, rfl, rfl, rfl, rfl,
    ⟨rfl, rfl, rfl⟩, ⟨rfl, rfl, rfl, rfl⟩, setFdc_onlyFdc s _ _⟩

/-- Bit 3 of the low nibble (30 R138, D25). -/
theorem nibble_bit3 : ∀ lo : BitVec 4, lo.getLsbD 3 = decide (8 ≤ lo.toNat) := by decide

/-- What Force Interrupt does with an image in the drive, at the decided parameters (44 R313). -/
theorem commandBody_forceint {s : State} (hp : s.cfg.params = .decided) (lo : BitVec 4) (himg : s.fdc.image ≠ none) :
    commandBody s.cfg .forceint lo s.fdc.clearIrq =
      { s.fdc.close with
        drqCapable := true
        status := forceIntStatus .decided s.fdc.track s.fdc.writable
        irq := decide (8 ≤ lo.toNat) } := by
  have hbit : lo.getLsbD FdcParams.decided.irqBit = decide (8 ≤ lo.toNat) := nibble_bit3 lo
  rw [commandBody, Fdc.forceint, fdcParams_decided hp, class23_runs _ false _ _ s.fdc.clearIrq himg nofun, decided_status, hbit]
  rfl

/-- Settles O56. -/
theorem forceInterruptClosesTheTransfer : Obligations.ForceInterruptClosesTheTransfer := by
  intro s lo hp himg
  exact ⟨_, exec_cmd_body (c := .forceint) himg (commandBody_forceint hp lo himg), rfl, ⟨rfl, rfl, rfl, rfl⟩, rfl, rfl,
    forceIntStatus_toNat s.fdc.track s.fdc.writable, ⟨rfl, rfl, rfl, rfl, rfl, rfl⟩, ⟨rfl, rfl, rfl, rfl⟩, ⟨rfl, rfl, rfl⟩,
    setFdc_onlyFdc s _ _⟩

end Sys2Proof.Machine

/-! Proofs about whole transfers: Read Sector with its data reads, and Write Sector with its data writes (44 §3, 43 §4). -/

namespace Sys2Proof.Machine

/-- A sector of the geometry lies within an image of the geometry's size (44 R306, 45 R333). -/
theorem sector_within {track tracks head heads sector spt : Nat} (ht : track < tracks) (hh : head < heads) (h1 : 1 ≤ sector)
    (h2 : sector ≤ spt) (secsz : Nat) :
    ((track * heads + head) * spt + (sector - 1)) * secsz + secsz ≤ secsz * spt * heads * tracks := by
  have hcyl : track * heads + head + 1 ≤ tracks * heads :=
    calc track * heads + head + 1 ≤ (track + 1) * heads := by rw [add_one_mul]; omega
      _ ≤ tracks * heads := Nat.mul_le_mul_right heads ht
  have hblock : (track * heads + head) * spt + (sector - 1) + 1 ≤ tracks * heads * spt :=
    calc (track * heads + head) * spt + (sector - 1) + 1 ≤ (track * heads + head + 1) * spt := by rw [add_one_mul]; omega
      _ ≤ tracks * heads * spt := Nat.mul_le_mul_right spt hcyl
  calc ((track * heads + head) * spt + (sector - 1)) * secsz + secsz
      = ((track * heads + head) * spt + (sector - 1) + 1) * secsz := (add_one_mul _ _).symm
    _ ≤ tracks * heads * spt * secsz := Nat.mul_le_mul_right secsz hblock
    _ = secsz * spt * heads * tracks := by ring

/-! ### Data reads of an open transfer (43 R266) -/

/-- A data read of a transfer that the buffer holds. -/
theorem exec_rdData_open {s : State} (h : s.fdc.cur < s.fdc.len) (hcap : s.fdc.len ≤ s.fdc.bufCap) :
    ∃ t, exec .fdcRdData s = .next t ∧ t.out.value = some (.v8 (s.fdc.bufByte s.fdc.cur)) ∧ t.fdc =
      { s.fdc with cur := s.fdc.cur + 1, irq := s.fdc.irq || decide (s.fdc.cur + 1 = s.fdc.len) } := by
  have hread := readAtCursor_within (lt_of_lt_of_le h hcap)
  refine ⟨_, rfl, ?_, (rdData_open h).trans (by rw [hread])⟩
  show some (ReadValue.v8 s.fdc.rdData.1) = _
  rw [Fdc.rdData, if_pos h, hread]

theorem dataReads_succ {s t u : State} {n : Nat} {v : ReadValue} {vs : List ReadValue} (he : exec .fdcRdData s = .next t)
    (hv : t.out.value = some v) (hrest : dataReads n t = some (vs, u)) : dataReads (n + 1) s = some (v :: vs, u) := by
  simp only [dataReads, he, nextOf, hv, hrest]

/-- Data reads return the buffer's bytes from the cursor on, and the IRQ comes with the last byte of the transfer. -/
theorem dataReads_open (bytes : List Byte) : ∀ s : State,
    (∀ k (h : k < bytes.length), s.fdc.bufByte (s.fdc.cur + k) = bytes[k]) → s.fdc.cur + bytes.length ≤ s.fdc.len →
    s.fdc.len ≤ s.fdc.bufCap → s.fdc.irq = decide (s.fdc.cur = s.fdc.len) →
    ∃ u, dataReads bytes.length s = some (bytes.map ReadValue.v8, u) ∧
      u.fdc.irq = decide (s.fdc.cur + bytes.length = s.fdc.len) ∧ u.fdc.image = s.fdc.image := by
  induction bytes with
  | nil => exact fun s _ _ _ hirq => ⟨s, rfl, hirq, rfl⟩
  | cons b bytes ih =>
    intro s hbuf hlen hcap hirq
    rw [List.length_cons] at hlen
    have hlt : s.fdc.cur < s.fdc.len := by omega
    have hidle : s.fdc.irq = false := hirq.trans (decide_eq_false hlt.ne)
    have hfirst : s.fdc.bufByte s.fdc.cur = b := hbuf 0 (Nat.succ_pos _)
    obtain ⟨t, he, hv, ht⟩ := exec_rdData_open hlt hcap
    rw [hfirst] at hv
    rw [hidle, Bool.false_or] at ht
    have htbuf : ∀ k (h : k < bytes.length), t.fdc.bufByte (t.fdc.cur + k) = bytes[k] := by
      intro k h
      rw [ht]
      show s.fdc.bufByte (s.fdc.cur + 1 + k) = _
      rw [add_assoc, add_comm 1]
      exact hbuf (k + 1) (Nat.succ_lt_succ h)
    have htlen : t.fdc.cur + bytes.length ≤ t.fdc.len := by
      rw [ht]
      show s.fdc.cur + 1 + bytes.length ≤ s.fdc.len
      omega
    obtain ⟨u, hreads, hlast, himg⟩ := ih t htbuf htlen (by rw [ht]; exact hcap) (by rw [ht])
    refine ⟨u, dataReads_succ he hv hreads, ?_, himg.trans (by rw [ht])⟩
    rw [hlast, ht, List.length_cons, add_assoc, add_comm 1]

/-- Settles O43: the buffer holds the sector when the transfer opens, and the reads walk it. -/
theorem readSectorThenDataReadsReturnTheSector : Obligations.ReadSectorThenDataReadsReturnTheSector := by
  intro s lo img hp hinv himg htrack hh h1 h2 off
  obtain ⟨hsecsz, hspt, -, -, hsize, hcap⟩ := hinv.someImage img himg
  have hfits : off + s.fdc.geom.secsz ≤ img.length := hsize ▸ sector_within htrack hh h1 h2 s.fdc.geom.secsz
  have hbuf : s.fdc.geom.secsz ≤ s.fdc.bufCap := hcap ▸ le_max_of_le_left (Nat.le_mul_of_pos_right _ hspt)
  have hlen : (imgRead img off (1 * s.fdc.geom.secsz)).length = s.fdc.geom.secsz := by
    rw [imgRead_length]
    omega
  obtain ⟨t, he, ht⟩ : ∃ t, exec (.fdcRdsec lo) s = .next t ∧
      t.fdc = (s.fdc.clearIrq.selected lo).openRead (imgRead img off (1 * s.fdc.geom.secsz)) :=
    ⟨_, exec_read hp (c := .rdsec) (.inl ⟨rfl, rfl⟩) himg htrack hh h1 h2, rfl⟩
  have hcur : t.fdc.cur = 0 := by rw [ht]; rfl
  have htlen : t.fdc.len = s.fdc.geom.secsz := by rw [ht]; exact hlen
  have hirq : t.fdc.irq = false := by rw [ht]; rfl
  refine ⟨t, he, hirq, fun n hn => ?_⟩
  have htake : ((img.drop off).take n).length = n := by
    rw [List.length_take, List.length_drop]
    omega
  have hsector : ∀ k (h : k < ((img.drop off).take n).length),
      t.fdc.bufByte (t.fdc.cur + k) = ((img.drop off).take n)[k] := by
    intro k h
    rw [htake] at h
    rw [hcur, zero_add, ht, bufByte_openRead, dif_pos (by omega)]
    simp only [imgRead, List.getElem_take]
  obtain ⟨u, hreads, hlast, hsame⟩ := dataReads_open _ t hsector (by omega) (by rw [htlen, ht]; exact hbuf)
    (by rw [hirq, hcur, htlen, decide_eq_false hsecsz.ne])
  rw [htake] at hreads hlast
  refine ⟨u, hreads, ?_, hsame.trans (by rw [ht]; exact himg)⟩
  rw [hlast, hcur, htlen, zero_add]

/-! ### Data writes of an open transfer (43 R268) -/

theorem dataWrites_append (as bs : List Byte) : ∀ s : State, dataWrites (as ++ bs) s = (dataWrites as s).bind (dataWrites bs) := by
  induction as with
  | nil => exact fun s => rfl
  | cons a as ih => exact fun s => ih _

/-- Data writes before the last byte of a write transfer: the bytes are in the buffer, and nothing but the latched byte and
the cursor has changed besides. -/
theorem dataWrites_more (bytes : List Byte) : ∀ s : State, s.fdc.wpos ≠ none → s.fdc.formatting = false →
    s.fdc.cur + bytes.length < s.fdc.len → ∃ u d, dataWrites bytes s = some u ∧
      u.fdc = { s.fdc with dataReg := d, buf := bufWrite s.fdc.buf s.fdc.cur bytes, cur := s.fdc.cur + bytes.length } := by
  induction bytes with
  | nil => exact fun s _ _ _ => ⟨s, s.fdc.dataReg, rfl, rfl⟩
  | cons b bytes ih =>
    intro s hwpos hfmt hlen
    rw [List.length_cons] at hlen
    obtain ⟨t, he, ht⟩ : ∃ t, exec (.fdcWrData b) s = .next t ∧ t.fdc = s.fdc.wrData b := ⟨_, rfl, rfl⟩
    rw [wrData_more b ⟨by omega, .inl hwpos⟩ (by omega), hfmt, if_neg Bool.false_ne_true] at ht
    obtain ⟨u, d, hwrites, hu⟩ := ih t (by rw [ht]; exact hwpos) (by rw [ht]) (by
      rw [ht]
      show s.fdc.cur + 1 + bytes.length < s.fdc.len
      omega)
    refine ⟨u, d, ?_, hu.trans ?_⟩
    · simp only [dataWrites, he, nextOf, hwrites]
    · rw [ht, List.length_cons, bufWrite]
      simp only [hfmt, add_assoc, add_comm 1]

/-- The bytes written up to the cursor, then the byte of a last data write. -/
theorem accepted_bufWrite (f : Fdc) (init : List Byte) (last : Byte) (hfmt : f.formatting = false)
    (hbuf : ∃ m, f.buf = bufWrite m 0 init) (hcur : f.cur = init.length) (p : Nat) (h : p < (init ++ [last]).length) :
    f.accepted last p = (init ++ [last])[p] := by
  obtain ⟨m, hm⟩ := hbuf
  rw [List.length_append, List.length_singleton] at h
  unfold Fdc.accepted
  by_cases hp : p = f.cur
  · subst hp
    rw [if_pos ⟨hfmt, rfl⟩]
    simp only [hcur, List.getElem_concat_length]
  · have hlt : p < init.length := by omega
    rw [if_neg fun h => hp h.2, List.getElem_append_left hlt, Fdc.bufByte, hm, memGet_bufWrite,
      dif_pos ⟨Nat.zero_le p, hlt⟩]
    rfl

/-- A whole write transfer: nothing reaches the image before the last byte, which stores all of them (43 R268). -/
theorem dataWrites_transfer {s : State} {f : Fdc} {img bytes : List Byte} {off : Nat} (himg : f.image = some img)
    (hne : bytes ≠ []) (hs : s.fdc = f.openTransfer bytes.length (some off) false) :
    (∀ n, n < bytes.length → ∃ u, dataWrites (bytes.take n) s = some u ∧ u.fdc.image = some img ∧ u.fdc.irq = f.irq) ∧
    ∃ u, dataWrites bytes s = some u ∧ u.fdc.image = some (imgWrite img off bytes) ∧ u.fdc.irq = true ∧
      TransferClosed u.fdc := by
  have hwpos : s.fdc.wpos = some off := by rw [hs]; rfl
  have hfmt : s.fdc.formatting = false := by rw [hs]; rfl
  have hlen : s.fdc.len = bytes.length := by rw [hs]; rfl
  have hcur : s.fdc.cur = 0 := by rw [hs]; rfl
  have hsimg : s.fdc.image = some img := by rw [hs]; exact himg
  have hirq : s.fdc.irq = f.irq := by rw [hs]; rfl
  have hopen : s.fdc.wpos ≠ none := by rw [hwpos]; exact Option.some_ne_none off
  refine ⟨fun n hn => ?_, ?_⟩
  · obtain ⟨u, d, hwrites, hu⟩ := dataWrites_more (bytes.take n) s hopen hfmt (by rw [hcur, hlen, List.length_take]; omega)
    exact ⟨u, hwrites, by rw [hu]; exact hsimg, by rw [hu]; exact hirq⟩
  · obtain ⟨init, last, rfl⟩ : ∃ init last, bytes = init ++ [last] :=
      ⟨_, _, (List.dropLast_append_getLast hne).symm⟩
    rw [List.length_append, List.length_singleton] at hlen
    obtain ⟨u, d, hwrites, hu⟩ := dataWrites_more init s hopen hfmt (by omega)
    rw [hcur, zero_add] at hu
    have hacc : u.fdc.accepts := by
      rw [hu]
      exact ⟨by show init.length < s.fdc.len; omega, .inl hopen⟩
    have hufmt : u.fdc.formatting = false := by rw [hu]; exact hfmt
    have hulen : u.fdc.len = (init ++ [last]).length := by
      rw [hu, List.length_append]
      exact hlen
    have hstored : (List.range u.fdc.len).map (u.fdc.accepted last) = init ++ [last] := by
      refine List.ext_getElem (by rw [List.length_map, List.length_range, hulen]) fun p _ h => ?_
      rw [List.getElem_map, List.getElem_range]
      exact accepted_bufWrite u.fdc init last hufmt ⟨_, by rw [hu]⟩ (by rw [hu]) p h
    have hflushed := flushed_write last hufmt (by rw [hu]; exact hwpos) (by rw [hu]; exact hsimg)
    have hlast := wrData_last last hacc (by rw [hu]; exact hlen.symm)
    rw [hflushed, hstored] at hlast
    refine ⟨_, by rw [dataWrites_append, hwrites]; rfl, ?_⟩
    show (u.fdc.wrData last).image = _ ∧ (u.fdc.wrData last).irq = true ∧ TransferClosed (u.fdc.wrData last)
    rw [hlast]
    exact ⟨rfl, rfl, ⟨rfl, rfl, rfl, rfl⟩⟩

/-- Write Sector at a position of the geometry opens the transfer of one sector at its block address (44 R307). -/
theorem exec_wrsec {s : State} (hp : s.cfg.params = .decided) {lo : BitVec 4} (himg : s.fdc.image ≠ none)
    (hw : s.fdc.writable = true) (h1 : 1 ≤ s.fdc.sectorReg.toNat) : exec (.fdcWrsec lo) s =
      .next ((s.setFdc ((s.fdc.clearIrq.selected lo).openTransfer s.fdc.geom.secsz
        (some (((s.fdc.track * s.fdc.geom.heads + lo.toNat / 2 % 2) * s.fdc.geom.spt + (s.fdc.sectorReg.toNat - 1)) *
          s.fdc.geom.secsz)) false)).setOut (writeOut true)) := by
  have hpos : 0 ≤ (s.fdc.clearIrq.selected lo).byteOffset := by
    rw [byteOffset_toNat (f := s.fdc.clearIrq.selected lo) h1]
    exact Int.natCast_nonneg _
  refine exec_cmd_body (c := .wrsec) himg ((commandBody_write hp lo (.inl ⟨rfl, rfl⟩) himg hw).trans ?_)
  rw [Fdc.writeSectors, if_pos hpos, selected_byteOffset s.fdc lo h1, one_mul]
  rfl

/-- Settles O44. -/
theorem writeSectorThenDataWritesFillTheSector : Obligations.WriteSectorThenDataWritesFillTheSector := by
  intro s lo img bytes hp hinv himg hw _ _ h1 _ hbytes off
  obtain ⟨hsecsz, -⟩ := hinv.someImage img himg
  have hsome : s.fdc.image ≠ none := by rw [himg]; exact Option.some_ne_none img
  have hne : bytes ≠ [] := List.ne_nil_of_length_pos (hbytes ▸ hsecsz)
  obtain ⟨t, he, ht⟩ : ∃ t, exec (.fdcWrsec lo) s = .next t ∧
      t.fdc = (s.fdc.clearIrq.selected lo).openTransfer bytes.length (some off) false := by
    rw [hbytes]
    exact ⟨_, exec_wrsec hp hsome hw h1, rfl⟩
  obtain ⟨hbefore, u, hwrites, hfull, hirq, hclosed⟩ :=
    dataWrites_transfer (f := s.fdc.clearIrq.selected lo) himg hne ht
  exact ⟨t, he, by rw [ht]; rfl, hbefore, u, _, hwrites, hfull, hirq, hclosed, imgWrite_length img off bytes,
    fun k hk => imgWrite_get img off bytes k hk⟩

end Sys2Proof.Machine
